-- ==== Sys2Proof/Word.lean ====
section
/-! DEFINITION. The word types of the block and the pixel (spec/00_scope.md R6, R9). -/

namespace Sys2Proof

/-- A byte of the input, of the output, or of a pixel (spec/00_scope.md R7). -/
abbrev Byte := BitVec 8

/-- A header field `WIDTH` or `HEIGHT` (spec/10_state.md R32). -/
abbrev Word32 := BitVec 32

/-- A 64-bit register: `IN_POS`, `IN_LEN`, `PIX_TOTAL`, `PIX_COUNT`, `ERR_POS` (spec/10_state.md R20). -/
abbrev Word64 := BitVec 64

/-- A pixel is a 4-tuple of bytes (spec/00_scope.md R9). -/
structure Pixel where
  r : Byte
  g : Byte
  b : Byte
  a : Byte
  deriving DecidableEq, Repr, Inhabited

/-- The pixel `(0,0,0,0)`: what every cache slot holds at the start of a decode (spec/10_state.md R23). -/
def Pixel.zero : Pixel := ⟨0, 0, 0, 0⟩

/-- The pixel `(0,0,0,255)`: `PREV` at the start of a decode (spec/10_state.md R22). -/
def Pixel.start : Pixel := ⟨0, 0, 0, 255⟩

/-- A pixel as it stands in `OUT`: R, G, B, A (spec/20_memory.md R64). -/
def Pixel.bytes (p : Pixel) : List Byte := [p.r, p.g, p.b, p.a]

/-- The internal 32-bit packing of a pixel, `r` in bits 31:24 (spec/00_scope.md R9); no port exposes it. -/
def Pixel.word (p : Pixel) : BitVec 32 := p.r ++ p.g ++ p.b ++ p.a

end Sys2Proof
end

