-- ==== Sys2Proof/Config.lean ====
section
/-! DEFINITION. What the spec leaves to the platform (its named OPEN parameters) and the free values. -/

namespace Sys2Proof

/-- The OPEN parameters of one block (spec/00_scope.md R6, spec/92_eei_decisions.md). A `Config` is plain data and
a field of the machine's state that no step writes, so a statement about every state holds for every choice.
DESIGN CHOICE (notes/assumptions/29, unsafe): a platform address, whose width the spec leaves open, is a natural number. -/
structure Config where
  /-- `MAGIC`, the four bytes of the tag, first byte first (spec/40_header_parser.md R122). -/
  magic : Vector Byte 4
  /-- `OUT_CAP`, how many bytes of `OUT` the platform supplies (spec/20_memory.md R69). -/
  outCap : Nat
  /-- `IN_BASE`: where offset 0 of `IN` lies in the platform's addresses (spec/20_memory.md R60). -/
  inBase : Nat
  /-- `OUT_BASE`: where offset 0 of `OUT` lies in the platform's addresses (spec/20_memory.md R60). -/
  outBase : Nat
  /-- `REG_ADDR`: the platform address of each of the registers 0 to 10 (spec/10_state.md R37). -/
  regAddr : Vector Nat 11
  deriving DecidableEq, Repr

/-- The configuration of the reset state. `magic` is the spec's default, 71 6F 69 66 (spec/00_scope.md R6).
DESIGN CHOICE (notes/assumptions/1, 2, 12; unsafe): the spec names no value for the other fields. -/
def Config.initial : Config where
  magic := #v[0x71, 0x6F, 0x69, 0x66]
  outCap := 2 ^ 66
  inBase := 0
  outBase := 0
  regAddr := #v[0, 8, 16, 24, 32, 40, 48, 56, 64, 72, 80]

/-- Free value: what a host read of `OUT` returns while the block is BUSY (spec/20_memory.md R72), the `n`-th draw. -/
opaque Config.racingByte : Nat → Byte

/-- Free value: the pixel that a reset leaves in `PREV` (place 64) or in a cache slot (places 0 to 63), at the
`n`-th draw (spec/10_state.md R42, "unspecified"). -/
opaque Config.unspecifiedPixel : Nat → Nat → Pixel

end Sys2Proof
end

