-- ==== Sys2Proof/Syntax.lean ====
section
/-! DEFINITION. The opcode stream's six opcodes (spec/30_encoding.md R94), one constructor per row of
spec/opcode_table.json. Operands are the decoded values that the spec's pseudocode uses: a signed delta is a plain
integer (R95), a run length a natural number (R98), a slot number a number below 64 (R97). -/

namespace Sys2Proof

/-- The six opcodes by name (spec/30_encoding.md R93). -/
inductive Opcode where
  | rgb
  | rgba
  | index
  | diff
  | luma
  | run
  deriving DecidableEq, Repr

/-- One opcode with its operands (spec/30_encoding.md R94, R104). -/
inductive Instr where
  /-- RGB r, g, b (spec/42_literal_ops.md R170). -/
  | rgb (r g b : Byte)
  /-- RGBA r, g, b, a (spec/42_literal_ops.md R171). -/
  | rgba (r g b a : Byte)
  /-- INDEX i (spec/43_index_op.md R180). -/
  | index (i : Fin 64)
  /-- DIFF dr, dg, db (spec/44_delta_ops.md R190). -/
  | diff (dr dg db : Int)
  /-- LUMA dg, dr_dg, db_dg (spec/44_delta_ops.md R191). -/
  | luma (dg drdg dbdg : Int)
  /-- RUN n (spec/45_run_op.md R200). -/
  | run (n : Nat)
  deriving DecidableEq, Repr

/-- Which opcode an instruction is. -/
def Instr.opcode : Instr → Opcode
  | .rgb _ _ _ => .rgb
  | .rgba _ _ _ _ => .rgba
  | .index _ => .index
  | .diff _ _ _ => .diff
  | .luma _ _ _ => .luma
  | .run _ => .run

end Sys2Proof
end

