-- ==== Sys2Proof/Machine/State.lean ====
section
/-! DEFINITION. The machine's state as plain data (spec/10_state.md), its reset value (R42), and the reasons a step
can stop. -/

namespace Sys2Proof.Machine

/-- `STATE` (spec/10_state.md R24). -/
inductive Status where
  | idle
  | busy
  | done
  | error
  deriving DecidableEq, Repr

/-- `ERR_CODE` (spec/10_state.md R25); `noError` is the value `NONE`. -/
inductive ErrCode where
  | noError
  | magicMismatch
  | truncatedInput
  | invalidEndMarker
  deriving DecidableEq, Repr

/-- `PHASE` (spec/10_state.md R27): which internal step runs next while BUSY. -/
inductive Phase where
  | hdr
  | ops
  | runEmit
  | endMarker
  deriving DecidableEq, Repr

/-- A byte memory: (offset, byte) pairs, offsets strictly rising, no entry equal to what an unlisted offset reads as
(`Memory.wf` in Sys2Proof/Machine/Ops.lean says so). -/
abbrev Memory := List Host.Cell

/-- One move of the host between two steps of the block: the transitions that spec/41_opcode_dispatch.md R140 gives
the host, and its own accesses to `IN` and `OUT`, which it owns (spec/00_scope.md R11). -/
inductive HostMove where
  /-- The host does nothing at this step boundary: the block takes its internal step. -/
  | noMove
  /-- Read register number `n` (spec/10_state.md R37). -/
  | readReg (n : Nat)
  /-- Write `v` to register number `n` (spec/10_state.md R38); register 0 with bit 0 set is START. -/
  | writeReg (n : Nat) (v : Word64)
  /-- Place a byte of the input (spec/70_reset_and_hazards.md R292). -/
  | writeIn (offset : Word64) (b : Byte)
  /-- Read a byte of `IN` (spec/70_reset_and_hazards.md R292, step 4). -/
  | readIn (offset : Word64)
  /-- Write a byte of `OUT`. -/
  | writeOut (offset : Nat) (b : Byte)
  /-- Read a byte of `OUT` (spec/20_memory.md R72). -/
  | readOut (offset : Nat)
  /-- Assert reset (spec/70_reset_and_hazards.md R290). -/
  | reset
  deriving DecidableEq, Repr

/-- The state of one block, with `IN`, `OUT` and the host's pending moves. -/
structure State where
  /-- The platform's parameters; no step writes them. -/
  cfg : Config
  /-- `STATE` (R24). -/
  status : Status
  /-- `ERR_CODE` (R25). -/
  errCode : ErrCode
  /-- `ERR_POS` (R26). -/
  errPos : Word64
  /-- `PHASE` (R27). -/
  phase : Phase
  /-- `RUN_REMAIN` (R28). -/
  runRemain : BitVec 6
  /-- `IN_POS`, the read pointer (R29). -/
  inPos : Word64
  /-- `IN_LEN` (R31). -/
  inLen : Word64
  /-- `WIDTH` (R32). -/
  width : Word32
  /-- `HEIGHT` (R32). -/
  height : Word32
  /-- `CHANNELS` (R32). -/
  channels : Byte
  /-- `COLORSPACE` (R32). -/
  colorspace : Byte
  /-- `PIX_TOTAL` (R33). -/
  pixTotal : Word64
  /-- `PIX_COUNT` (R34). -/
  pixCount : Word64
  /-- `PREV` (R22). -/
  prev : Pixel
  /-- `CACHE[0..63]` (R23). -/
  cache : Vector Pixel 64
  /-- The contents of `IN` (spec/20_memory.md R60). -/
  input : Memory
  /-- The contents of `OUT` (spec/20_memory.md R60). -/
  output : Memory
  /-- The model's own: the host's pending moves, the next one first. -/
  hostMoves : List HostMove
  /-- The model's own: what the host's last read returned. -/
  readData : Word64
  /-- The model's own: how many free values have been drawn. -/
  draws : Nat
  deriving DecidableEq, Repr

/-- The cache with every slot `(0,0,0,0)` (spec/10_state.md R23). -/
def emptyCache : Vector Pixel 64 := Vector.replicate 64 Pixel.zero

/-- The machine right after reset (spec/10_state.md R42, spec/70_reset_and_hazards.md R290).
DESIGN CHOICE (notes/assumptions/3, unsafe): the spec leaves `PREV` and `CACHE` unspecified here; both hold
`(0,0,0,0)`. DESIGN CHOICE (notes/assumptions/4, unsafe): `IN` and `OUT` list nothing. -/
def State.reset : State where
  cfg := Config.initial
  status := .idle
  errCode := .noError
  errPos := 0
  phase := .hdr
  runRemain := 0
  inPos := 0
  inLen := 0
  width := 0
  height := 0
  channels := 0
  colorspace := 0
  pixTotal := 0
  pixCount := 0
  prev := Pixel.zero
  cache := emptyCache
  input := []
  output := []
  hostMoves := []
  readData := 0
  draws := 0

/-- Why the machine stops with a fault. -/
inductive Fault where
  /-- Raised by `append` when the pixel does not fit in `OUT` (spec/20_memory.md R69, the model fault
  `OutputOverflow`). Safe: nothing is claimed of a run that reaches it. -/
  | outputOverflow
  /-- Raised by a host access to `OUT` at an offset that does not exist, `OUT_CAP` or above (spec/20_memory.md R60).
  No opcode raises it. Safe: the run stops. -/
  | outOffsetAbsent
  deriving DecidableEq, Repr

/-- Why the machine refuses to go on. -/
inductive Refusal where
  /-- Raised by `exec` for an instruction that has no meaning yet; no arm raises it. Safe: the run stops. -/
  | notModelled (mnemonic : String)
  /-- Raised by a host write to `IN` or `OUT` while BUSY, which the spec gives the host no move for
  (spec/20_memory.md R74, spec/70_reset_and_hazards.md R293). No opcode raises it. Safe: the run stops. -/
  | hostWriteWhileBusy
  /-- Raised by the step of a platform that would leave two BUSY instances with overlapping `OUT` regions, such as a START
  at the second one: a host error that the spec gives no move for (spec/70_reset_and_hazards.md R293,
  spec/92_eei_decisions.md D30). No opcode raises it. Safe: the run stops. -/
  | overlappingOut
  deriving DecidableEq, Repr

/-- What one step of the machine answers. -/
abbrev Outcome := Host.Outcome State Fault Refusal

end Sys2Proof.Machine
end

