-- ==== Sys2Proof/Machine/Flags.lean ====
section
/-! DEFINITION. The status flags (spec/10_state.md R24, R25, R36, R39) and the completion line (spec/60_exceptions.md
R268). The block has no condition code; no opcode sets a flag except through `raise`. -/

namespace Sys2Proof.Machine

/-- The encoding of `STATE` (spec/10_state.md R24). -/
def Status.code : Status → BitVec 2
  | .idle => 0
  | .busy => 1
  | .done => 2
  | .error => 3

/-- The encoding of `ERR_CODE` (spec/10_state.md R25). -/
def ErrCode.code : ErrCode → BitVec 2
  | .noError => 0
  | .magicMismatch => 1
  | .truncatedInput => 2
  | .invalidEndMarker => 3

/-- The encoding of `PHASE` (spec/10_state.md R27); no port exposes it. -/
def Phase.code : Phase → BitVec 2
  | .hdr => 0
  | .ops => 1
  | .runEmit => 2
  | .endMarker => 3

/-- The register `STATUS`: `STATE` in bits 1:0, `ERR_CODE` in bits 3:2, bits 31:4 zero (spec/10_state.md R36). -/
def State.statusWord (s : State) : Word32 := (0 : BitVec 28) ++ s.errCode.code ++ s.status.code

/-- The line `done`: high exactly in DONE and ERROR (spec/60_exceptions.md R268). -/
def State.doneLine (s : State) : Bool := s.status == .done || s.status == .error

/-- Whether a decode is in progress (spec/10_state.md R24). -/
def State.isBusy (s : State) : Bool := s.status == .busy

end Sys2Proof.Machine
end

