-- ==== Sys2Proof/WellFormed.lean ====
section
/-! DEFINITION. Which instructions have an encoding: the operand ranges of spec/30_encoding.md R104 that the operand
types do not already say. -/

namespace Sys2Proof

/-- A DIFF delta is in -2..1 (spec/30_encoding.md R95). -/
def diffDelta (d : Int) : Bool := decide (-2 ≤ d) && decide (d ≤ 1)

/-- A LUMA green delta is in -32..31 (spec/30_encoding.md R95). -/
def lumaGreenDelta (d : Int) : Bool := decide (-32 ≤ d) && decide (d ≤ 31)

/-- A LUMA red-minus-green or blue-minus-green delta is in -8..7 (spec/30_encoding.md R95). -/
def lumaRelativeDelta (d : Int) : Bool := decide (-8 ≤ d) && decide (d ≤ 7)

/-- A run length is in 1..62 (spec/30_encoding.md R98). -/
def runLength (n : Nat) : Bool := decide (1 ≤ n) && decide (n ≤ 62)

/-- The instructions the stream can encode. -/
def Instr.wf : Instr → Bool
  | .rgb _ _ _ => true
  | .rgba _ _ _ _ => true
  | .index _ => true
  | .diff dr dg db => diffDelta dr && diffDelta dg && diffDelta db
  | .luma dg drdg dbdg => lumaGreenDelta dg && lumaRelativeDelta drdg && lumaRelativeDelta dbdg
  | .run n => runLength n

end Sys2Proof
end

