-- ==== Sys2Proof/Decode.lean ====
section
/-! DEFINITION. From bytes to an instruction and back (spec/30_encoding.md). Decoding is total on any list of bytes:
every control byte is legal (R101), so the only rejections are the two ways bytes can be missing. -/

namespace Sys2Proof

/-- `v[hi:lo]` read as an unsigned number (spec/00_scope.md R7). -/
def bits (v : Byte) (hi lo : Nat) : Nat := v.toNat / 2 ^ lo % 2 ^ (hi + 1 - lo)

/-- The opcode that a control byte selects, in the priority order of spec/30_encoding.md R93. -/
def classify (c : Byte) : Opcode :=
  if c = 0xFE then .rgb
  else if c = 0xFF then .rgba
  else if bits c 7 6 = 0 then .index
  else if bits c 7 6 = 1 then .diff
  else if bits c 7 6 = 2 then .luma
  else .run

/-- Length in bytes of an opcode (spec/30_encoding.md R94, R100). -/
def Opcode.length : Opcode → Nat
  | .rgb => 4
  | .rgba => 5
  | .index => 1
  | .diff => 1
  | .luma => 2
  | .run => 1

/-- `oplen(c)`: the length that a control byte fixes (spec/30_encoding.md R100). -/
def oplen (c : Byte) : Nat := (classify c).length

/-- A field of unsigned value `f` with bias `bias` is the integer `f - bias` (spec/30_encoding.md R95). -/
def biased (f bias : Nat) : Int := (f : Int) - (bias : Int)

/-- The slot number of an INDEX control byte, `c[5:0]` (spec/30_encoding.md R97). -/
def indexField (c : Byte) : Fin 64 := ⟨bits c 5 0, by unfold bits; omega⟩

/-- Why bytes are no instruction. -/
inductive DecodeReject where
  /-- No byte is left where a control byte must stand (spec/41_opcode_dispatch.md R144). -/
  | noControlByte
  /-- The control byte selects `op`, and fewer than its length in bytes are left (spec/41_opcode_dispatch.md R146). -/
  | operandsMissing (op : Opcode)
  deriving DecidableEq, Repr

/-- What decoding answers: an instruction and the bytes after it, or a rejection by name. -/
inductive Decoded where
  | instr (i : Instr) (rest : List Byte)
  | reject (why : DecodeReject)
  deriving DecidableEq, Repr

/-- The instruction of opcode `op` with control byte `c`, its operands in the bytes that follow
(spec/30_encoding.md R94 to R99). -/
def decodeOperands (op : Opcode) (c : Byte) (rest : List Byte) : Decoded :=
  match op, rest with
  | .rgb, d :: e :: f :: rest => .instr (.rgb d e f) rest
  | .rgb, _ => .reject (.operandsMissing .rgb)
  | .rgba, d :: e :: f :: h :: rest => .instr (.rgba d e f h) rest
  | .rgba, _ => .reject (.operandsMissing .rgba)
  | .index, rest => .instr (.index (indexField c)) rest
  | .diff, rest =>
    .instr (.diff (biased (bits c 5 4) 2) (biased (bits c 3 2) 2) (biased (bits c 1 0) 2)) rest
  | .luma, d :: rest =>
    .instr (.luma (biased (bits c 5 0) 32) (biased (bits d 7 4) 8) (biased (bits d 3 0) 8)) rest
  | .luma, [] => .reject (.operandsMissing .luma)
  | .run, rest => .instr (.run (bits c 5 0 + 1)) rest

/-- The instruction at the head of `bytes`: the control byte selects the opcode (spec/30_encoding.md R93). -/
def decode : List Byte → Decoded
  | [] => .reject .noControlByte
  | c :: rest => decodeOperands (classify c) c rest

/-- The byte of value `z` (spec/30_encoding.md R104; `z` is in 0..255 for a well-formed instruction). -/
def byteOf (z : Int) : Byte := BitVec.ofInt 8 z

/-- The bytes of an instruction (spec/30_encoding.md R104, the column "bytes emitted"). -/
def encode : Instr → List Byte
  | .rgb r g b => [0xFE, r, g, b]
  | .rgba r g b a => [0xFF, r, g, b, a]
  | .index i => [byteOf i.val]
  | .diff dr dg db => [byteOf (0x40 + (dr + 2) * 16 + (dg + 2) * 4 + (db + 2))]
  | .luma dg drdg dbdg => [byteOf (0x80 + (dg + 32)), byteOf ((drdg + 8) * 16 + (dbdg + 8))]
  | .run n => [byteOf (0xC0 + ((n : Int) - 1))]

/-- The longest opcode is RGBA, 5 bytes (spec/30_encoding.md R100). -/
def maxLength : Nat := 5

/-- The bytes of an opcode-table word of `nbits` bits, first byte first: bit 0 is the least significant bit of the
first byte, the second byte is bits 15..8, and so on; every bit from `nbits` up is 0. -/
def tableBytes (nbits w : Nat) : List Byte :=
  (List.range maxLength).map fun k => BitVec.ofNat 8 (w % 2 ^ nbits / 2 ^ (8 * k))

/-- The instruction that `decode` reads from an opcode-table word. -/
def decodeTableWord (nbits w : Nat) : Option Instr :=
  match decode (tableBytes nbits w) with
  | .instr i _ => some i
  | .reject _ => none

/-- One row of the opcode table: an opcode, and the control bytes it matches (spec/opcode_table.json). -/
structure OpcodeRow where
  opcode : Opcode
  mask : Byte
  pattern : Byte
  excludes : List Byte
  deriving DecidableEq, Repr

/-- The opcode table, in priority order (spec/opcode_table.json). -/
def opcodeTable : List OpcodeRow :=
  [⟨.rgb, 0xFF, 0xFE, []⟩, ⟨.rgba, 0xFF, 0xFF, []⟩, ⟨.index, 0xC0, 0x00, []⟩, ⟨.diff, 0xC0, 0x40, []⟩,
   ⟨.luma, 0xC0, 0x80, []⟩, ⟨.run, 0xC0, 0xC0, [0xFE, 0xFF]⟩]

/-- A row matches a control byte when the masked bits are the pattern and the byte is not excluded. -/
def OpcodeRow.matches (row : OpcodeRow) (c : Byte) : Bool :=
  (c &&& row.mask == row.pattern) && !row.excludes.contains c

end Sys2Proof
end

