-- ==== Sys2Proof/Machine/Operands.lean ====
section
/-! DEFINITION. The operand forms and the component arithmetic of the opcodes (spec/30_encoding.md R95-R99,
spec/44_delta_ops.md R190-R192) and the hash (spec/46_color_cache.md R220). -/

namespace Sys2Proof

/-- How many pixels an opcode yields: `n` for RUN n, else one (spec/41_opcode_dispatch.md R150,
spec/45_run_op.md R200). -/
def Instr.pixels : Instr → Nat
  | .rgb _ _ _ => 1
  | .rgba _ _ _ _ => 1
  | .index _ => 1
  | .diff _ _ _ => 1
  | .luma _ _ _ => 1
  | .run n => n

end Sys2Proof

namespace Sys2Proof.Machine

/-- `a +8 b`: exact integer addition, reduced modulo 256 (spec/00_scope.md R8). -/
def add8 (a : Byte) (b : Int) : Byte := BitVec.ofInt 8 ((a.toNat : Int) + b)

/-- The sum that the hash reduces, on the raw byte values (spec/46_color_cache.md R220). -/
def hashSum (p : Pixel) : Nat := 3 * p.r.toNat + 5 * p.g.toNat + 7 * p.b.toNat + 11 * p.a.toNat

/-- `hash(p)`: the cache slot of a pixel (spec/46_color_cache.md R220). -/
def hashSlot (p : Pixel) : Fin 64 := ⟨hashSum p % 64, Nat.mod_lt _ (by decide)⟩

/-- The pixel of an RGB: literal colour, the previous alpha (spec/42_literal_ops.md R170). -/
def rgbPixel (prev : Pixel) (r g b : Byte) : Pixel := ⟨r, g, b, prev.a⟩

/-- The pixel of an RGBA: fully literal (spec/42_literal_ops.md R171). -/
def rgbaPixel (r g b a : Byte) : Pixel := ⟨r, g, b, a⟩

/-- The pixel of a DIFF (spec/44_delta_ops.md R190). -/
def diffPixel (prev : Pixel) (dr dg db : Int) : Pixel :=
  ⟨add8 prev.r dr, add8 prev.g dg, add8 prev.b db, prev.a⟩

/-- The pixel of a LUMA: red and blue change relative to green (spec/44_delta_ops.md R191). -/
def lumaPixel (prev : Pixel) (dg drdg dbdg : Int) : Pixel :=
  ⟨add8 prev.r (dg + drdg), add8 prev.g dg, add8 prev.b (dg + dbdg), prev.a⟩

/-- `be32`: the big-endian value of four bytes (spec/00_scope.md R10). -/
def be32 (b0 b1 b2 b3 : Byte) : Word32 :=
  BitVec.ofNat 32 (b0.toNat * 2 ^ 24 + b1.toNat * 2 ^ 16 + b2.toNat * 2 ^ 8 + b3.toNat)

/-- The four bytes of a 32-bit value, most significant first: the inverse of `be32` (spec/20_memory.md R65). -/
def be32Bytes (v : Word32) : List Byte :=
  [BitVec.ofNat 8 (v.toNat / 2 ^ 24), BitVec.ofNat 8 (v.toNat / 2 ^ 16), BitVec.ofNat 8 (v.toNat / 2 ^ 8),
   BitVec.ofNat 8 v.toNat]

/-- `zext_64(w) * zext_64(h)`: the pixel count of an image, exact (spec/40_header_parser.md R125). -/
def pixelTotal (w h : Word32) : Word64 := w.setWidth 64 * h.setWidth 64

/-- The end marker (spec/30_encoding.md R92). -/
def endMarker : List Byte := [0, 0, 0, 0, 0, 0, 0, 1]

/-- How many bytes the header has (spec/00_scope.md R6). -/
def headerBytes : Nat := 14

end Sys2Proof.Machine
end

