-- ==== Sys2Proof/Machine/Ops.lean ====
section
/-! DEFINITION. The named operations over memory and state that every step is written from: byte memories, the reads
of `IN`, `append`, `commit`, the cache, `raise` (the block's exception entry) and START. -/

namespace Sys2Proof.Machine

/-! ## Byte memories -/

/-- What an unlisted offset of `IN` or `OUT` reads as.
DESIGN CHOICE (notes/assumptions/4, unsafe): the spec gives neither memory a content after power-on. -/
def unlisted : Byte := 0

/-- The canonical form: offsets strictly rising, no entry equal to `unlisted`. -/
def Memory.wf : Memory → Bool
  | [] => true
  | (k, v) :: m => v != unlisted && m.all (fun c => decide (k < c.1)) && Memory.wf m

/-- The byte at offset `a`. -/
def Memory.read : Memory → Nat → Byte
  | [], _ => unlisted
  | (k, v) :: m, a => if a = k then v else Memory.read m a

/-- Put byte `b` at offset `a`, keeping the canonical form. -/
def Memory.write : Memory → Nat → Byte → Memory
  | [], a, b => if b = unlisted then [] else [(a, b)]
  | (k, v) :: m, a, b =>
    if a < k then (if b = unlisted then (k, v) :: m else (a, b) :: (k, v) :: m)
    else if a = k then (if b = unlisted then m else (a, b) :: m)
    else (k, v) :: Memory.write m a b

/-- `MemRead(_, a, n)`: the `n` bytes from offset `a`, first byte first (spec/00_scope.md R10). -/
def Memory.readBytes (m : Memory) (a : Nat) : Nat → List Byte
  | 0 => []
  | n + 1 => Memory.read m a :: Memory.readBytes m (a + 1) n

/-- `MemWrite(_, a, n, bytes)`: the bytes at offsets `a, a+1, …` (spec/00_scope.md R10). -/
def Memory.writeBytes (m : Memory) (a : Nat) : List Byte → Memory
  | [] => m
  | b :: bs => Memory.writeBytes (Memory.write m a b) (a + 1) bs

/-- What `m` lists at the `size` offsets from `base`, with offset `base` as offset 0: the part of a platform's memory that
an instance reaches (spec/20_memory.md R60). -/
def Memory.window (m : Memory) (base size : Nat) : Memory :=
  (m.filter fun c => decide (base ≤ c.1) && decide (c.1 < base + size)).map fun c => (c.1 - base, c.2)

/-- `m` with the `size` offsets from `base` holding what `w` lists from offset 0. -/
def Memory.putWindow (m : Memory) (base size : Nat) (w : Memory) : Memory :=
  (m.filter fun c => decide (c.1 < base)) ++ w.map (fun c => (base + c.1, c.2)) ++
    m.filter fun c => decide (base + size ≤ c.1)

/-! ## The input -/

/-- `IN_LEN - IN_POS`: how many bytes are left. `IN_POS <= IN_LEN` during a decode (spec/10_state.md R30).
DESIGN CHOICE (notes/assumptions/14): 0 where `IN_POS` is above `IN_LEN`, which no decode reaches. -/
def State.avail (s : State) : Nat := s.inLen.toNat - s.inPos.toNat

/-- `IN[k]` (spec/00_scope.md R10). -/
def State.inByte (s : State) (k : Nat) : Byte := Memory.read s.input k

/-- `MemRead(IN, a, n)` (spec/00_scope.md R10). -/
def State.inBytes (s : State) (a n : Nat) : List Byte := Memory.readBytes s.input a n

/-- `IN_POS <- IN_POS + n` (spec/41_opcode_dispatch.md R148). -/
def State.advance (s : State) (n : Nat) : State := { s with inPos := s.inPos + BitVec.ofNat 64 n }

/-! ## Errors and START -/

/-- `raise E(pos)`: the block's one exception entry (spec/60_exceptions.md R264, R269). It saves the error and its
position and stops the decode; it changes nothing else, and control goes to no vector. -/
def State.raise (s : State) (e : ErrCode) (pos : Word64) : State :=
  { s with status := .error, errCode := e, errPos := pos }

/-- What an accepted START leaves: a fresh decode (spec/41_opcode_dispatch.md R141, spec/10_state.md R42). `IN_LEN`,
`IN` and `OUT` stay. -/
def State.fresh (s : State) : State :=
  { s with
    status := .busy, phase := .hdr, errCode := .noError, errPos := 0, inPos := 0, pixCount := 0, pixTotal := 0,
    runRemain := 0, width := 0, height := 0, channels := 0, colorspace := 0, prev := Pixel.start,
    cache := emptyCache }

/-- START: ignored while BUSY, else a fresh decode (spec/41_opcode_dispatch.md R141). There is no other way on from
an error (spec/60_exceptions.md R270). -/
def State.start (s : State) : State := if s.isBusy then s else s.fresh

/-- Reset asserted at a running machine (spec/10_state.md R42, spec/70_reset_and_hazards.md R290, R291): `PREV` and
`CACHE` are free draws, `IN` and `OUT` stay. -/
def State.assertReset (s : State) : State :=
  { s with
    status := .idle, errCode := .noError, errPos := 0, phase := .hdr, runRemain := 0, inPos := 0, inLen := 0,
    width := 0, height := 0, channels := 0, colorspace := 0, pixTotal := 0, pixCount := 0,
    prev := Config.unspecifiedPixel s.draws 64,
    cache := Vector.ofFn fun i => Config.unspecifiedPixel s.draws i.val,
    draws := s.draws + 1 }

/-! ## The color cache -/

/-- `get(i)`: `CACHE[i]` (spec/46_color_cache.md R221). -/
def State.slot (s : State) (i : Fin 64) : Pixel := s.cache[i.val]'i.isLt

/-- `put(p)`: `CACHE[hash(p)] <- p`, whatever the slot held (spec/46_color_cache.md R222). -/
def State.put (s : State) (p : Pixel) : State := { s with cache := s.cache.set (hashSlot p).val p (hashSlot p).isLt }

/-! ## The output -/

/-- The offset in `OUT` of the next pixel (spec/20_memory.md R63). -/
def State.outAddr (s : State) : Nat := 4 * s.pixCount.toNat

/-- Whether one more pixel fits in `OUT` (spec/20_memory.md R69). -/
def State.outFits (s : State) : Bool := decide (s.outAddr + 4 ≤ s.cfg.outCap)

/-- The state after `append(p)` where the pixel fits (spec/48_pixel_accumulator.md R250). -/
def State.appended (s : State) (p : Pixel) : State :=
  { s with output := Memory.writeBytes s.output s.outAddr p.bytes, pixCount := s.pixCount + 1 }

/-- `append(p)`, then `rest` (spec/48_pixel_accumulator.md R250): the model fault where the pixel does not fit. -/
def State.append (s : State) (p : Pixel) (rest : State → State) : Outcome :=
  if s.outFits then .next (rest (s.appended p)) else .fault .outputOverflow

/-- What a commit does after its append: `CACHE[hash(p)] <- p`, `PREV <- p`, `IN_POS <- IN_POS + n`
(spec/41_opcode_dispatch.md R148, R150). -/
def State.remember (s : State) (p : Pixel) (n : Nat) : State := State.advance { s.put p with prev := p } n

/-- `commit(p)` and `IN_POS <- IN_POS + n`: what the five non-RUN opcodes share (spec/41_opcode_dispatch.md R148,
R150). -/
def State.commit (s : State) (p : Pixel) (n : Nat) : Outcome := s.append p fun t => t.remember p n

/-- The truncation check of an opcode of `n` bytes, made before any read or write (spec/41_opcode_dispatch.md R146,
R147). -/
def State.needBytes (s : State) (n : Nat) (body : Outcome) : Outcome :=
  if s.avail < n then .next (s.raise .truncatedInput s.inPos) else body

end Sys2Proof.Machine
end

