-- ==== Sys2Proof/Machine/Delta.lean ====
section
/-! DEFINITION. The delta opcodes DIFF and LUMA (spec/44_delta_ops.md). -/

namespace Sys2Proof.Machine

/-- DIFF: small per-channel deltas on `PREV` (spec/44_delta_ops.md R190). -/
def execDiff (dr dg db : Int) (s : State) : Outcome := s.commit (diffPixel s.prev dr dg db) 1

/-- LUMA: a green delta, and red and blue deltas relative to it (spec/44_delta_ops.md R191). -/
def execLuma (dg drdg dbdg : Int) (s : State) : Outcome :=
  s.needBytes 2 (s.commit (lumaPixel s.prev dg drdg dbdg) 2)

end Sys2Proof.Machine
end

