-- ==== Sys2Proof/Machine/Index.lean ====
section
/-! DEFINITION. The cache-index opcode INDEX (spec/43_index_op.md). -/

namespace Sys2Proof.Machine

/-- INDEX: the pixel that slot `i` holds, read before the put of `commit` (spec/43_index_op.md R180,
spec/46_color_cache.md R226). -/
def execIndex (i : Fin 64) (s : State) : Outcome := s.commit (s.slot i) 1

end Sys2Proof.Machine
end

