-- ==== Sys2Proof/Machine/Literal.lean ====
section
/-! DEFINITION. The literal pixel opcodes RGB and RGBA (spec/42_literal_ops.md). -/

namespace Sys2Proof.Machine

/-- RGB: a literal colour that keeps the previous alpha (spec/42_literal_ops.md R170). -/
def execRgb (r g b : Byte) (s : State) : Outcome := s.needBytes 4 (s.commit (rgbPixel s.prev r g b) 4)

/-- RGBA: a fully literal pixel; `PREV` is not read (spec/42_literal_ops.md R171). -/
def execRgba (r g b a : Byte) (s : State) : Outcome := s.needBytes 5 (s.commit (rgbaPixel r g b a) 5)

end Sys2Proof.Machine
end

