-- ==== Sys2Proof/Machine/Run.lean ====
section
/-! DEFINITION. The run-length opcode RUN: its dispatch step and its emission step (spec/45_run_op.md). -/

namespace Sys2Proof.Machine

/-- RUN, the dispatch step (spec/45_run_op.md R200). `PREV`, `CACHE` and `OUT` stay (R204). -/
def execRun (n : Nat) (s : State) : Outcome :=
  .next (State.advance { s with runRemain := BitVec.ofNat 6 n, phase := .runEmit } 1)

/-- What a run emission does after its append: count down, and end the run when it or the image is complete
(spec/45_run_op.md R201, R202). -/
def State.countRun (s : State) : State :=
  if s.runRemain - 1 = 0 ∨ s.pixCount = s.pixTotal then { s with runRemain := 0, phase := .ops }
  else { s with runRemain := s.runRemain - 1 }

/-- One run emission: append `PREV` (spec/45_run_op.md R201). -/
def runEmitStep (s : State) : Outcome := s.append s.prev State.countRun

end Sys2Proof.Machine
end

