-- ==== Sys2Proof/Machine/EndMarker.lean ====
section
/-! DEFINITION. The end-marker step (spec/47_end_marker.md). -/

namespace Sys2Proof.Machine

/-- The END step: the rest of the input must be exactly the 8 bytes of the marker (spec/47_end_marker.md R240). -/
def endStep (s : State) : State :=
  if s.avail ≠ 8 then s.raise .invalidEndMarker s.inPos
  else if s.inBytes s.inPos.toNat 8 ≠ endMarker then s.raise .invalidEndMarker s.inPos
  else { s with inPos := s.inLen, status := .done }

end Sys2Proof.Machine
end

