-- ==== Sys2Proof/Machine/Header.lean ====
section
/-! DEFINITION. The header step (spec/40_header_parser.md). -/

namespace Sys2Proof.Machine

/-- What the header step writes once every check has passed (spec/40_header_parser.md R120, R126). -/
def State.acceptHeader (s : State) : State :=
  let w := be32 (s.inByte 4) (s.inByte 5) (s.inByte 6) (s.inByte 7)
  let h := be32 (s.inByte 8) (s.inByte 9) (s.inByte 10) (s.inByte 11)
  { s with
    width := w, height := h, channels := s.inByte 12, colorspace := s.inByte 13, pixTotal := pixelTotal w h,
    inPos := BitVec.ofNat 64 headerBytes, phase := .ops }

/-- The header step: each field is checked for presence just before it is read, and the magic is compared right after
it is read (spec/40_header_parser.md R120, R122, R123). -/
def headerStep (s : State) : State :=
  if s.inLen.toNat < 4 then s.raise .truncatedInput 0
  else if s.inBytes 0 4 ≠ s.cfg.magic.toList then s.raise .magicMismatch 0
  else if s.inLen.toNat < 8 then s.raise .truncatedInput 4
  else if s.inLen.toNat < 12 then s.raise .truncatedInput 8
  else if s.inLen.toNat < 13 then s.raise .truncatedInput 12
  else if s.inLen.toNat < 14 then s.raise .truncatedInput 13
  else s.acceptHeader

end Sys2Proof.Machine
end

