-- ==== Sys2Proof/Machine/HostPort.lean ====
section
/-! DEFINITION. The host's side of the block: the register file by number (spec/10_state.md R35-R38), and the host's
moves (spec/41_opcode_dispatch.md R140, R141; spec/70_reset_and_hazards.md R290-R293). -/

namespace Sys2Proof.Machine

/-- What a read of register `n` returns, zero-extended to 64 bits (spec/10_state.md R37). No read has a side effect
(R38). -/
def State.regRead (s : State) (n : Nat) : Word64 :=
  match n with
  | 0 => 0
  | 1 => s.statusWord.setWidth 64
  | 2 => s.inLen
  | 3 => s.inPos
  | 4 => s.width.setWidth 64
  | 5 => s.height.setWidth 64
  | 6 => s.channels.setWidth 64
  | 7 => s.colorspace.setWidth 64
  | 8 => s.pixTotal
  | 9 => s.pixCount
  | 10 => s.errPos
  | _ => 0

/-- What a write of `v` to register `n` does (spec/10_state.md R35, R37, R38): START for `CTRL` with bit 0 set, a new
`IN_LEN` outside BUSY, and nothing otherwise. -/
def State.regWrite (s : State) (n : Nat) (v : Word64) : State :=
  match n with
  | 0 => if v[0] then s.start else s
  | 2 => if s.isBusy then s else { s with inLen := v }
  | _ => s

/-- A host read of a byte of `OUT` that a BUSY block may be writing: any value (spec/20_memory.md R72). The count of draws
tells one such value from another; that the instances of a platform count their draws together, so that no two of
their values are one, is the model's choice (DESIGN CHOICE, notes/assumptions/18, safe). -/
def State.racingRead (s : State) : State :=
  { s with readData := (Config.racingByte s.draws).setWidth 64, draws := s.draws + 1 }

/-- A host read of a byte of `OUT` (spec/20_memory.md R72): the byte there, or any value while BUSY.
DESIGN CHOICE (notes/assumptions/10, safe): an offset of `OUT_CAP` or above faults. -/
def State.hostReadOut (s : State) (offset : Nat) : Outcome :=
  if s.cfg.outCap ≤ offset then .fault .outOffsetAbsent
  else if s.isBusy then .next s.racingRead
  else .next { s with readData := (Memory.read s.output offset).setWidth 64 }

/-- A host write of a byte of `OUT`; the host has no such move while BUSY (spec/70_reset_and_hazards.md R293).
DESIGN CHOICE (notes/assumptions/10, safe): an offset of `OUT_CAP` or above faults; while BUSY, where the spec is silent on
such an offset, the refusal comes first, at every offset. -/
def State.hostWriteOut (s : State) (offset : Nat) (b : Byte) : Outcome :=
  if s.isBusy then .refused .hostWriteWhileBusy
  else if s.cfg.outCap ≤ offset then .fault .outOffsetAbsent
  else .next { s with output := Memory.write s.output offset b }

/-- A host write of a byte of `IN`; the host has no such move while BUSY (spec/20_memory.md R74).
DESIGN CHOICE (notes/assumptions/26): the offset may be any of 64 bits, also `IN_LEN` or above, since the host places the
input before it writes `IN_LEN` (spec/70_reset_and_hazards.md R292); and while BUSY the refusal comes at every offset, also
at `IN_LEN` or above, where `IN` has no byte (spec/20_memory.md R60) and the spec is silent. -/
def State.hostWriteIn (s : State) (offset : Word64) (b : Byte) : Outcome :=
  if s.isBusy then .refused .hostWriteWhileBusy
  else .next { s with input := Memory.write s.input offset.toNat b }

/-- A host read of a byte of `IN`.
DESIGN CHOICE (notes/assumptions/26, unsafe): `IN` has the offsets 0 to `IN_LEN - 1` (spec/20_memory.md R60), and the spec
does not say what a host read at `IN_LEN` or above returns; it returns the byte that stands there, as below `IN_LEN`. -/
def State.hostReadIn (s : State) (offset : Word64) : Outcome :=
  .next { s with readData := (s.inByte offset.toNat).setWidth 64 }

/-- One move of the host; `block` is what the block does where the host makes no move. -/
def hostMove (m : HostMove) (block : State → Outcome) (s : State) : Outcome :=
  match m with
  | .noMove => block s
  | .readReg n => .next { s with readData := s.regRead n }
  | .writeReg n v => .next (s.regWrite n v)
  | .writeIn offset b => s.hostWriteIn offset b
  | .readIn offset => s.hostReadIn offset
  | .writeOut offset b => s.hostWriteOut offset b
  | .readOut offset => s.hostReadOut offset
  | .reset => .next s.assertReset

end Sys2Proof.Machine
end

