-- ==== Sys2Proof/Machine/Fsm.lean ====
section
/-! DEFINITION. The state machine that sequences every step (spec/41_opcode_dispatch.md R140, R143, R144). -/

namespace Sys2Proof.Machine

/-- The bytes that a dispatch can see: from `IN_POS` on, never past `IN_LEN`, at most the longest opcode
(spec/20_memory.md R61, spec/30_encoding.md R100). -/
def State.window (s : State) : List Byte := s.inBytes s.inPos.toNat (min s.avail maxLength)

/-- Dispatch of one opcode (spec/41_opcode_dispatch.md R144). Where its bytes are not all there the step raises
`TruncatedInput` at the control byte, with no other effect (R146, R147). -/
def dispatch (s : State) : Outcome :=
  match decode s.window with
  | .instr i _ => exec i s
  | .reject _ => .next (s.raise .truncatedInput s.inPos)

/-- The loop check, then dispatch (spec/41_opcode_dispatch.md R143). -/
def opsStep (s : State) : Outcome :=
  if s.pixCount = s.pixTotal then .next { s with phase := .endMarker } else dispatch s

/-- The one internal step that is enabled (spec/41_opcode_dispatch.md R140). In IDLE, DONE and ERROR none is: the
block waits with all state kept (spec/60_exceptions.md R285). -/
def blockStep (s : State) : Outcome :=
  match s.status with
  | .busy =>
    match s.phase with
    | .hdr => .next (headerStep s)
    | .ops => opsStep s
    | .runEmit => runEmitStep s
    | .endMarker => .next (endStep s)
  | .idle => .next s
  | .done => .next s
  | .error => .next s

/-- One step of the machine: the host's next move, or where it has none pending the block's internal step. -/
def fsmStep (s : State) : Outcome :=
  match s.hostMoves with
  | [] => blockStep s
  | m :: ms => hostMove m blockStep { s with hostMoves := ms }

/-- `s` made to dispatch next, with `bytes` at `IN_POS`: a decode in progress in the opcode loop, no host move
pending, an input that holds the bytes, and one more pixel due. It keeps `IN_POS`, `IN_LEN`, `PIX_COUNT` and
`PIX_TOTAL` wherever they already allow that. -/
def State.readyToDispatch (s : State) (bytes : List Byte) : State :=
  let pos : Word64 := if s.inPos.toNat + bytes.length < 2 ^ 64 then s.inPos else 0
  let need := pos.toNat + bytes.length
  let count : Word64 := if s.pixCount.toNat + 1 < 2 ^ 64 then s.pixCount else 0
  { s with
    status := .busy, phase := .ops, hostMoves := [], inPos := pos,
    inLen := if s.inLen.toNat < need then BitVec.ofNat 64 need else s.inLen,
    pixCount := count, pixTotal := if count.toNat < s.pixTotal.toNat then s.pixTotal else count + 1,
    input := Memory.writeBytes s.input pos.toNat bytes }

end Sys2Proof.Machine
end

