-- ==== Sys2Proof/Machine/Step.lean ====
section
/-! DEFINITION. One step of the machine (spec/41_opcode_dispatch.md R140), and an instruction word placed where the
next step fetches. -/

namespace Sys2Proof.Machine

/-- One step: a move of the host, or one internal step of the block. -/
def step (s : State) : Host.Outcome State Fault Refusal := fsmStep s

/-- `s` with the opcode-table word `w` of `nbits` bits stored at `IN_POS`, and the opcode loop about to dispatch it
(notes/assumptions/11). -/
def State.withFetchWord (s : State) (nbits w : Nat) : State := s.readyToDispatch (tableBytes nbits w)

end Sys2Proof.Machine
end

