-- ==== Sys2Proof/Machine/Asm.lean ====
section
/-! DEFINITION. The assembly lines of the spec's programs, the bytes they emit, and the disassembler
(spec/30_encoding.md R104, R105). The syntax is notation only; the machine does not use it. -/

namespace Sys2Proof.Machine

/-- One line of an assembly program (spec/30_encoding.md R104). -/
inductive AsmLine where
  /-- An opcode with its operands. -/
  | op (i : Instr)
  /-- `.header w, h, ch, cs`. -/
  | header (w h : Word32) (channels colorspace : Byte)
  /-- `.badmagic m0, m1, m2, m3`. -/
  | badMagic (m0 m1 m2 m3 : Byte)
  /-- `.end`. -/
  | endMarker
  /-- `.byte b0, b1, …`. -/
  | bytes (bs : List Byte)
  deriving DecidableEq, Repr

/-- The bytes of a line; an opcode with an operand outside its range is refused (spec/30_encoding.md R104). -/
def AsmLine.emit (cfg : Config) : AsmLine → Option (List Byte)
  | .op i => if i.wf then some (encode i) else none
  | .header w h channels colorspace =>
    some (cfg.magic.toList ++ be32Bytes w ++ be32Bytes h ++ [channels, colorspace])
  | .badMagic m0 m1 m2 m3 => some [m0, m1, m2, m3]
  | .endMarker => some Sys2Proof.Machine.endMarker
  | .bytes bs => some bs

/-- The bytes of a program, line after line; refused where one line is. -/
def assemble (cfg : Config) : List AsmLine → Option (List Byte)
  | [] => some []
  | line :: rest =>
    match line.emit cfg, assemble cfg rest with
    | some bs, some more => some (bs ++ more)
    | _, _ => none

/-- The lines after an image's last pixel: `.end` where exactly the marker is there, else `.byte`
(spec/30_encoding.md R105 allows either for the marker; DESIGN CHOICE, notes/assumptions/23, safe). -/
def disassembleTrailer (bs : List Byte) : List AsmLine :=
  if bs = Sys2Proof.Machine.endMarker then [.endMarker] else if bs = [] then [] else [.bytes bs]

/-- The lines of an opcode stream, for an image of which `pixels` pixels are still due. Total on any bytes: an opcode
shorter than its length becomes `.byte` (spec/30_encoding.md R105). `fuel` bounds the number of opcodes; the number of
bytes is enough. -/
def disassembleStream : (fuel pixels : Nat) → List Byte → List AsmLine
  | 0, _, bs => disassembleTrailer bs
  | _ + 1, 0, bs => disassembleTrailer bs
  | fuel + 1, pixels + 1, bs =>
    match decode bs with
    | .instr i rest => .op i :: disassembleStream fuel (pixels + 1 - i.pixels) rest
    | .reject _ => if bs = [] then [] else [.bytes bs]

end Sys2Proof.Machine
end

