-- ==== Sys2Proof/Machine/Platform.lean ====
section
/-! DEFINITION. A platform with several instances of the block (spec/60_exceptions.md R283): one memory that their `IN`
regions lie in, one that their `OUT` regions lie in, and the platform addresses of an instance's spaces and registers
(spec/10_state.md R37, spec/20_memory.md R60). -/

namespace Sys2Proof.Machine

/-! ## Addresses

DESIGN CHOICE (notes/assumptions/29, unsafe): the spec leaves the type of a platform address open
(spec/92_eei_decisions.md D2, D3, D4); here it is a natural number without bound, so base plus offset never wraps. -/

/-- The platform address of offset `k` of `IN` (spec/20_memory.md R60): base plus offset, without bound or wrap
(DESIGN CHOICE, notes/assumptions/29). -/
def State.inAddress (s : State) (k : Nat) : Nat := s.cfg.inBase + k

/-- The platform address of offset `k` of `OUT` (spec/20_memory.md R60): base plus offset, without bound or wrap
(DESIGN CHOICE, notes/assumptions/29). -/
def State.outAddress (s : State) (k : Nat) : Nat := s.cfg.outBase + k

/-- The platform address of register `n` (spec/10_state.md R37); numbers 11 and above do not exist. -/
def State.regAddress (s : State) (n : Nat) : Option Nat := s.cfg.regAddr[n]?

/-- Whether platform address `a` holds a byte of the input, offsets 0 to `IN_LEN - 1` (spec/20_memory.md R60). -/
def State.inputHolds (s : State) (a : Nat) : Bool :=
  decide (s.cfg.inBase ≤ a) && decide (a < s.cfg.inBase + s.inLen.toNat)

/-- Whether platform address `a` lies in `OUT`, offsets 0 to `OUT_CAP - 1` (spec/20_memory.md R60). -/
def State.outputHolds (s : State) (a : Nat) : Bool :=
  decide (s.cfg.outBase ≤ a) && decide (a < s.cfg.outBase + s.cfg.outCap)

/-- Whether two instances' `OUT` regions have a platform address in common, which the host must not let happen where
both decode (spec/70_reset_and_hazards.md R293). -/
def State.outOverlap (s t : State) : Bool :=
  decide (max s.cfg.outBase t.cfg.outBase < min (s.cfg.outBase + s.cfg.outCap) (t.cfg.outBase + t.cfg.outCap))

/-- How many offsets of `IN` there are to name: an offset is 64 bits (spec/10_state.md R29, R31). -/
def inSpan : Nat := 2 ^ 64

/-! ## The platform -/

/-- `N_INSTANCES` blocks, each with its own copy of all the state of spec/10_state.md R20, and the memories they reach.
The instances may share an `IN` region, or a part of one (spec/60_exceptions.md R283).
DESIGN CHOICE (notes/assumptions/13): what two instances both reach is held once, here, so an instance's own `input` and
`output` list nothing between steps; `State.draws` is held here too (notes/assumptions/18). -/
structure Platform where
  /-- The blocks, without what they reach. -/
  instances : List State
  /-- The memory that the `IN` regions lie in, by platform address. -/
  input : Memory
  /-- The memory that the `OUT` regions lie in, by platform address. -/
  output : Memory
  /-- The model's own: how many free values all the instances together have drawn. -/
  draws : Nat
  deriving DecidableEq, Repr

/-- A block without what the platform holds for it. -/
def State.bare (s : State) : State := { s with input := [], output := [], draws := 0 }

/-- A platform has at least one instance (spec/00_scope.md R6, `N_INSTANCES`), its memories are in canonical form, and
nothing that it holds for its instances is held twice. -/
def Platform.wf (p : Platform) : Bool :=
  decide (1 ≤ p.instances.length) && Memory.wf p.input && Memory.wf p.output &&
    p.instances.all fun s => decide (s.bare = s)

/-- A platform right after reset, with one instance for each set of parameters. -/
def Platform.reset (cfgs : List Config) : Platform where
  instances := cfgs.map fun cfg => { State.reset with cfg := cfg }
  input := []
  output := []
  draws := 0

/-- An instance with what it reaches of the platform's memories. -/
def Platform.view (p : Platform) (s : State) : State :=
  { s with
    input := Memory.window p.input s.cfg.inBase inSpan
    output := Memory.window p.output s.cfg.outBase s.cfg.outCap
    draws := p.draws }

/-- Instance number `k`, with what it reaches. -/
def Platform.block (p : Platform) (k : Nat) : Option State := p.instances[k]?.map p.view

/-- The platform with `t` as its instance number `k`. -/
def Platform.store (p : Platform) (k : Nat) (t : State) : Platform where
  instances := p.instances.set k t.bare
  input := Memory.putWindow p.input t.cfg.inBase inSpan t.input
  output := Memory.putWindow p.output t.cfg.outBase t.cfg.outCap t.output
  draws := t.draws

/-- Whether the next move of the host at instance `s` writes a byte of the input or of the `OUT` of an instance that is
BUSY, for which the host has no move (spec/20_memory.md R74, spec/70_reset_and_hazards.md R293). An offset of `OUT` that
does not exist names no byte (notes/assumptions/10), and `IN` at another instance's `IN_LEN` or above is not its input
(notes/assumptions/26). -/
def Platform.writesUnderBusy (p : Platform) (s : State) : Bool :=
  match s.hostMoves with
  | .writeIn offset _ :: _ => p.instances.any fun u => u.isBusy && u.inputHolds (s.inAddress offset.toNat)
  | .writeOut offset _ :: _ =>
    decide (offset < s.cfg.outCap) && p.instances.any fun u => u.isBusy && u.outputHolds (s.outAddress offset)
  | _ => false

/-- Whether the next move of the host at instance `s` reads a byte of the `OUT` of an instance that is BUSY, its own or
another's that holds the same byte (spec/20_memory.md R72). -/
def Platform.readsUnderBusy (p : Platform) (s : State) : Bool :=
  match s.hostMoves with
  | .readOut offset :: _ =>
    decide (offset < s.cfg.outCap) && p.instances.any fun u => u.isBusy && u.outputHolds (s.outAddress offset)
  | _ => false

/-- What instance `s` of the platform does next: its own step, but that the host then reads any value where another
instance may be writing the byte (spec/20_memory.md R72). -/
def Platform.stepOf (p : Platform) (s : State) : Outcome :=
  if p.readsUnderBusy s then .next (State.racingRead { s with hostMoves := s.hostMoves.tail }) else step s

/-- Whether `t`, as instance number `k`, is BUSY and its `OUT` overlaps that of another instance that is BUSY: a host error
with no move (spec/70_reset_and_hazards.md R293, spec/92_eei_decisions.md D30). -/
def Platform.overlapsBusy (p : Platform) (k : Nat) (t : State) : Bool :=
  t.isBusy && (p.instances.eraseIdx k).any fun u => u.isBusy && t.outOverlap u

/-- One step of instance number `k`, none where there is none. A step that would leave two BUSY instances with overlapping
`OUT` regions, such as a START, is refused (DESIGN CHOICE, notes/assumptions/28).
DESIGN CHOICE (notes/assumptions/27, safe): where that instance stops with a fault or a refusal, the step of the platform
answers it, and the number `k` says whose it was; the answer holds no platform, so no later step is claimed of any
instance. -/
def Platform.stepAt (p : Platform) (k : Nat) : Host.Outcome Platform Fault Refusal :=
  match p.block k with
  | none => .next p
  | some s =>
    if p.writesUnderBusy s then .refused .hostWriteWhileBusy
    else
      match p.stepOf s with
      | .next t => if p.overlapsBusy k t then .refused .overlappingOut else .next (p.store k t)
      | .fault f => .fault f
      | .refused r => .refused r

end Sys2Proof.Machine
end

