-- ==== Sys2Proof/Safety.lean ====
section
/-! DEFINITION. What counts as a safe run, in the terms the statements use: runs of steps, the invariant of a decode,
the well-formed inputs (spec/30_encoding.md R90), the pixels they stand for, and when two decodes are the same. -/

namespace Sys2Proof.Machine

/-- `n` steps of the machine, stopping at the first fault or refusal. -/
def steps (n : Nat) (s : State) : Outcome := Host.Core.run Sys2Proof.core n s

/-- No host move is pending: the next step is the block's own. -/
def State.quiet (s : State) : Prop := s.hostMoves = []

/-- The block is about to check its loop and dispatch (spec/41_opcode_dispatch.md R143). -/
def State.inLoop (s : State) : Prop := s.hostMoves = [] ∧ s.status = .busy ∧ s.phase = .ops

/-- What holds of every state that a run from reset reaches. -/
structure State.Inv (s : State) : Prop where
  /-- `IN` is in canonical form. -/
  inputWf : Memory.wf s.input = true
  /-- `OUT` is in canonical form. -/
  outputWf : Memory.wf s.output = true
  /-- Nothing is listed outside `OUT` (spec/20_memory.md R60, R69). -/
  outputInside : ∀ c ∈ s.output, c.1 < s.cfg.outCap
  /-- `ERR_CODE` is non-zero exactly in ERROR (spec/10_state.md R25). -/
  errCode : s.errCode ≠ .noError ↔ s.status = .error
  /-- `ERR_POS` is 0 outside ERROR (spec/10_state.md R26). -/
  errPos : s.status ≠ .error → s.errPos = 0
  /-- `PIX_TOTAL` is the exact product (spec/10_state.md R33). -/
  pixTotal : s.pixTotal.toNat = s.width.toNat * s.height.toNat
  /-- `PIX_COUNT <= PIX_TOTAL` (spec/10_state.md R34). -/
  pixCount : s.pixCount.toNat ≤ s.pixTotal.toNat
  /-- `IN_POS <= IN_LEN` during a decode (spec/10_state.md R30). -/
  inPos : s.status = .busy → s.inPos.toNat ≤ s.inLen.toNat
  /-- The opcode stream starts at offset 14 (spec/40_header_parser.md R121). -/
  stream : s.status = .busy → s.phase ≠ .hdr → headerBytes ≤ s.inPos.toNat
  /-- `RUN_REMAIN` is in 0..62 (spec/10_state.md R28). -/
  runBound : s.runRemain.toNat ≤ 62
  /-- `RUN_REMAIN` is non-zero only in RUN_EMIT (spec/10_state.md R28). -/
  runRemain : s.runRemain ≠ 0 → s.phase = .runEmit
  /-- On entry of a run emission a pixel is left to append and to fit (spec/45_run_op.md R202). -/
  runEmit : s.status = .busy → s.phase = .runEmit → s.runRemain ≠ 0 ∧ s.pixCount.toNat < s.pixTotal.toNat
  /-- Before the header step everything is as START left it (spec/41_opcode_dispatch.md R141). -/
  fresh : s.status = .busy → s.phase = .hdr →
    s.inPos = 0 ∧ s.pixCount = 0 ∧ s.width = 0 ∧ s.height = 0 ∧ s.channels = 0 ∧ s.colorspace = 0 ∧
      s.prev = Pixel.start ∧ s.cache = emptyCache
  /-- The END step runs only with every pixel appended (spec/41_opcode_dispatch.md R143). -/
  ending : s.status = .busy → s.phase = .endMarker → s.pixCount = s.pixTotal
  /-- DONE means every pixel was appended (spec/47_end_marker.md R244). -/
  finished : s.status = .done → s.pixCount = s.pixTotal

/-- Every cache slot holds `(0,0,0,0)` or a pixel of its own hash, from START on (spec/46_color_cache.md R224). -/
def State.CacheHashed (s : State) : Prop :=
  s.status ≠ .idle → ∀ i : Fin 64, s.slot i = Pixel.zero ∨ hashSlot (s.slot i) = i

/-- During a decode `PREV` is the last pixel of `OUT`, or the default before the first (spec/48_pixel_accumulator.md
R254). -/
def State.PrevIsLast (s : State) : Prop :=
  s.status = .busy →
    (s.pixCount = 0 → s.prev = Pixel.start) ∧
    (s.pixCount ≠ 0 → Memory.readBytes s.output (4 * (s.pixCount.toNat - 1)) 4 = s.prev.bytes)

/-- No two instances of a platform that decode at the same time have overlapping `OUT` regions
(spec/70_reset_and_hazards.md R293, spec/60_exceptions.md R283). -/
def Platform.OutsApart (p : Platform) : Prop :=
  ∀ (j k : Nat) (u v : State), j ≠ k → p.instances[j]? = some u → p.instances[k]? = some v →
    u.status = .busy → v.status = .busy → u.outOverlap v = false

/-- `t` is `s` after the commit of pixel `p` by an opcode of `n` bytes (spec/41_opcode_dispatch.md R148, R150): the
three effects, the advance, and that nothing else changed. -/
structure Commits (s t : State) (p : Pixel) (n : Nat) : Prop where
  pixel : Memory.readBytes t.output s.outAddr 4 = [p.r, p.g, p.b, p.a]
  otherBytes : ∀ a, a < s.outAddr ∨ s.outAddr + 4 ≤ a → Memory.read t.output a = Memory.read s.output a
  pixCount : t.pixCount = s.pixCount + 1
  slot : t.slot (hashSlot p) = p
  otherSlots : ∀ i, i ≠ hashSlot p → t.slot i = s.slot i
  prev : t.prev = p
  inPos : t.inPos = s.inPos + BitVec.ofNat 64 n
  rest : t = { s with
    output := t.output, pixCount := t.pixCount, cache := t.cache, prev := t.prev, inPos := t.inPos }

/-- The number of pixels that a list of opcodes yields. -/
def pixelsOf (ops : List Instr) : Nat := (ops.map Instr.pixels).sum

/-- The bytes of an input: header, opcode stream, end marker (spec/30_encoding.md R90, R91). -/
def inputBytes (magic : Vector Byte 4) (w h : Word32) (channels colorspace : Byte) (ops : List Instr) : List Byte :=
  magic.toList ++ be32Bytes w ++ be32Bytes h ++ [channels, colorspace] ++ ops.flatMap encode ++ endMarker

/-- `ops` is a complete opcode stream for `total` pixels: its opcodes can be encoded, it yields at least `total`
pixels, and without its last opcode it would not (spec/30_encoding.md R90, conditions 3 and 4). -/
def CompleteStream (ops : List Instr) (total : Nat) : Prop :=
  (∀ i ∈ ops, i.wf = true) ∧ total ≤ pixelsOf ops ∧ ∀ front last, ops = front ++ [last] → pixelsOf front < total

/-- A well-formed input (spec/30_encoding.md R90). -/
def WellFormedInput (magic : Vector Byte 4) (bytes : List Byte) : Prop :=
  ∃ (w h : Word32) (channels colorspace : Byte) (ops : List Instr),
    bytes = inputBytes magic w h channels colorspace ops ∧ CompleteStream ops (w.toNat * h.toNat)

/-- The running state of the spec's decode loop: the previous pixel and the color cache (spec/10_state.md R21). -/
structure Running where
  prev : Pixel
  cache : Vector Pixel 64

/-- The running state at the start of a decode (spec/41_opcode_dispatch.md R141). -/
def Running.fresh : Running := ⟨Pixel.start, emptyCache⟩

/-- The pixel that an opcode yields (spec/42_literal_ops.md to spec/45_run_op.md). -/
def Running.pixel (r : Running) : Instr → Pixel
  | .rgb x y z => ⟨x, y, z, r.prev.a⟩
  | .rgba x y z w => ⟨x, y, z, w⟩
  | .index i => r.cache[i.val]'i.isLt
  | .diff dr dg db => ⟨add8 r.prev.r dr, add8 r.prev.g dg, add8 r.prev.b db, r.prev.a⟩
  | .luma dg drdg dbdg => ⟨add8 r.prev.r (dg + drdg), add8 r.prev.g dg, add8 r.prev.b (dg + dbdg), r.prev.a⟩
  | .run _ => r.prev

/-- Remember a pixel as the previous one and in its cache slot (spec/41_opcode_dispatch.md R150). -/
def Running.keep (r : Running) (p : Pixel) : Running := ⟨p, r.cache.set (hashSlot p).val p (hashSlot p).isLt⟩

/-- The running state after an opcode: RUN leaves it as it is, every other opcode commits its pixel
(spec/41_opcode_dispatch.md R150, spec/45_run_op.md R204). -/
def Running.after (r : Running) : Instr → Running
  | .run _ => r
  | .rgb x y z => r.keep (r.pixel (.rgb x y z))
  | .rgba x y z w => r.keep (r.pixel (.rgba x y z w))
  | .index i => r.keep (r.pixel (.index i))
  | .diff dr dg db => r.keep (r.pixel (.diff dr dg db))
  | .luma dg drdg dbdg => r.keep (r.pixel (.luma dg drdg dbdg))

/-- The pixels that an opcode stream stands for, in decode order (spec/48_pixel_accumulator.md R251): the spec's
decode loop as a function of the opcodes alone. -/
def imagePixels : Running → List Instr → List Pixel
  | _, [] => []
  | r, i :: ops => List.replicate i.pixels (r.pixel i) ++ imagePixels (r.after i) ops

/-- Two states of the same decode: the same magic and capacity, the same bytes below `IN_LEN`, everything the block
holds equal, and the pixels written so far equal. What lies beyond `IN_LEN`, the rest of `OUT`, the platform's addresses
and what the host has read may differ (spec/70_reset_and_hazards.md R295). -/
structure SameDecode (s t : State) : Prop where
  magic : t.cfg.magic = s.cfg.magic
  outCap : t.cfg.outCap = s.cfg.outCap
  inBytes : ∀ a, a < s.inLen.toNat → t.inByte a = s.inByte a
  block : t = { s with
    cfg := t.cfg, input := t.input, output := t.output, readData := t.readData, draws := t.draws }
  pixels : ∀ a, a < 4 * s.pixCount.toNat → Memory.read t.output a = Memory.read s.output a

end Sys2Proof.Machine
end

