-- ==== Sys2Proof/Certificates/Slice0/Obligations.lean ====
section
/-! DEFINITION. The statements about the machine, from the spec's numbered rules. None is proved here. -/

open Sys2Proof Sys2Proof.Machine

/-! ## Encoding -/

/-- Decoding an encoded well-formed instruction gives it back, with every operand at every value the encoding admits,
and leaves the bytes after it (spec/30_encoding.md R94, R95, R104). -/
def Obligations.DecodeOfEncodeGivesInstruction : Prop :=
  ∀ (i : Instr) (rest : List Byte), i.wf = true → decode (encode i ++ rest) = .instr i rest

/-- Bytes that decode are the encoding of the instruction they decode to, which is well-formed: each opcode has one
spelling (spec/30_encoding.md R94, R101). -/
def Obligations.DecodedBytesAreTheEncoding : Prop :=
  ∀ (bytes rest : List Byte) (i : Instr), decode bytes = .instr i rest → i.wf = true ∧ bytes = encode i ++ rest

/-- The classification of spec/30_encoding.md R93, written out on the number of the control byte, and that exactly one
row of the opcode table matches each control byte. -/
def Obligations.ControlByteSelectsOneOpcode : Prop :=
  ∀ c : Byte,
    classify c =
        (if c.toNat = 0xFE then .rgb
        else if c.toNat = 0xFF then .rgba
        else if c.toNat / 64 = 0 then .index
        else if c.toNat / 64 = 1 then .diff
        else if c.toNat / 64 = 2 then .luma
        else .run) ∧
      (opcodeTable.filter fun row => row.matches c).map OpcodeRow.opcode = [classify c]

/-- The map of control bytes of spec/30_encoding.md R101 with the operand values of R95 and R97 to R99, and that bytes
are rejected only where some are missing. -/
def Obligations.ControlByteMapGivesOperands : Prop :=
  (∀ (c : Byte) (rest : List Byte) (h : c.toNat ≤ 0x3F),
      decode (c :: rest) = .instr (.index ⟨c.toNat, by omega⟩) rest) ∧
  (∀ (c : Byte) (rest : List Byte), 0x40 ≤ c.toNat → c.toNat ≤ 0x7F →
      decode (c :: rest) =
        .instr (.diff ((c.toNat / 16 % 4 : Nat) - 2) ((c.toNat / 4 % 4 : Nat) - 2) ((c.toNat % 4 : Nat) - 2)) rest) ∧
  (∀ (c d : Byte) (rest : List Byte), 0x80 ≤ c.toNat → c.toNat ≤ 0xBF →
      decode (c :: d :: rest) =
        .instr (.luma ((c.toNat : Int) - 0x80 - 32) ((d.toNat / 16 : Nat) - 8) ((d.toNat % 16 : Nat) - 8)) rest) ∧
  (∀ (c : Byte) (rest : List Byte), 0xC0 ≤ c.toNat → c.toNat ≤ 0xFD →
      decode (c :: rest) = .instr (.run (c.toNat - 0xC0 + 1)) rest ∧ c.toNat - 0xC0 + 1 ≤ 62) ∧
  (∀ (d e f : Byte) (rest : List Byte), decode (0xFE :: d :: e :: f :: rest) = .instr (.rgb d e f) rest) ∧
  (∀ (d e f h : Byte) (rest : List Byte), decode (0xFF :: d :: e :: f :: h :: rest) = .instr (.rgba d e f h) rest) ∧
  (∀ (bytes : List Byte) (why : DecodeReject), decode bytes = .reject why →
      bytes = [] ∨ ∃ c rest, bytes = c :: rest ∧ bytes.length < oplen c)

/-- The length of an opcode is fixed by its control byte alone, and decoding takes exactly that many bytes
(spec/30_encoding.md R100). -/
def Obligations.ControlByteFixesLength : Prop :=
  ∀ (c : Byte) (tail : List Byte),
    (oplen c = if c = 0xFE then 4 else if c = 0xFF then 5 else if 0x80 ≤ c.toNat ∧ c.toNat ≤ 0xBF then 2 else 1) ∧
    (oplen c ≤ tail.length + 1 → ∃ i, decode (c :: tail) = .instr i ((c :: tail).drop (oplen c)))

/-- Words of spec/95_test_vectors.md decode to the opcodes written beside them there. -/
def Obligations.WordsOfTheTestVectorsDecode : Prop :=
  decode [0xFE, 0xC8, 0x64, 0x32] = .instr (.rgb 200 100 50) [] ∧
  decode [0xFF, 0x0A, 0x14, 0x1E, 0x28] = .instr (.rgba 10 20 30 40) [] ∧
  decode [0x0C] = .instr (.index 12) [] ∧
  decode [0x79] = .instr (.diff 1 0 (-1)) [] ∧
  decode [0xA5, 0x5A] = .instr (.luma 5 (-3) 2) [] ∧
  decode [0xFD] = .instr (.run 62) []

/-- The assembler emits the encoding of an opcode whose operands are in range and refuses every other; RUN 63 is
refused (spec/30_encoding.md R104). -/
def Obligations.AssemblerRefusesOutOfRange : Prop :=
  (∀ (cfg : Config) (i : Instr), (AsmLine.op i).emit cfg = if i.wf then some (encode i) else none) ∧
  (∀ cfg : Config, (AsmLine.op (.run 63)).emit cfg = none ∧ (AsmLine.op (.run 0)).emit cfg = none ∧
    (AsmLine.op (.diff 2 0 0)).emit cfg = none ∧ (AsmLine.op (.luma 0 8 0)).emit cfg = none)

/-- Disassembling a complete stream and its end marker gives back the opcodes it was assembled from
(spec/30_encoding.md R105). R105 lets the bytes after the last pixel show as `.byte` lines or as `.end`: that the last
line is `.end` is the model's choice (notes/assumptions/23, DESIGN CHOICE). -/
def Obligations.DisassemblyGivesBackTheStream : Prop :=
  ∀ (ops : List Instr) (total fuel : Nat), CompleteStream ops total → ops.length ≤ fuel →
    disassembleStream fuel total (ops.flatMap encode ++ Sys2Proof.Machine.endMarker) =
      ops.map AsmLine.op ++ [AsmLine.endMarker]

/-! ## Dispatch -/

/-- Where the loop is not at its end and the bytes at `IN_POS` decode to an instruction, a step is `exec` of it; the
step adds nothing, the meaning moves `IN_POS` past the opcode's bytes (spec/41_opcode_dispatch.md R143, R144). -/
def Obligations.StepRunsDecodedInstruction : Prop :=
  ∀ (s : State) (i : Instr) (rest : List Byte), s.inLoop → s.pixCount ≠ s.pixTotal →
    decode s.window = .instr i rest → step s = exec i s

/-- The same from the bytes alone: where the encoding of a well-formed instruction stands at `IN_POS`, within the
input, a step is `exec` of that instruction (spec/41_opcode_dispatch.md R144, spec/30_encoding.md R94). -/
def Obligations.EncodedInstructionAtInPosRuns : Prop :=
  ∀ (s : State) (i : Instr), s.inLoop → s.pixCount ≠ s.pixTotal → i.wf = true →
    s.inPos.toNat + (encode i).length ≤ s.inLen.toNat →
    s.inBytes s.inPos.toNat (encode i).length = encode i → step s = exec i s

/-- Where the control byte or an operand byte lies at or past `IN_LEN`, the step raises `TruncatedInput` at `IN_POS`
and has no other effect (spec/41_opcode_dispatch.md R144, R146, R147). -/
def Obligations.TruncatedOpcodeOnlyRaises : Prop :=
  ∀ s : State, s.inLoop → s.pixCount ≠ s.pixTotal →
    (s.inLen.toNat - s.inPos.toNat < 1 ∨ s.inLen.toNat - s.inPos.toNat < oplen (s.inByte s.inPos.toNat)) →
    step s = .next { s with status := .error, errCode := .truncatedInput, errPos := s.inPos }

/-- The loop check: at the last pixel the loop ends and nothing is read, else one opcode is dispatched
(spec/41_opcode_dispatch.md R143). -/
def Obligations.LoopCheckEndsAtLastPixel : Prop :=
  ∀ s : State, s.inLoop →
    (s.pixCount = s.pixTotal → step s = .next { s with phase := .endMarker }) ∧
    (s.pixCount ≠ s.pixTotal → step s = dispatch s)

/-- An opcode that succeeds advances `IN_POS` by its length; a run emission does not move it
(spec/41_opcode_dispatch.md R148). -/
def Obligations.OpcodeAdvancesByItsLength : Prop :=
  (∀ (s t : State) (i : Instr), s.status = .busy → exec i s = .next t → t.status = .busy →
      t.inPos = s.inPos + BitVec.ofNat 64 (encode i).length) ∧
  (∀ s t : State, runEmitStep s = .next t → t.inPos = s.inPos)

/-! ## The opcodes -/

/-- RGB: its encoding, its truncation check and its effect; the alpha is the previous pixel's
(spec/42_literal_ops.md R170). Where the pixel does not fit `OUT`, see `OverflowExactlyWhenOutIsFull`. -/
def Obligations.RgbKeepsPreviousAlpha : Prop :=
  ∀ (s : State) (r g b : Byte) (rest : List Byte),
    decode (0xFE :: r :: g :: b :: rest) = .instr (.rgb r g b) rest ∧
    (s.inLen.toNat - s.inPos.toNat < 4 → exec (.rgb r g b) s =
      .next { s with status := .error, errCode := .truncatedInput, errPos := s.inPos }) ∧
    (4 ≤ s.inLen.toNat - s.inPos.toNat → 4 * s.pixCount.toNat + 4 ≤ s.cfg.outCap → Memory.wf s.output = true →
      ∃ t, exec (.rgb r g b) s = .next t ∧ Commits s t ⟨r, g, b, s.prev.a⟩ 4)

/-- RGBA: its encoding, its truncation check and its effect (spec/42_literal_ops.md R171). -/
def Obligations.RgbaIsFullyLiteral : Prop :=
  ∀ (s : State) (r g b a : Byte) (rest : List Byte),
    decode (0xFF :: r :: g :: b :: a :: rest) = .instr (.rgba r g b a) rest ∧
    (s.inLen.toNat - s.inPos.toNat < 5 → exec (.rgba r g b a) s =
      .next { s with status := .error, errCode := .truncatedInput, errPos := s.inPos }) ∧
    (5 ≤ s.inLen.toNat - s.inPos.toNat → 4 * s.pixCount.toNat + 4 ≤ s.cfg.outCap → Memory.wf s.output = true →
      ∃ t, exec (.rgba r g b a) s = .next t ∧ Commits s t ⟨r, g, b, a⟩ 5)

/-- INDEX: its encoding and its effect; the pixel is what the slot held before the put, whatever that is
(spec/43_index_op.md R180). -/
def Obligations.IndexCommitsTheCachedPixel : Prop :=
  ∀ (s : State) (k : Fin 64) (rest : List Byte),
    decode (BitVec.ofNat 8 k.val :: rest) = .instr (.index k) rest ∧
    (4 * s.pixCount.toNat + 4 ≤ s.cfg.outCap → Memory.wf s.output = true →
      ∃ t, exec (.index k) s = .next t ∧ Commits s t (s.slot k) 1)

/-- DIFF: its encoding and its effect; each component is the previous one plus its delta, modulo 256, and the alpha is
kept (spec/44_delta_ops.md R190). -/
def Obligations.DiffAddsSmallDeltas : Prop :=
  (∀ (c : Byte) (rest : List Byte), 0x40 ≤ c.toNat → c.toNat ≤ 0x7F →
      decode (c :: rest) =
        .instr (.diff ((c.toNat / 16 % 4 : Nat) - 2) ((c.toNat / 4 % 4 : Nat) - 2) ((c.toNat % 4 : Nat) - 2)) rest) ∧
  (∀ (s : State) (dr dg db : Int), 4 * s.pixCount.toNat + 4 ≤ s.cfg.outCap → Memory.wf s.output = true →
      ∃ t p, exec (.diff dr dg db) s = .next t ∧ Commits s t p 1 ∧
        (p.r.toNat : Int) = (s.prev.r.toNat + dr) % 256 ∧ (p.g.toNat : Int) = (s.prev.g.toNat + dg) % 256 ∧
        (p.b.toNat : Int) = (s.prev.b.toNat + db) % 256 ∧ p.a = s.prev.a)

/-- LUMA: its encoding, its truncation check and its effect; red and blue change by the green delta plus their own,
all modulo 256, and the alpha is kept (spec/44_delta_ops.md R191). -/
def Obligations.LumaAddsRelativeDeltas : Prop :=
  (∀ (c d : Byte) (rest : List Byte), 0x80 ≤ c.toNat → c.toNat ≤ 0xBF →
      decode (c :: d :: rest) =
        .instr (.luma ((c.toNat % 64 : Nat) - 32) ((d.toNat / 16 : Nat) - 8) ((d.toNat % 16 : Nat) - 8)) rest) ∧
  (∀ (s : State) (dg drdg dbdg : Int),
      (s.inLen.toNat - s.inPos.toNat < 2 → exec (.luma dg drdg dbdg) s =
        .next { s with status := .error, errCode := .truncatedInput, errPos := s.inPos }) ∧
      (2 ≤ s.inLen.toNat - s.inPos.toNat → 4 * s.pixCount.toNat + 4 ≤ s.cfg.outCap → Memory.wf s.output = true →
        ∃ t p, exec (.luma dg drdg dbdg) s = .next t ∧ Commits s t p 2 ∧
          (p.r.toNat : Int) = (s.prev.r.toNat + dg + drdg) % 256 ∧ (p.g.toNat : Int) = (s.prev.g.toNat + dg) % 256 ∧
          (p.b.toNat : Int) = (s.prev.b.toNat + dg + dbdg) % 256 ∧ p.a = s.prev.a))

/-- RUN, the dispatch step: its encoding and its effect on `RUN_REMAIN`, `IN_POS` and `PHASE`, and on nothing else
(spec/45_run_op.md R200). -/
def Obligations.RunLoadsItsLength : Prop :=
  (∀ (c : Byte) (rest : List Byte), 0xC0 ≤ c.toNat → c.toNat ≤ 0xFD →
      decode (c :: rest) = .instr (.run (c.toNat % 64 + 1)) rest) ∧
  (∀ (s : State) (n : Nat), 1 ≤ n → n ≤ 62 →
      ∃ t, exec (.run n) s = .next t ∧ t.runRemain.toNat = n ∧
        t = { s with runRemain := t.runRemain, inPos := s.inPos + 1, phase := .runEmit })

/-- The frame of the five non-RUN opcodes, whichever way they answer: no register but `STATUS`, `ERR_POS`, `PIX_COUNT`,
`PREV`, `CACHE` and `IN_POS` changes; of `CACHE` only the slot of the new pixel's hash, and of `OUT` only the four
bytes at 4*PIX_COUNT; and an opcode that raises changes neither (spec/41_opcode_dispatch.md R147, R150). -/
def Obligations.PixelOpcodeFrame : Prop :=
  ∀ (i : Instr) (s t : State), (∀ n, i ≠ .run n) → exec i s = .next t →
    t = { s with
      status := t.status, errCode := t.errCode, errPos := t.errPos, pixCount := t.pixCount, prev := t.prev,
      cache := t.cache, inPos := t.inPos, output := t.output } ∧
    (∀ a, a < s.outAddr ∨ s.outAddr + 4 ≤ a → Memory.read t.output a = Memory.read s.output a) ∧
    (∀ k, k ≠ hashSlot t.prev → t.slot k = s.slot k) ∧
    ((t.status = s.status ∧ t.errCode = s.errCode ∧ t.errPos = s.errPos) ∨
     (t.pixCount = s.pixCount ∧ t.prev = s.prev ∧ t.cache = s.cache ∧ t.inPos = s.inPos ∧ t.output = s.output))

/-- Where a pixel does not fit in `OUT`, the step that would append it, and no other step of the block, is the model
fault `OutputOverflow` (spec/20_memory.md R69). -/
def Obligations.OverflowExactlyWhenOutIsFull : Prop :=
  ∀ (s : State) (f : Fault), s.quiet →
    (step s = .fault f ↔
      f = .outputOverflow ∧ s.cfg.outCap < 4 * s.pixCount.toNat + 4 ∧ s.status = .busy ∧
        (s.phase = .runEmit ∨
          (s.phase = .ops ∧ s.pixCount ≠ s.pixTotal ∧
            ∃ i rest, decode s.window = .instr i rest ∧ ∀ n, i ≠ .run n)))

/-! ## Runs -/

/-- One run emission: one pixel `PREV` is appended, `RUN_REMAIN` goes down by one, and the run ends when it is used up
or the image is complete (spec/45_run_op.md R201). -/
def Obligations.RunEmissionAppendsOnePixel : Prop :=
  ∀ s : State, s.quiet → s.status = .busy → s.phase = .runEmit → s.runRemain ≠ 0 →
    s.pixCount.toNat < s.pixTotal.toNat → 4 * s.pixCount.toNat + 4 ≤ s.cfg.outCap → Memory.wf s.output = true →
    ∃ t, step s = .next t ∧
      Memory.readBytes t.output (4 * s.pixCount.toNat) 4 = [s.prev.r, s.prev.g, s.prev.b, s.prev.a] ∧
      (∀ a, a < 4 * s.pixCount.toNat ∨ 4 * s.pixCount.toNat + 4 ≤ a →
        Memory.read t.output a = Memory.read s.output a) ∧
      t.pixCount.toNat = s.pixCount.toNat + 1 ∧
      (s.runRemain.toNat = 1 ∨ t.pixCount = s.pixTotal → t.runRemain = 0 ∧ t.phase = .ops) ∧
      (s.runRemain.toNat ≠ 1 ∧ t.pixCount ≠ s.pixTotal →
        t.runRemain.toNat = s.runRemain.toNat - 1 ∧ t.phase = .runEmit) ∧
      t = { s with output := t.output, pixCount := t.pixCount, runRemain := t.runRemain, phase := t.phase }

/-- RUN writes neither `PREV` nor `CACHE`, in its dispatch step and in its emission steps, whatever the cache holds;
its dispatch step writes no byte of `OUT` either (spec/45_run_op.md R204). -/
def Obligations.RunNeverWritesPrevOrCache : Prop :=
  (∀ (s t : State) (n : Nat), exec (.run n) s = .next t →
      t.prev = s.prev ∧ t.cache = s.cache ∧ t.output = s.output ∧ t.pixCount = s.pixCount) ∧
  (∀ s t : State, s.quiet → s.status = .busy → s.phase = .runEmit → step s = .next t →
      t.prev = s.prev ∧ t.cache = s.cache)

/-- A run, dispatch and emissions together, appends `min(run_length, PIX_TOTAL - PIX_COUNT)` copies of `PREV`, moves
`IN_POS` by 1 and leaves everything else as it was (spec/45_run_op.md R202, R203). -/
def Obligations.RunExpandsToCopiesOfPrev : Prop :=
  ∀ (s : State) (l : Nat) (rest : List Byte), s.inLoop → s.pixCount.toNat < s.pixTotal.toNat →
    decode s.window = .instr (.run l) rest →
    4 * (s.pixCount.toNat + min l (s.pixTotal.toNat - s.pixCount.toNat)) ≤ s.cfg.outCap →
    Memory.wf s.output = true →
    ∃ t, steps (min l (s.pixTotal.toNat - s.pixCount.toNat) + 1) s = .next t ∧
      t.pixCount.toNat = s.pixCount.toNat + min l (s.pixTotal.toNat - s.pixCount.toNat) ∧
      (∀ k, s.pixCount.toNat ≤ k → k < t.pixCount.toNat →
        Memory.readBytes t.output (4 * k) 4 = [s.prev.r, s.prev.g, s.prev.b, s.prev.a]) ∧
      (∀ a, a < 4 * s.pixCount.toNat ∨ 4 * t.pixCount.toNat ≤ a →
        Memory.read t.output a = Memory.read s.output a) ∧
      t = { s with
        output := t.output, pixCount := t.pixCount, inPos := s.inPos + 1, runRemain := 0, phase := .ops }

/-- A RUN before any other opcode, its dispatch and all its emissions, repeats the default pixel (0,0,0,255) and leaves
the cache as START set it, so an INDEX of that pixel's slot, 53, then commits (0,0,0,0) (spec/45_run_op.md R205). -/
def Obligations.RunOfDefaultPixelIsNotCached : Prop :=
  hashSlot ⟨0, 0, 0, 255⟩ = 53 ∧
  ∀ (s : State) (l : Nat) (rest : List Byte), s.inLoop → s.pixCount.toNat < s.pixTotal.toNat →
    decode s.window = .instr (.run l) rest →
    4 * (s.pixCount.toNat + min l (s.pixTotal.toNat - s.pixCount.toNat)) ≤ s.cfg.outCap →
    Memory.wf s.output = true → s.prev = ⟨0, 0, 0, 255⟩ → (∀ k, s.slot k = ⟨0, 0, 0, 0⟩) →
    ∃ t, steps (min l (s.pixTotal.toNat - s.pixCount.toNat) + 1) s = .next t ∧ t.inLoop ∧
      t.pixCount.toNat = s.pixCount.toNat + min l (s.pixTotal.toNat - s.pixCount.toNat) ∧
      (∀ k, s.pixCount.toNat ≤ k → k < t.pixCount.toNat → Memory.readBytes t.output (4 * k) 4 = [0, 0, 0, 255]) ∧
      t.prev = ⟨0, 0, 0, 255⟩ ∧ (∀ k, t.slot k = ⟨0, 0, 0, 0⟩) ∧
      (4 * t.pixCount.toNat + 4 ≤ t.cfg.outCap → ∃ u, exec (.index 53) t = .next u ∧ Commits t u ⟨0, 0, 0, 0⟩ 1)

/-! ## The output -/

/-- The block changes `OUT` only while BUSY, and then only at the four bytes of the one pixel that the step appends, inside
the image; every other byte keeps its contents (spec/20_memory.md R63). -/
def Obligations.OutputStaysInsideTheImage : Prop :=
  ∀ s t : State, s.Inv → s.quiet → step s = .next t →
    ∀ a, Memory.read t.output a ≠ Memory.read s.output a →
      s.status = .busy ∧ t.pixCount.toNat = s.pixCount.toNat + 1 ∧
      4 * s.pixCount.toNat ≤ a ∧ a < 4 * s.pixCount.toNat + 4 ∧ a < 4 * s.pixTotal.toNat ∧ a < s.cfg.outCap

/-! ## The color cache and the arithmetic -/

/-- The hash formula, that reducing the sum to any width of 6 bits or more first changes nothing, its maximum, and the
spec's examples (spec/46_color_cache.md R220). -/
def Obligations.HashIsTheSumModSixtyFour : Prop :=
  (∀ p : Pixel,
    (hashSlot p).val = (3 * p.r.toNat + 5 * p.g.toNat + 7 * p.b.toNat + 11 * p.a.toNat) % 64 ∧
    3 * p.r.toNat + 5 * p.g.toNat + 7 * p.b.toNat + 11 * p.a.toNat ≤ 6630 ∧
    (∀ w, 6 ≤ w →
      (hashSlot p).val = (3 * p.r.toNat + 5 * p.g.toNat + 7 * p.b.toNat + 11 * p.a.toNat) % 2 ^ w % 64) ∧
    (hashSlot p).val = (3 * p.r + 5 * p.g + 7 * p.b + 11 * p.a).toNat % 64) ∧
  hashSlot ⟨0, 0, 0, 0⟩ = 0 ∧ hashSlot ⟨0, 0, 0, 255⟩ = 53 ∧ hashSlot ⟨10, 20, 30, 40⟩ = 12 ∧
    hashSlot ⟨255, 255, 255, 255⟩ = 38

/-- A put writes the slot of the pixel's hash, whatever it held, and no other slot (spec/46_color_cache.md R222). -/
def Obligations.PutWritesOnlyTheHashSlot : Prop :=
  ∀ (s : State) (p : Pixel), (s.put p).slot (hashSlot p) = p ∧
    (∀ k, k ≠ hashSlot p → (s.put p).slot k = s.slot k) ∧ s.put p = { s with cache := (s.put p).cache }

/-- Right after a non-RUN opcode has appended a pixel, that pixel is in its cache slot, also when it came from the
cache (spec/46_color_cache.md R223). -/
def Obligations.CommittedPixelIsInItsSlot : Prop :=
  ∀ (i : Instr) (s t : State), (∀ n, i ≠ .run n) → exec i s = .next t → t.pixCount ≠ s.pixCount →
    t.slot (hashSlot t.prev) = t.prev

/-- Component arithmetic is modulo 256 in both directions, and reducing once after the whole sum or after each addition
gives the same byte (spec/44_delta_ops.md R192, spec/30_encoding.md R96). -/
def Obligations.DeltaArithmeticWraps : Prop :=
  (∀ (a : Byte) (x y : Int), ((add8 a x).toNat : Int) = (a.toNat + x) % 256 ∧
    add8 (add8 a x) y = add8 a (x + y)) ∧
  add8 0 (-2) = 254 ∧ add8 0 (-1) = 255 ∧ add8 255 1 = 0

/-! ## Header and end marker -/

/-- The header step: the checks in their order, each with its error and position, and what an accepted header writes;
after an error the header registers are as before (spec/40_header_parser.md R120, R122, R123, R126). -/
def Obligations.HeaderStepFollowsItsChecks : Prop :=
  ∀ s : State, s.quiet → s.status = .busy → s.phase = .hdr →
    (s.inLen.toNat < 4 →
      step s = .next { s with status := .error, errCode := .truncatedInput, errPos := 0 }) ∧
    (4 ≤ s.inLen.toNat → s.inBytes 0 4 ≠ s.cfg.magic.toList →
      step s = .next { s with status := .error, errCode := .magicMismatch, errPos := 0 }) ∧
    (s.inBytes 0 4 = s.cfg.magic.toList →
      (4 ≤ s.inLen.toNat → s.inLen.toNat < 8 →
        step s = .next { s with status := .error, errCode := .truncatedInput, errPos := 4 }) ∧
      (8 ≤ s.inLen.toNat → s.inLen.toNat < 12 →
        step s = .next { s with status := .error, errCode := .truncatedInput, errPos := 8 }) ∧
      (s.inLen.toNat = 12 →
        step s = .next { s with status := .error, errCode := .truncatedInput, errPos := 12 }) ∧
      (s.inLen.toNat = 13 →
        step s = .next { s with status := .error, errCode := .truncatedInput, errPos := 13 }) ∧
      (14 ≤ s.inLen.toNat → ∃ t, step s = .next t ∧
        t.width.toNat = (s.inByte 4).toNat * 2 ^ 24 + (s.inByte 5).toNat * 2 ^ 16 + (s.inByte 6).toNat * 2 ^ 8 +
          (s.inByte 7).toNat ∧
        t.height.toNat = (s.inByte 8).toNat * 2 ^ 24 + (s.inByte 9).toNat * 2 ^ 16 + (s.inByte 10).toNat * 2 ^ 8 +
          (s.inByte 11).toNat ∧
        t.channels = s.inByte 12 ∧ t.colorspace = s.inByte 13 ∧
        t.pixTotal.toNat = t.width.toNat * t.height.toNat ∧ t.inPos = 14 ∧ t.phase = .ops ∧
        t = { s with
          width := t.width, height := t.height, channels := t.channels, colorspace := t.colorspace,
          pixTotal := t.pixTotal, inPos := t.inPos, phase := t.phase }))

/-- `PIX_TOTAL` is the exact product of the two 32-bit sizes (spec/10_state.md R33, spec/40_header_parser.md R125). -/
def Obligations.PixelTotalIsExact : Prop :=
  ∀ w h : Word32, (pixelTotal w h).toNat = w.toNat * h.toNat

/-- `be32` of four bytes is their big-endian value, first byte most significant; the four bytes of a 32-bit value stand
most significant first; and the two are inverse (spec/20_memory.md R65, spec/00_scope.md R10). -/
def Obligations.HeaderFieldsAreBigEndian : Prop :=
  (∀ b0 b1 b2 b3 : Byte, (be32 b0 b1 b2 b3).toNat =
    b0.toNat * 2 ^ 24 + b1.toNat * 2 ^ 16 + b2.toNat * 2 ^ 8 + b3.toNat) ∧
  (∀ v : Word32, (be32Bytes v).map BitVec.toNat =
    [v.toNat / 2 ^ 24, v.toNat / 2 ^ 16 % 256, v.toNat / 2 ^ 8 % 256, v.toNat % 256]) ∧
  (∀ v : Word32, ∃ b0 b1 b2 b3, be32Bytes v = [b0, b1, b2, b3] ∧ be32 b0 b1 b2 b3 = v) ∧
  (∀ b0 b1 b2 b3 : Byte, be32Bytes (be32 b0 b1 b2 b3) = [b0, b1, b2, b3])

/-- The END step: success for exactly the eight marker bytes and nothing after them, `InvalidEndMarker` for every other
rest of the input, too short, too long or different (spec/47_end_marker.md R240, R241, R242). -/
def Obligations.EndStepAcceptsExactlyTheMarker : Prop :=
  ∀ s : State, s.quiet → s.status = .busy → s.phase = .endMarker →
    (s.inLen.toNat - s.inPos.toNat = 8 ∧ s.inBytes s.inPos.toNat 8 = [0, 0, 0, 0, 0, 0, 0, 1] →
      step s = .next { s with inPos := s.inLen, status := .done }) ∧
    (¬(s.inLen.toNat - s.inPos.toNat = 8 ∧ s.inBytes s.inPos.toNat 8 = [0, 0, 0, 0, 0, 0, 0, 1]) →
      step s = .next { s with status := .error, errCode := .invalidEndMarker, errPos := s.inPos })

/-- The END step is the only way to reach DONE, and then the input ended with exactly one marker at `IN_POS`, and
`IN_POS` is `IN_LEN` (spec/47_end_marker.md R244). -/
def Obligations.DoneOnlyThroughTheEndStep : Prop :=
  ∀ s t : State, step s = .next t → t.status = .done → s.status ≠ .done →
    s.status = .busy ∧ s.phase = .endMarker ∧ s.inLen.toNat = s.inPos.toNat + 8 ∧
    s.inBytes s.inPos.toNat 8 = [0, 0, 0, 0, 0, 0, 0, 1] ∧ t.inPos = t.inLen

/-! ## Status, errors and waiting -/

/-- The encodings of `STATE` and of `ERR_CODE`; that the block takes no step of its own in DONE and in ERROR; and that `STATE`
changes only by reset, by an accepted START, by the END step, and by `raise`, which also sets a non-zero `ERR_CODE`
(spec/10_state.md R24, R25, spec/60_exceptions.md R260). That a step in DONE or ERROR answers the same state is how the
model says that the block takes none (notes/assumptions/6, DEDUCED). -/
def Obligations.StatusChangesOnlyAsListed : Prop :=
  (Status.code .idle = 0 ∧ Status.code .busy = 1 ∧ Status.code .done = 2 ∧ Status.code .error = 3) ∧
  (ErrCode.code .noError = 0 ∧ ErrCode.code .magicMismatch = 1 ∧ ErrCode.code .truncatedInput = 2 ∧
    ErrCode.code .invalidEndMarker = 3) ∧
  (∀ s : State, s.quiet → s.status = .done ∨ s.status = .error → step s = .next s) ∧
  (∀ s t : State, step s = .next t → t.status ≠ s.status →
    (s.hostMoves.head? = some .reset ∧ t.status = .idle) ∨
    (s.status ≠ .busy ∧ t.status = .busy ∧ ∃ v, s.hostMoves.head? = some (.writeReg 0 v) ∧ v[0] = true) ∨
    (s.status = .busy ∧ s.phase = .endMarker ∧ t.status = .done) ∨
    (s.status = .busy ∧ t.status = .error ∧ t.errCode ≠ .noError))

/-- A step that ends a decode in ERROR does nothing else: it saves the error and its position, and every other register,
`OUT`, `PREV` and `CACHE` are as before; each error comes only from its own steps (spec/60_exceptions.md R260 to R265). -/
def Obligations.ErrorsArePrecise : Prop :=
  ∀ s t : State, step s = .next t → s.status ≠ .error → t.status = .error →
    s.status = .busy ∧ t.errCode ≠ .noError ∧
    t = { s with hostMoves := t.hostMoves, status := .error, errCode := t.errCode, errPos := t.errPos } ∧
    (t.errCode = .magicMismatch →
      s.phase = .hdr ∧ t.errPos = 0 ∧ 4 ≤ s.inLen.toNat ∧ s.inBytes 0 4 ≠ s.cfg.magic.toList) ∧
    (t.errCode = .truncatedInput →
      (s.phase = .hdr ∧ s.inLen.toNat < 14 ∧ t.errPos.toNat ≤ s.inLen.toNat) ∨
      (s.phase = .ops ∧ s.pixCount ≠ s.pixTotal ∧ s.inLen.toNat - s.inPos.toNat < 5 ∧ t.errPos = s.inPos)) ∧
    (t.errCode = .invalidEndMarker → s.phase = .endMarker ∧ t.errPos = s.inPos)

/-- In IDLE, DONE and ERROR no internal step is enabled: without a host move the block keeps all its state, and of the
host's moves only START and reset change its status (spec/60_exceptions.md R285). That a step of a waiting block answers
the same state is how the model says that none is enabled (notes/assumptions/6, DEDUCED). -/
def Obligations.WaitingBlockKeepsAllState : Prop :=
  (∀ s : State, s.quiet → s.status ≠ .busy → step s = .next s) ∧
  (∀ s t : State, s.status ≠ .busy → step s = .next t → t.status ≠ s.status →
    s.hostMoves.head? = some .reset ∨
      ∃ v, s.hostMoves.head? = some (.writeReg 0 v) ∧ v[0] = true)

/-- The `done` line is high exactly in DONE and ERROR; it rises only in a step of a BUSY block that sets one of them,
and falls only at an accepted START or at reset (spec/60_exceptions.md R268). -/
def Obligations.DoneLineFollowsTheStatus : Prop :=
  (∀ s : State, s.doneLine = true ↔ s.status = .done ∨ s.status = .error) ∧
  (∀ s t : State, step s = .next t → s.doneLine = false → t.doneLine = true → s.status = .busy) ∧
  (∀ s t : State, step s = .next t → s.doneLine = true → t.doneLine = false →
    s.hostMoves.head? = some .reset ∨
      ∃ v, s.hostMoves.head? = some (.writeReg 0 v) ∧ v[0] = true)

/-! ## The host's side -/

/-- START: a write of `CTRL` with bit 0 set is ignored while BUSY and else begins a fresh decode, with `PREV`
(0,0,0,255) and every cache slot (0,0,0,0); `IN_LEN`, `IN` and `OUT` stay (spec/41_opcode_dispatch.md R141). A write
carries 64 bits, and that bits 63:32, which the 32-bit `CTRL` does not have, are ignored is the model's choice
(notes/assumptions/17, DESIGN CHOICE). -/
def Obligations.StartBeginsAFreshDecode : Prop :=
  ∀ (s : State) (v : Word64) (ms : List HostMove), s.hostMoves = .writeReg 0 v :: ms → v[0] = true →
    (s.status = .busy → step s = .next { s with hostMoves := ms }) ∧
    (s.status ≠ .busy → ∃ t, step s = .next t ∧ (∀ k, t.slot k = ⟨0, 0, 0, 0⟩) ∧
      t = { s with
        hostMoves := ms, status := .busy, phase := .hdr, errCode := .noError, errPos := 0, inPos := 0, pixCount := 0,
        pixTotal := 0, runRemain := 0, width := 0, height := 0, channels := 0, colorspace := 0,
        prev := ⟨0, 0, 0, 255⟩, cache := t.cache })

/-- Reset at any time: IDLE with `done` low, every register reads 0, `PHASE` is HDR, `RUN_REMAIN` is 0, neither `IN` nor
`OUT` is touched, and the block then takes no step of its own; a decode in progress ends with no status
(spec/70_reset_and_hazards.md R290, R291). `PREV` and `CACHE` are left open. That the step then answers the same state is how
the model says that the block takes none (notes/assumptions/6, DEDUCED). -/
def Obligations.ResetClearsEveryRegister : Prop :=
  ∀ (s : State) (ms : List HostMove), s.hostMoves = .reset :: ms →
    ∃ t, step s = .next t ∧ t.status = .idle ∧ t.doneLine = false ∧ (∀ n, t.regRead n = 0) ∧ t.phase = .hdr ∧
      t.runRemain = 0 ∧ t.input = s.input ∧ t.output = s.output ∧ t.cfg = s.cfg ∧ (ms = [] → step t = .next t)

/-- The reset state: every host register reads 0, the status is IDLE with no error, `PHASE` is HDR and `RUN_REMAIN` is 0
(spec/10_state.md R42). Of `PREV`, `CACHE`, `IN` and `OUT`, whose values there are the model's choice
(notes/assumptions/3, 4), it says nothing. -/
def Obligations.ResetStateHoldsTheSpecValues : Prop :=
  (∀ n, State.reset.regRead n = 0) ∧ State.reset.status = .idle ∧ State.reset.errCode = .noError ∧
    State.reset.phase = .hdr ∧ State.reset.runRemain = 0 ∧ State.reset.doneLine = false

/-- The register file by number: what each register reads as, the fields of `STATUS`, and that a read changes nothing
but what it returns (spec/10_state.md R36, R37). The read returns the register's value at the step boundary where its
move stands: while BUSY, where spec/70_reset_and_hazards.md R297 leaves the boundary to a free draw, that is the
model's choice (notes/assumptions/9, DEDUCED, unsafe), and so is the field that holds what was read
(notes/assumptions/16, DESIGN CHOICE). -/
def Obligations.RegisterFileReads : Prop :=
  ∀ s : State,
    s.regRead 0 = 0 ∧ (s.regRead 1).toNat = s.status.code.toNat + 4 * s.errCode.code.toNat ∧ s.regRead 2 = s.inLen ∧
    s.regRead 3 = s.inPos ∧ (s.regRead 4).toNat = s.width.toNat ∧ (s.regRead 5).toNat = s.height.toNat ∧
    (s.regRead 6).toNat = s.channels.toNat ∧ (s.regRead 7).toNat = s.colorspace.toNat ∧ s.regRead 8 = s.pixTotal ∧
    s.regRead 9 = s.pixCount ∧ s.regRead 10 = s.errPos ∧ (∀ n, 11 ≤ n → s.regRead n = 0) ∧
    (∀ n ms, s.hostMoves = .readReg n :: ms → step s = .next { s with hostMoves := ms, readData := s.regRead n })

/-- Register writes: read-only and absent registers and reserved bits ignore them, `IN_LEN` takes one exactly outside
BUSY, reserved bits read 0, and a read has no side effect (spec/10_state.md R38). A write carries 64 bits: that bits 63:32,
which the 32-bit `CTRL` does not have, are ignored, and that one write sets all of `IN_LEN`, is the model's choice
(notes/assumptions/17, DESIGN CHOICE). -/
def Obligations.RegisterWritesObeyTheRules : Prop :=
  (∀ (s : State) (n : Nat) (v : Word64) (ms : List HostMove), s.hostMoves = .writeReg n v :: ms →
    (n ≠ 0 → n ≠ 2 → step s = .next { s with hostMoves := ms }) ∧
    (n = 2 → s.status ≠ .busy → step s = .next { s with hostMoves := ms, inLen := v }) ∧
    (n = 2 → s.status = .busy → step s = .next { s with hostMoves := ms }) ∧
    (n = 0 → v[0] = false → step s = .next { s with hostMoves := ms })) ∧
  (∀ (s : State) (v v' : Word64), v[0] = v'[0] → s.regWrite 0 v = s.regWrite 0 v') ∧
  (∀ s : State, (s.regRead 1).toNat < 16 ∧ s.regRead 0 = 0) ∧
  (∀ (s : State) (n : Nat) (ms : List HostMove), s.hostMoves = .readReg n :: ms →
    ∃ x, step s = .next { s with hostMoves := ms, readData := x })

/-- `IN_LEN`, the input and the platform's parameters are constant for the whole of a decode, whatever the host does
short of reset (spec/10_state.md R31, spec/20_memory.md R62, R74). That what stands in `IN` at `IN_LEN` or above is constant
too is the model's choice (notes/assumptions/26, DESIGN CHOICE). -/
def Obligations.InputIsConstantDuringADecode : Prop :=
  ∀ s t : State, s.status = .busy → s.hostMoves.head? ≠ some .reset → step s = .next t →
    t.inLen = s.inLen ∧ t.input = s.input ∧ t.cfg = s.cfg

/-- Within a decode `IN_POS` and `PIX_COUNT` never decrease, `ERR_POS` reads 0, and after the header step the header
registers keep their values (spec/70_reset_and_hazards.md R297, spec/10_state.md R29, R32). -/
def Obligations.ProgressIsMonotone : Prop :=
  ∀ s t : State, s.Inv → s.status = .busy → t.status = .busy → step s = .next t →
    s.inPos.toNat ≤ t.inPos.toNat ∧ s.pixCount.toNat ≤ t.pixCount.toNat ∧ t.errPos = 0 ∧
    (s.phase ≠ .hdr →
      t.width = s.width ∧ t.height = s.height ∧ t.channels = s.channels ∧ t.colorspace = s.colorspace ∧
        t.pixTotal = s.pixTotal)

/-- A host read of `OUT` returns the byte there once the block is not BUSY; while BUSY it returns some value, which this
statement leaves open; either way nothing of the block changes (spec/20_memory.md R72). The model's own choices (DESIGN
CHOICE) are the fields that hold what was read and count the draws (notes/assumptions/16, 18), and that a read at an offset
that does not exist faults (notes/assumptions/10). -/
def Obligations.HostReadsOfOutput : Prop :=
  ∀ (s : State) (a : Nat) (ms : List HostMove), s.hostMoves = .readOut a :: ms →
    (a < s.cfg.outCap → s.status ≠ .busy →
      step s = .next { s with hostMoves := ms, readData := (Memory.read s.output a).setWidth 64 }) ∧
    (a < s.cfg.outCap → s.status = .busy → ∃ x : Byte,
      step s = .next { s with hostMoves := ms, readData := x.setWidth 64, draws := s.draws + 1 }) ∧
    (s.cfg.outCap ≤ a → step s = .fault .outOffsetAbsent)

/-- The host has no move that writes `IN` or `OUT` while BUSY (spec/20_memory.md R74, spec/70_reset_and_hazards.md R293).
Outside BUSY a byte is placed in `IN` or in `OUT`, every other byte stays, and nothing else changes; the host's own read
of `IN`, in any status, returns the byte that stands there and changes nothing of the block
(spec/70_reset_and_hazards.md R292, which places the input before `IN_LEN` is written and lets the host read it).
The model's choices (DESIGN CHOICE): that it refuses a write while BUSY by name (notes/assumptions/7), to `OUT` also at
`OUT_CAP` or above (notes/assumptions/10) and to `IN` also at `IN_LEN` or above (notes/assumptions/26); that outside BUSY
a write to `OUT` at `OUT_CAP` or above faults (notes/assumptions/10); that a byte of `IN` is placed and read at every 64-bit
offset, also at `IN_LEN` or above (notes/assumptions/26, unsafe); and the field that holds what was read
(notes/assumptions/16). -/
def Obligations.HostWritesOnlyOutsideBusy : Prop :=
  (∀ (s : State) (a : Word64) (b : Byte) (ms : List HostMove), s.hostMoves = .writeIn a b :: ms →
    (s.status = .busy → step s = .refused .hostWriteWhileBusy) ∧
    (s.status ≠ .busy → Memory.wf s.input = true → ∃ t, step s = .next t ∧ t.inByte a.toNat = b ∧
      (∀ k, k ≠ a.toNat → t.inByte k = s.inByte k) ∧ t = { s with hostMoves := ms, input := t.input })) ∧
  (∀ (s : State) (a : Nat) (b : Byte) (ms : List HostMove), s.hostMoves = .writeOut a b :: ms →
    (s.status = .busy → step s = .refused .hostWriteWhileBusy) ∧
    (s.status ≠ .busy → a < s.cfg.outCap → Memory.wf s.output = true → ∃ t, step s = .next t ∧
      Memory.read t.output a = b ∧ (∀ k, k ≠ a → Memory.read t.output k = Memory.read s.output k) ∧
      t = { s with hostMoves := ms, output := t.output }) ∧
    (s.status ≠ .busy → s.cfg.outCap ≤ a → step s = .fault .outOffsetAbsent)) ∧
  (∀ (s : State) (a : Word64) (ms : List HostMove), s.hostMoves = .readIn a :: ms →
    step s = .next { s with hostMoves := ms, readData := (s.inByte a.toNat).setWidth 64 })

/-- Instances share no state: a step of one leaves every other one's registers, its pixel state and its host's moves as
they were, and no byte of its `IN` changes but by the host's own write and no byte of its `OUT` where the two `OUT` regions
do not overlap; the step is that instance's own step, and where no two decodes share a byte of `OUT` a quiet instance that
can step steps whatever the others hold (spec/60_exceptions.md R283). The model's choice (DESIGN CHOICE): that the
instances reach memories held once for all of them (notes/assumptions/13), that a host read of a byte that another instance
may be writing counts as a racing one (notes/assumptions/13), that all count their free values together
(notes/assumptions/18), and that a platform address has no bound, so no region wraps (notes/assumptions/29). -/
def Obligations.InstancesShareNothing : Prop :=
  (∀ (p : Platform) (k : Nat) (s t : State), p.OutsApart → p.block k = some s → s.quiet → step s = .next t →
    ∃ q, p.stepAt k = .next q) ∧
  (∀ (p q : Platform) (k : Nat) (s : State), p.block k = some s → p.stepAt k = .next q →
    q.instances.length = p.instances.length ∧
    (∃ t, q.block k = some t ∧ (p.readsUnderBusy s = false → step s = .next t) ∧
      (p.readsUnderBusy s = true → ∃ x : Byte,
        t = { s with hostMoves := s.hostMoves.tail, readData := x.setWidth 64, draws := s.draws + 1 })) ∧
    (∀ (j : Nat) (u : State), j ≠ k → p.block j = some u → ∃ v, q.block j = some v ∧
      v = { u with input := v.input, output := v.output, draws := v.draws } ∧
      ((∀ a b, s.hostMoves.head? ≠ some (.writeIn a b)) → ∀ a, v.inByte a = u.inByte a) ∧
      (s.outOverlap u = false → ∀ a, Memory.read v.output a = Memory.read u.output a)))

/-! ## Invariants -/

/-- The reset state meets the invariant of the machine, the cache invariant and the previous-pixel invariant. -/
def Obligations.ResetStateMeetsTheInvariants : Prop :=
  State.reset.Inv ∧ State.reset.CacheHashed ∧ State.reset.PrevIsLast

/-- Every step keeps the invariant of the machine: canonical memories, nothing listed outside `OUT`, `ERR_CODE` non-zero
exactly in ERROR, `PIX_TOTAL` the product, `PIX_COUNT` and `IN_POS` within their bounds, `RUN_REMAIN` non-zero only in
RUN_EMIT (spec/10_state.md R25, R28, R30, R33, R34, spec/45_run_op.md R202). -/
def Obligations.StepKeepsTheInvariant : Prop :=
  ∀ s t : State, s.Inv → step s = .next t → t.Inv

/-- At every step boundary of a decode every cache slot holds (0,0,0,0) or a pixel of its own hash
(spec/46_color_cache.md R224). -/
def Obligations.StepKeepsSlotsHashed : Prop :=
  ∀ s t : State, s.CacheHashed → step s = .next t → t.CacheHashed

/-- During a decode `PREV` is the last pixel appended, as it stands in `OUT`, or the default before the first
(spec/48_pixel_accumulator.md R254). -/
def Obligations.StepKeepsPrevTheLastPixel : Prop :=
  ∀ s t : State, s.Inv → s.PrevIsLast → step s = .next t → t.PrevIsLast

/-! ## Whole decodes -/

/-- Every decode ends, in DONE or ERROR, within 63 * IN_LEN + 3 internal steps, unless it runs out of `OUT`
(spec/41_opcode_dispatch.md R152). A decode that ends earlier is in the same state at that step, because a step of a waiting
block answers the same state (notes/assumptions/6, DEDUCED). -/
def Obligations.EveryDecodeEnds : Prop :=
  ∀ s : State, s.quiet → s.status ≠ .busy →
    steps (63 * s.inLen.toNat + 3) s.start = .fault .outputOverflow ∨
    ∃ t, steps (63 * s.inLen.toNat + 3) s.start = .next t ∧ (t.status = .done ∨ t.status = .error)

/-- A decode depends only on `MAGIC`, on the capacity, on `IN_LEN` and on the bytes below it: two blocks that agree on
these run alike from START, whatever either did before (spec/70_reset_and_hazards.md R295). -/
def Obligations.DecodeDependsOnlyOnTheInput : Prop :=
  ∀ (s t : State) (n : Nat), s.quiet → t.quiet → s.status ≠ .busy → t.status ≠ .busy →
    Memory.wf s.output = true → Memory.wf t.output = true →
    t.cfg.magic = s.cfg.magic → t.cfg.outCap = s.cfg.outCap → t.inLen = s.inLen →
    (∀ a, a < s.inLen.toNat → t.inByte a = s.inByte a) →
    (∀ u, steps n s.start = .next u → ∃ v, steps n t.start = .next v ∧ SameDecode u v) ∧
    (∀ f, steps n s.start = .fault f → steps n t.start = .fault f)

/-- Every well-formed input, where the image fits `OUT`, decodes to DONE, with the header's fields in their registers
and the opcodes' pixels in `OUT`, in decode order, R, G, B, A (spec/30_encoding.md R90, spec/48_pixel_accumulator.md R251,
R252). -/
def Obligations.WellFormedInputsDecode : Prop :=
  ∀ (s : State) (w h : Word32) (channels colorspace : Byte) (ops : List Instr),
    s.quiet → s.status ≠ .busy → Memory.wf s.output = true →
    CompleteStream ops (w.toNat * h.toNat) → 4 * (w.toNat * h.toNat) ≤ s.cfg.outCap →
    s.inBytes 0 s.inLen.toNat = inputBytes s.cfg.magic w h channels colorspace ops →
    ∃ n t, steps n s.start = .next t ∧ t.status = .done ∧ t.width = w ∧ t.height = h ∧ t.channels = channels ∧
      t.colorspace = colorspace ∧ t.pixCount.toNat = w.toNat * h.toNat ∧ t.inPos = s.inLen ∧
      Memory.readBytes t.output 0 (4 * (w.toNat * h.toNat)) =
        ((imagePixels Running.fresh ops).take (w.toNat * h.toNat)).flatMap Pixel.bytes

/-- A decode that reaches DONE was given a well-formed input (spec/30_encoding.md R90, spec/47_end_marker.md R244). -/
def Obligations.DoneMeansAWellFormedInput : Prop :=
  ∀ (s t : State) (n : Nat), s.quiet → s.status ≠ .busy → steps n s.start = .next t → t.status = .done →
    WellFormedInput s.cfg.magic (s.inBytes 0 s.inLen.toNat)

/-- Two decodes of the same input stay the same decode at every step: where one block steps the other steps too, to a state
of the same decode, and where one runs out of `OUT` so does the other (spec/70_reset_and_hazards.md R295). -/
def Obligations.StepKeepsSameDecode : Prop :=
  ∀ s t : State, SameDecode s t → s.quiet → Memory.wf s.output = true → Memory.wf t.output = true →
    (∀ u, step s = .next u → ∃ v, step t = .next v ∧ SameDecode u v ∧ u.quiet ∧ Memory.wf u.output = true ∧
      Memory.wf v.output = true) ∧
    (∀ f, step s = .fault f → step t = .fault f)

/-! ## Instances that share an input -/

/-- Instances may share one `IN` region, or a part of one: where offset `a` of one and offset `b` of another are one
platform address, both read the same byte there, before and after a step of either; and no step of another instance, nor a
host write through it, changes a byte of the input of a BUSY instance (spec/60_exceptions.md R283, spec/20_memory.md R74).
That equal platform addresses of two instances' `IN` are one byte, also for a part of a region and after a host write
through one of them, is the model's choice (notes/assumptions/13, DESIGN CHOICE: one memory for all `IN` regions), and so
is that a platform address has no bound, so no region wraps (notes/assumptions/29, DESIGN CHOICE). -/
def Obligations.InstancesMayShareInput : Prop :=
  ∀ (p q : Platform) (k j : Nat) (s t u v : State), j ≠ k → p.block k = some s → p.block j = some u →
    p.stepAt k = .next q → q.block k = some t → q.block j = some v →
    (∀ a b, a < inSpan → b < inSpan → s.inAddress a = u.inAddress b →
      u.inByte b = s.inByte a ∧ v.inByte b = t.inByte a) ∧
    (u.status = .busy → ∀ a, a < u.inLen.toNat → v.inByte a = u.inByte a)

/-- Two instances that decode at the same time have `OUT` regions that do not overlap (spec/70_reset_and_hazards.md R293,
spec/92_eei_decisions.md D30): so it is at reset, and every step of the platform keeps it. A START at an instance outside
BUSY begins a decode there where no BUSY instance has an overlapping `OUT`; where one has, the host has no such move, and
that the model then refuses by name is the model's choice (notes/assumptions/28, DESIGN CHOICE), and so is that bits 63:32
of what is written to the 32-bit `CTRL` are ignored (notes/assumptions/17, DESIGN CHOICE) and that a platform address has
no bound, so no region wraps (notes/assumptions/29, DESIGN CHOICE). -/
def Obligations.DecodingOutRegionsStayApart : Prop :=
  (∀ cfgs : List Config, (Platform.reset cfgs).OutsApart) ∧
  (∀ (p q : Platform) (k : Nat), p.OutsApart → p.stepAt k = .next q → q.OutsApart) ∧
  (∀ (p : Platform) (k : Nat) (s : State) (v : Word64) (ms : List HostMove), p.block k = some s →
    s.hostMoves = .writeReg 0 v :: ms → v[0] = true → s.status ≠ .busy →
    ((∀ j u, j ≠ k → p.block j = some u → u.status = .busy → s.outOverlap u = false) →
      ∃ q t, p.stepAt k = .next q ∧ q.block k = some t ∧ t.status = .busy ∧ t.phase = .hdr) ∧
    ((∃ j u, j ≠ k ∧ p.block j = some u ∧ u.status = .busy ∧ s.outOverlap u = true) →
      p.stepAt k = .refused .overlappingOut))
end

