-- ==== Sys2Proof/Laws/Decode.lean ====
section
/-! SUPPORT. The finite facts about control bytes and fields that the encoding statements rest on, and the length of an
encoded instruction. -/

namespace Sys2Proof

set_option maxRecDepth 4000

theorem classify_index : ∀ k : Fin 64, classify (byteOf k.val) = .index ∧ indexField (byteOf k.val) = k := by decide

theorem classify_diff : ∀ r g b : Fin 4, ∀ c, c = byteOf (0x40 + (r.val : Int) * 16 + (g.val : Int) * 4 + b.val) →
    classify c = .diff ∧ bits c 5 4 = r.val ∧ bits c 3 2 = g.val ∧ bits c 1 0 = b.val := by
  simp only [forall_eq]
  decide

theorem classify_luma : ∀ g : Fin 64, ∀ c, c = byteOf (0x80 + (g.val : Int)) →
    classify c = .luma ∧ bits c 5 0 = g.val := by
  simp only [forall_eq]
  decide

theorem luma_nibbles : ∀ r b : Fin 16, ∀ d, d = byteOf ((r.val : Int) * 16 + b.val) →
    bits d 7 4 = r.val ∧ bits d 3 0 = b.val := by
  simp only [forall_eq]
  decide

theorem classify_run : ∀ l : Fin 62, ∀ c, c = byteOf (0xC0 + (l.val : Int)) →
    classify c = .run ∧ bits c 5 0 = l.val := by
  simp only [forall_eq]
  decide

/-- A number in a biased range is a field less its bias. -/
theorem exists_field {d bias : Int} {n : Nat} (h1 : -bias ≤ d) (h2 : d < n - bias) : ∃ f : Fin n, d = (f.val : Int) - bias :=
  ⟨⟨(d + bias).toNat, by omega⟩, by
    simp only
    omega⟩

theorem encode_length (i : Instr) : (encode i).length = i.opcode.length := by cases i <;> rfl

theorem opcode_length_pos (op : Opcode) : 1 ≤ op.length := by cases op <;> decide

theorem opcode_length_le (op : Opcode) : op.length ≤ maxLength := by cases op <;> decide

end Sys2Proof
end

