-- ==== Sys2Proof/Laws/Memory.lean ====
section
/-! SUPPORT. The laws of a byte memory: reading back a write, what a write leaves alone, and that the canonical form is
kept and makes equal contents equal data. -/

namespace Sys2Proof.Machine.Memory

@[simp] theorem read_nil (a : Nat) : Memory.read [] a = unlisted := rfl

@[simp] theorem wf_nil : Memory.wf [] = true := rfl

@[simp] theorem read_cons_same (k : Nat) (v : Byte) (m : Memory) : Memory.read ((k, v) :: m) k = v := by simp [Memory.read]

theorem read_cons_ne {k a : Nat} (v : Byte) (m : Memory) (h : k ≠ a) :
    Memory.read ((k, v) :: m) a = Memory.read m a := by simp [Memory.read, h.symm]

theorem wf_cons {k : Nat} {v : Byte} {m : Memory} :
    Memory.wf ((k, v) :: m) = true ↔ v ≠ unlisted ∧ (∀ c ∈ m, k < c.1) ∧ Memory.wf m = true := by
  simp [Memory.wf, and_assoc]

/-- Below every listed offset a memory reads as unlisted. -/
theorem read_of_forall_lt {m : Memory} {a : Nat} (h : ∀ c ∈ m, a < c.1) : Memory.read m a = unlisted := by
  induction m with
  | nil => rfl
  | cons c m ih =>
    have hc : c.1 ≠ a := by have := h c (by simp); omega
    obtain ⟨k, v⟩ := c
    rw [read_cons_ne v m hc]
    exact ih fun d hd => h d (by simp [hd])

theorem read_write_same {m : Memory} (h : Memory.wf m = true) (a : Nat) (b : Byte) :
    Memory.read (Memory.write m a b) a = b := by
  induction m with
  | nil => by_cases hb : b = unlisted <;> simp [Memory.write, hb]
  | cons c m ih =>
    obtain ⟨k, v⟩ := c
    obtain ⟨-, hk, hm⟩ := wf_cons.mp h
    unfold Memory.write
    split
    · rename_i hak
      split
      · rename_i hb
        rw [hb]
        exact read_of_forall_lt fun d hd => by
          rcases List.mem_cons.mp hd with rfl | hd
          · exact hak
          · exact lt_trans hak (hk d hd)
      · simp [Memory.read]
    · split
      · rename_i hak
        subst hak
        split
        · rename_i hb
          rw [hb]
          exact read_of_forall_lt hk
        · simp [Memory.read]
      · rename_i hak
        have : k ≠ a := fun e => hak e.symm
        rw [read_cons_ne _ _ this, ih hm]

theorem read_write_other (m : Memory) {a a' : Nat} (b : Byte) (h : a' ≠ a) :
    Memory.read (Memory.write m a b) a' = Memory.read m a' := by
  have hs := h.symm
  induction m with
  | nil => by_cases hb : b = unlisted <;> simp [Memory.write, hb, read_cons_ne _ _ hs]
  | cons c m ih =>
    obtain ⟨k, v⟩ := c
    unfold Memory.write
    split
    · split
      · rfl
      · rw [read_cons_ne _ _ hs]
    · split
      · rename_i hak
        subst hak
        split
        · rw [read_cons_ne _ _ hs]
        · rw [read_cons_ne _ _ hs, read_cons_ne _ _ hs]
      · by_cases hk : k = a'
        · subst hk
          rw [read_cons_same, read_cons_same]
        · rw [read_cons_ne _ _ hk, read_cons_ne _ _ hk, ih]

theorem write_forall {P : Nat → Prop} {m : Memory} {a : Nat} {b : Byte} (hm : ∀ c ∈ m, P c.1) (ha : P a) :
    ∀ c ∈ Memory.write m a b, P c.1 := by
  induction m with
  | nil =>
    intro c hc
    by_cases hb : b = unlisted <;> simp [Memory.write, hb] at hc
    simpa [hc] using ha
  | cons d m ih =>
    obtain ⟨k, v⟩ := d
    have hk : P k := hm (k, v) (by simp)
    have ht : ∀ c ∈ m, P c.1 := fun c hc => hm c (by simp [hc])
    unfold Memory.write
    split
    · split
      · exact hm
      · intro c hc
        rcases List.mem_cons.mp hc with rfl | hc
        · exact ha
        · exact hm c hc
    · split
      · split
        · exact ht
        · intro c hc
          rcases List.mem_cons.mp hc with rfl | hc
          · exact ha
          · exact ht c hc
      · intro c hc
        rcases List.mem_cons.mp hc with rfl | hc
        · exact hk
        · exact ih ht c hc

/-- A write keeps the canonical form. -/
theorem write_wf {m : Memory} (h : Memory.wf m = true) (a : Nat) (b : Byte) :
    Memory.wf (Memory.write m a b) = true := by
  induction m with
  | nil => by_cases hb : b = unlisted <;> simp [Memory.write, Memory.wf, hb]
  | cons c m ih =>
    obtain ⟨k, v⟩ := c
    obtain ⟨hv, hk, hm⟩ := wf_cons.mp h
    unfold Memory.write
    split
    · rename_i hak
      split
      · exact h
      · rename_i hb
        exact wf_cons.mpr ⟨hb, fun d hd => by
          rcases List.mem_cons.mp hd with rfl | hd
          · exact hak
          · exact lt_trans hak (hk d hd), h⟩
    · split
      · rename_i hak
        subst hak
        split
        · exact hm
        · rename_i hb
          exact wf_cons.mpr ⟨hb, hk, hm⟩
      · exact wf_cons.mpr ⟨hv, write_forall hk (by omega), ih hm⟩

theorem writeBytes_wf {m : Memory} (h : Memory.wf m = true) (a : Nat) (bs : List Byte) :
    Memory.wf (Memory.writeBytes m a bs) = true := by
  induction bs generalizing m a with
  | nil => exact h
  | cons b bs ih => exact ih (write_wf h a b) (a + 1)

theorem writeBytes_forall {P : Nat → Prop} {m : Memory} {a : Nat} {bs : List Byte} (hm : ∀ c ∈ m, P c.1)
    (ha : ∀ k, k < bs.length → P (a + k)) : ∀ c ∈ Memory.writeBytes m a bs, P c.1 := by
  induction bs generalizing m a with
  | nil => exact hm
  | cons b bs ih =>
    refine ih (write_forall hm (by simpa using ha 0 (by simp))) fun k hk => ?_
    have := ha (k + 1) (by simpa using hk)
    rwa [show a + 1 + k = a + (k + 1) by omega]

/-- A write of bytes leaves every other offset alone. -/
theorem read_writeBytes_other (m : Memory) {a a' : Nat} (bs : List Byte) (h : a' < a ∨ a + bs.length ≤ a') :
    Memory.read (Memory.writeBytes m a bs) a' = Memory.read m a' := by
  induction bs generalizing m a with
  | nil => rfl
  | cons b bs ih =>
    simp only [List.length_cons] at h
    rw [Memory.writeBytes, ih _ (by omega), read_write_other _ _ (by omega)]

@[simp] theorem readBytes_length (m : Memory) (a n : Nat) : (Memory.readBytes m a n).length = n := by
  induction n generalizing a with
  | zero => rfl
  | succ n ih => simp [Memory.readBytes, ih]

/-- Reading depends only on the offsets read. -/
theorem readBytes_congr {m m' : Memory} {a n : Nat}
    (h : ∀ k, a ≤ k → k < a + n → Memory.read m' k = Memory.read m k) :
    Memory.readBytes m' a n = Memory.readBytes m a n := by
  induction n generalizing a with
  | zero => rfl
  | succ n ih =>
    rw [Memory.readBytes, Memory.readBytes, h a (by omega) (by omega), ih fun k h1 h2 => h k (by omega) (by omega)]

/-- Bytes read back as they were written. -/
theorem readBytes_writeBytes_same {m : Memory} (h : Memory.wf m = true) (a : Nat) (bs : List Byte) :
    Memory.readBytes (Memory.writeBytes m a bs) a bs.length = bs := by
  induction bs generalizing m a with
  | nil => rfl
  | cons b bs ih =>
    rw [List.length_cons, Memory.readBytes, Memory.writeBytes, ih (write_wf h a b),
      read_writeBytes_other _ _ (by omega), read_write_same h]

theorem readBytes_append (m : Memory) (a n k : Nat) :
    Memory.readBytes m a (n + k) = Memory.readBytes m a n ++ Memory.readBytes m (a + n) k := by
  induction n generalizing a with
  | zero => simp [Memory.readBytes]
  | succ n ih =>
    rw [show n + 1 + k = (n + k) + 1 by omega, Memory.readBytes, Memory.readBytes, ih,
      show a + 1 + n = a + (n + 1) by omega]
    rfl

theorem readBytes_take (m : Memory) (a n k : Nat) (h : k ≤ n) :
    (Memory.readBytes m a n).take k = Memory.readBytes m a k := by
  obtain ⟨j, rfl⟩ := Nat.exists_eq_add_of_le h
  rw [readBytes_append, List.take_left' (by simp)]

theorem readBytes_drop (m : Memory) (a n k : Nat) (h : k ≤ n) :
    (Memory.readBytes m a n).drop k = Memory.readBytes m (a + k) (n - k) := by
  obtain ⟨j, rfl⟩ := Nat.exists_eq_add_of_le h
  rw [readBytes_append, List.drop_left' (by simp), show k + j - k = j by omega]

/-- In canonical form, equal contents are equal data. -/
theorem eq_of_read_eq {m m' : Memory} (h : Memory.wf m = true) (h' : Memory.wf m' = true)
    (hr : ∀ a, Memory.read m a = Memory.read m' a) : m = m' := by
  induction m generalizing m' with
  | nil =>
    cases m' with
    | nil => rfl
    | cons c m' =>
      obtain ⟨k, v⟩ := c
      have := hr k
      rw [read_nil, read_cons_same] at this
      exact absurd this.symm (wf_cons.mp h').1
  | cons c m ih =>
    obtain ⟨k, v⟩ := c
    obtain ⟨hv, hk, hm⟩ := wf_cons.mp h
    cases m' with
    | nil =>
      have := hr k
      rw [read_nil, read_cons_same] at this
      exact absurd this hv
    | cons c' m' =>
      obtain ⟨k', v'⟩ := c'
      obtain ⟨hv', hk', hm'⟩ := wf_cons.mp h'
      have hkk : k = k' := by
        rcases lt_trichotomy k k' with hlt | heq | hgt
        · have h1 := hr k
          rw [Memory.read, if_pos rfl, read_of_forall_lt (m := (k', v') :: m') fun d hd => by
            rcases List.mem_cons.mp hd with rfl | hd
            · exact hlt
            · exact lt_trans hlt (hk' d hd)] at h1
          exact absurd h1 hv
        · exact heq
        · have h1 := hr k'
          rw [Memory.read, if_neg (by omega), read_of_forall_lt fun d hd => lt_trans hgt (hk d hd), Memory.read,
            if_pos rfl] at h1
          exact absurd h1.symm hv'
      subst hkk
      have hvv : v = v' := by simpa using hr k
      subst hvv
      congr 1
      refine ih hm hm' fun a => ?_
      by_cases ha : k = a
      · subst ha
        rw [read_of_forall_lt hk, read_of_forall_lt hk']
      · simpa [read_cons_ne _ _ ha] using hr a

end Sys2Proof.Machine.Memory
end

