-- ==== Sys2Proof/Laws/State.lean ====
section
/-! SUPPORT. One lemma per field per named update of the state. -/

namespace Sys2Proof.Machine

/-! ## raise -/

@[simp] theorem State.raise_cfg (s : State) (e : ErrCode) (pos : Word64) : (s.raise e pos).cfg = s.cfg := rfl
@[simp] theorem State.raise_status (s : State) (e : ErrCode) (pos : Word64) : (s.raise e pos).status = .error := rfl
@[simp] theorem State.raise_errCode (s : State) (e : ErrCode) (pos : Word64) : (s.raise e pos).errCode = e := rfl
@[simp] theorem State.raise_errPos (s : State) (e : ErrCode) (pos : Word64) : (s.raise e pos).errPos = pos := rfl
@[simp] theorem State.raise_phase (s : State) (e : ErrCode) (pos : Word64) : (s.raise e pos).phase = s.phase := rfl
@[simp] theorem State.raise_runRemain (s : State) (e : ErrCode) (pos : Word64) :
    (s.raise e pos).runRemain = s.runRemain := rfl
@[simp] theorem State.raise_inPos (s : State) (e : ErrCode) (pos : Word64) : (s.raise e pos).inPos = s.inPos := rfl
@[simp] theorem State.raise_inLen (s : State) (e : ErrCode) (pos : Word64) : (s.raise e pos).inLen = s.inLen := rfl
@[simp] theorem State.raise_width (s : State) (e : ErrCode) (pos : Word64) : (s.raise e pos).width = s.width := rfl
@[simp] theorem State.raise_height (s : State) (e : ErrCode) (pos : Word64) : (s.raise e pos).height = s.height := rfl
@[simp] theorem State.raise_channels (s : State) (e : ErrCode) (pos : Word64) :
    (s.raise e pos).channels = s.channels := rfl
@[simp] theorem State.raise_colorspace (s : State) (e : ErrCode) (pos : Word64) :
    (s.raise e pos).colorspace = s.colorspace := rfl
@[simp] theorem State.raise_pixTotal (s : State) (e : ErrCode) (pos : Word64) :
    (s.raise e pos).pixTotal = s.pixTotal := rfl
@[simp] theorem State.raise_pixCount (s : State) (e : ErrCode) (pos : Word64) :
    (s.raise e pos).pixCount = s.pixCount := rfl
@[simp] theorem State.raise_prev (s : State) (e : ErrCode) (pos : Word64) : (s.raise e pos).prev = s.prev := rfl
@[simp] theorem State.raise_cache (s : State) (e : ErrCode) (pos : Word64) : (s.raise e pos).cache = s.cache := rfl
@[simp] theorem State.raise_input (s : State) (e : ErrCode) (pos : Word64) : (s.raise e pos).input = s.input := rfl
@[simp] theorem State.raise_output (s : State) (e : ErrCode) (pos : Word64) : (s.raise e pos).output = s.output := rfl
@[simp] theorem State.raise_hostMoves (s : State) (e : ErrCode) (pos : Word64) :
    (s.raise e pos).hostMoves = s.hostMoves := rfl
@[simp] theorem State.raise_readData (s : State) (e : ErrCode) (pos : Word64) :
    (s.raise e pos).readData = s.readData := rfl
@[simp] theorem State.raise_draws (s : State) (e : ErrCode) (pos : Word64) : (s.raise e pos).draws = s.draws := rfl

/-! ## advance -/

@[simp] theorem State.advance_cfg (s : State) (n : Nat) : (s.advance n).cfg = s.cfg := rfl
@[simp] theorem State.advance_status (s : State) (n : Nat) : (s.advance n).status = s.status := rfl
@[simp] theorem State.advance_errCode (s : State) (n : Nat) : (s.advance n).errCode = s.errCode := rfl
@[simp] theorem State.advance_errPos (s : State) (n : Nat) : (s.advance n).errPos = s.errPos := rfl
@[simp] theorem State.advance_phase (s : State) (n : Nat) : (s.advance n).phase = s.phase := rfl
@[simp] theorem State.advance_runRemain (s : State) (n : Nat) : (s.advance n).runRemain = s.runRemain := rfl
@[simp] theorem State.advance_inPos (s : State) (n : Nat) : (s.advance n).inPos = s.inPos + BitVec.ofNat 64 n := rfl
@[simp] theorem State.advance_inLen (s : State) (n : Nat) : (s.advance n).inLen = s.inLen := rfl
@[simp] theorem State.advance_width (s : State) (n : Nat) : (s.advance n).width = s.width := rfl
@[simp] theorem State.advance_height (s : State) (n : Nat) : (s.advance n).height = s.height := rfl
@[simp] theorem State.advance_channels (s : State) (n : Nat) : (s.advance n).channels = s.channels := rfl
@[simp] theorem State.advance_colorspace (s : State) (n : Nat) : (s.advance n).colorspace = s.colorspace := rfl
@[simp] theorem State.advance_pixTotal (s : State) (n : Nat) : (s.advance n).pixTotal = s.pixTotal := rfl
@[simp] theorem State.advance_pixCount (s : State) (n : Nat) : (s.advance n).pixCount = s.pixCount := rfl
@[simp] theorem State.advance_prev (s : State) (n : Nat) : (s.advance n).prev = s.prev := rfl
@[simp] theorem State.advance_cache (s : State) (n : Nat) : (s.advance n).cache = s.cache := rfl
@[simp] theorem State.advance_input (s : State) (n : Nat) : (s.advance n).input = s.input := rfl
@[simp] theorem State.advance_output (s : State) (n : Nat) : (s.advance n).output = s.output := rfl
@[simp] theorem State.advance_hostMoves (s : State) (n : Nat) : (s.advance n).hostMoves = s.hostMoves := rfl
@[simp] theorem State.advance_readData (s : State) (n : Nat) : (s.advance n).readData = s.readData := rfl
@[simp] theorem State.advance_draws (s : State) (n : Nat) : (s.advance n).draws = s.draws := rfl

/-! ## put -/

@[simp] theorem State.put_cfg (s : State) (p : Pixel) : (s.put p).cfg = s.cfg := rfl
@[simp] theorem State.put_status (s : State) (p : Pixel) : (s.put p).status = s.status := rfl
@[simp] theorem State.put_errCode (s : State) (p : Pixel) : (s.put p).errCode = s.errCode := rfl
@[simp] theorem State.put_errPos (s : State) (p : Pixel) : (s.put p).errPos = s.errPos := rfl
@[simp] theorem State.put_phase (s : State) (p : Pixel) : (s.put p).phase = s.phase := rfl
@[simp] theorem State.put_runRemain (s : State) (p : Pixel) : (s.put p).runRemain = s.runRemain := rfl
@[simp] theorem State.put_inPos (s : State) (p : Pixel) : (s.put p).inPos = s.inPos := rfl
@[simp] theorem State.put_inLen (s : State) (p : Pixel) : (s.put p).inLen = s.inLen := rfl
@[simp] theorem State.put_width (s : State) (p : Pixel) : (s.put p).width = s.width := rfl
@[simp] theorem State.put_height (s : State) (p : Pixel) : (s.put p).height = s.height := rfl
@[simp] theorem State.put_channels (s : State) (p : Pixel) : (s.put p).channels = s.channels := rfl
@[simp] theorem State.put_colorspace (s : State) (p : Pixel) : (s.put p).colorspace = s.colorspace := rfl
@[simp] theorem State.put_pixTotal (s : State) (p : Pixel) : (s.put p).pixTotal = s.pixTotal := rfl
@[simp] theorem State.put_pixCount (s : State) (p : Pixel) : (s.put p).pixCount = s.pixCount := rfl
@[simp] theorem State.put_prev (s : State) (p : Pixel) : (s.put p).prev = s.prev := rfl
@[simp] theorem State.put_cache (s : State) (p : Pixel) :
    (s.put p).cache = s.cache.set (hashSlot p).val p (hashSlot p).isLt := rfl
@[simp] theorem State.put_input (s : State) (p : Pixel) : (s.put p).input = s.input := rfl
@[simp] theorem State.put_output (s : State) (p : Pixel) : (s.put p).output = s.output := rfl
@[simp] theorem State.put_hostMoves (s : State) (p : Pixel) : (s.put p).hostMoves = s.hostMoves := rfl
@[simp] theorem State.put_readData (s : State) (p : Pixel) : (s.put p).readData = s.readData := rfl
@[simp] theorem State.put_draws (s : State) (p : Pixel) : (s.put p).draws = s.draws := rfl

/-! ## appended -/

@[simp] theorem State.appended_cfg (s : State) (p : Pixel) : (s.appended p).cfg = s.cfg := rfl
@[simp] theorem State.appended_status (s : State) (p : Pixel) : (s.appended p).status = s.status := rfl
@[simp] theorem State.appended_errCode (s : State) (p : Pixel) : (s.appended p).errCode = s.errCode := rfl
@[simp] theorem State.appended_errPos (s : State) (p : Pixel) : (s.appended p).errPos = s.errPos := rfl
@[simp] theorem State.appended_phase (s : State) (p : Pixel) : (s.appended p).phase = s.phase := rfl
@[simp] theorem State.appended_runRemain (s : State) (p : Pixel) : (s.appended p).runRemain = s.runRemain := rfl
@[simp] theorem State.appended_inPos (s : State) (p : Pixel) : (s.appended p).inPos = s.inPos := rfl
@[simp] theorem State.appended_inLen (s : State) (p : Pixel) : (s.appended p).inLen = s.inLen := rfl
@[simp] theorem State.appended_width (s : State) (p : Pixel) : (s.appended p).width = s.width := rfl
@[simp] theorem State.appended_height (s : State) (p : Pixel) : (s.appended p).height = s.height := rfl
@[simp] theorem State.appended_channels (s : State) (p : Pixel) : (s.appended p).channels = s.channels := rfl
@[simp] theorem State.appended_colorspace (s : State) (p : Pixel) : (s.appended p).colorspace = s.colorspace := rfl
@[simp] theorem State.appended_pixTotal (s : State) (p : Pixel) : (s.appended p).pixTotal = s.pixTotal := rfl
@[simp] theorem State.appended_pixCount (s : State) (p : Pixel) : (s.appended p).pixCount = s.pixCount + 1 := rfl
@[simp] theorem State.appended_prev (s : State) (p : Pixel) : (s.appended p).prev = s.prev := rfl
@[simp] theorem State.appended_cache (s : State) (p : Pixel) : (s.appended p).cache = s.cache := rfl
@[simp] theorem State.appended_input (s : State) (p : Pixel) : (s.appended p).input = s.input := rfl
@[simp] theorem State.appended_output (s : State) (p : Pixel) :
    (s.appended p).output = Memory.writeBytes s.output s.outAddr p.bytes := rfl
@[simp] theorem State.appended_hostMoves (s : State) (p : Pixel) : (s.appended p).hostMoves = s.hostMoves := rfl
@[simp] theorem State.appended_readData (s : State) (p : Pixel) : (s.appended p).readData = s.readData := rfl
@[simp] theorem State.appended_draws (s : State) (p : Pixel) : (s.appended p).draws = s.draws := rfl

/-! ## fresh -/

@[simp] theorem State.fresh_cfg (s : State) : s.fresh.cfg = s.cfg := rfl
@[simp] theorem State.fresh_status (s : State) : s.fresh.status = .busy := rfl
@[simp] theorem State.fresh_errCode (s : State) : s.fresh.errCode = .noError := rfl
@[simp] theorem State.fresh_errPos (s : State) : s.fresh.errPos = 0 := rfl
@[simp] theorem State.fresh_phase (s : State) : s.fresh.phase = .hdr := rfl
@[simp] theorem State.fresh_runRemain (s : State) : s.fresh.runRemain = 0 := rfl
@[simp] theorem State.fresh_inPos (s : State) : s.fresh.inPos = 0 := rfl
@[simp] theorem State.fresh_inLen (s : State) : s.fresh.inLen = s.inLen := rfl
@[simp] theorem State.fresh_width (s : State) : s.fresh.width = 0 := rfl
@[simp] theorem State.fresh_height (s : State) : s.fresh.height = 0 := rfl
@[simp] theorem State.fresh_channels (s : State) : s.fresh.channels = 0 := rfl
@[simp] theorem State.fresh_colorspace (s : State) : s.fresh.colorspace = 0 := rfl
@[simp] theorem State.fresh_pixTotal (s : State) : s.fresh.pixTotal = 0 := rfl
@[simp] theorem State.fresh_pixCount (s : State) : s.fresh.pixCount = 0 := rfl
@[simp] theorem State.fresh_prev (s : State) : s.fresh.prev = Pixel.start := rfl
@[simp] theorem State.fresh_cache (s : State) : s.fresh.cache = emptyCache := rfl
@[simp] theorem State.fresh_input (s : State) : s.fresh.input = s.input := rfl
@[simp] theorem State.fresh_output (s : State) : s.fresh.output = s.output := rfl
@[simp] theorem State.fresh_hostMoves (s : State) : s.fresh.hostMoves = s.hostMoves := rfl
@[simp] theorem State.fresh_readData (s : State) : s.fresh.readData = s.readData := rfl
@[simp] theorem State.fresh_draws (s : State) : s.fresh.draws = s.draws := rfl

/-! ## assertReset -/

@[simp] theorem State.assertReset_cfg (s : State) : s.assertReset.cfg = s.cfg := rfl
@[simp] theorem State.assertReset_status (s : State) : s.assertReset.status = .idle := rfl
@[simp] theorem State.assertReset_errCode (s : State) : s.assertReset.errCode = .noError := rfl
@[simp] theorem State.assertReset_errPos (s : State) : s.assertReset.errPos = 0 := rfl
@[simp] theorem State.assertReset_phase (s : State) : s.assertReset.phase = .hdr := rfl
@[simp] theorem State.assertReset_runRemain (s : State) : s.assertReset.runRemain = 0 := rfl
@[simp] theorem State.assertReset_inPos (s : State) : s.assertReset.inPos = 0 := rfl
@[simp] theorem State.assertReset_inLen (s : State) : s.assertReset.inLen = 0 := rfl
@[simp] theorem State.assertReset_width (s : State) : s.assertReset.width = 0 := rfl
@[simp] theorem State.assertReset_height (s : State) : s.assertReset.height = 0 := rfl
@[simp] theorem State.assertReset_channels (s : State) : s.assertReset.channels = 0 := rfl
@[simp] theorem State.assertReset_colorspace (s : State) : s.assertReset.colorspace = 0 := rfl
@[simp] theorem State.assertReset_pixTotal (s : State) : s.assertReset.pixTotal = 0 := rfl
@[simp] theorem State.assertReset_pixCount (s : State) : s.assertReset.pixCount = 0 := rfl
@[simp] theorem State.assertReset_prev (s : State) : s.assertReset.prev = Config.unspecifiedPixel s.draws 64 := rfl
@[simp] theorem State.assertReset_cache (s : State) :
    s.assertReset.cache = Vector.ofFn fun i => Config.unspecifiedPixel s.draws i.val := rfl
@[simp] theorem State.assertReset_input (s : State) : s.assertReset.input = s.input := rfl
@[simp] theorem State.assertReset_output (s : State) : s.assertReset.output = s.output := rfl
@[simp] theorem State.assertReset_hostMoves (s : State) : s.assertReset.hostMoves = s.hostMoves := rfl
@[simp] theorem State.assertReset_readData (s : State) : s.assertReset.readData = s.readData := rfl
@[simp] theorem State.assertReset_draws (s : State) : s.assertReset.draws = s.draws + 1 := rfl

/-! ## acceptHeader -/

@[simp] theorem State.acceptHeader_cfg (s : State) : s.acceptHeader.cfg = s.cfg := rfl
@[simp] theorem State.acceptHeader_status (s : State) : s.acceptHeader.status = s.status := rfl
@[simp] theorem State.acceptHeader_errCode (s : State) : s.acceptHeader.errCode = s.errCode := rfl
@[simp] theorem State.acceptHeader_errPos (s : State) : s.acceptHeader.errPos = s.errPos := rfl
@[simp] theorem State.acceptHeader_phase (s : State) : s.acceptHeader.phase = .ops := rfl
@[simp] theorem State.acceptHeader_runRemain (s : State) : s.acceptHeader.runRemain = s.runRemain := rfl
@[simp] theorem State.acceptHeader_inPos (s : State) : s.acceptHeader.inPos = BitVec.ofNat 64 headerBytes := rfl
@[simp] theorem State.acceptHeader_inLen (s : State) : s.acceptHeader.inLen = s.inLen := rfl
@[simp] theorem State.acceptHeader_width (s : State) :
    s.acceptHeader.width = be32 (s.inByte 4) (s.inByte 5) (s.inByte 6) (s.inByte 7) := rfl
@[simp] theorem State.acceptHeader_height (s : State) :
    s.acceptHeader.height = be32 (s.inByte 8) (s.inByte 9) (s.inByte 10) (s.inByte 11) := rfl
@[simp] theorem State.acceptHeader_channels (s : State) : s.acceptHeader.channels = s.inByte 12 := rfl
@[simp] theorem State.acceptHeader_colorspace (s : State) : s.acceptHeader.colorspace = s.inByte 13 := rfl
@[simp] theorem State.acceptHeader_pixTotal (s : State) :
    s.acceptHeader.pixTotal = pixelTotal s.acceptHeader.width s.acceptHeader.height := rfl
@[simp] theorem State.acceptHeader_pixCount (s : State) : s.acceptHeader.pixCount = s.pixCount := rfl
@[simp] theorem State.acceptHeader_prev (s : State) : s.acceptHeader.prev = s.prev := rfl
@[simp] theorem State.acceptHeader_cache (s : State) : s.acceptHeader.cache = s.cache := rfl
@[simp] theorem State.acceptHeader_input (s : State) : s.acceptHeader.input = s.input := rfl
@[simp] theorem State.acceptHeader_output (s : State) : s.acceptHeader.output = s.output := rfl
@[simp] theorem State.acceptHeader_hostMoves (s : State) : s.acceptHeader.hostMoves = s.hostMoves := rfl
@[simp] theorem State.acceptHeader_readData (s : State) : s.acceptHeader.readData = s.readData := rfl
@[simp] theorem State.acceptHeader_draws (s : State) : s.acceptHeader.draws = s.draws := rfl

/-! ## remember -/

@[simp] theorem State.remember_cfg (s : State) (p : Pixel) (n : Nat) : (s.remember p n).cfg = s.cfg := rfl
@[simp] theorem State.remember_status (s : State) (p : Pixel) (n : Nat) : (s.remember p n).status = s.status := rfl
@[simp] theorem State.remember_errCode (s : State) (p : Pixel) (n : Nat) : (s.remember p n).errCode = s.errCode := rfl
@[simp] theorem State.remember_errPos (s : State) (p : Pixel) (n : Nat) : (s.remember p n).errPos = s.errPos := rfl
@[simp] theorem State.remember_phase (s : State) (p : Pixel) (n : Nat) : (s.remember p n).phase = s.phase := rfl
@[simp] theorem State.remember_runRemain (s : State) (p : Pixel) (n : Nat) :
    (s.remember p n).runRemain = s.runRemain := rfl
@[simp] theorem State.remember_inPos (s : State) (p : Pixel) (n : Nat) :
    (s.remember p n).inPos = s.inPos + BitVec.ofNat 64 n := rfl
@[simp] theorem State.remember_inLen (s : State) (p : Pixel) (n : Nat) : (s.remember p n).inLen = s.inLen := rfl
@[simp] theorem State.remember_width (s : State) (p : Pixel) (n : Nat) : (s.remember p n).width = s.width := rfl
@[simp] theorem State.remember_height (s : State) (p : Pixel) (n : Nat) : (s.remember p n).height = s.height := rfl
@[simp] theorem State.remember_channels (s : State) (p : Pixel) (n : Nat) :
    (s.remember p n).channels = s.channels := rfl
@[simp] theorem State.remember_colorspace (s : State) (p : Pixel) (n : Nat) :
    (s.remember p n).colorspace = s.colorspace := rfl
@[simp] theorem State.remember_pixTotal (s : State) (p : Pixel) (n : Nat) :
    (s.remember p n).pixTotal = s.pixTotal := rfl
@[simp] theorem State.remember_pixCount (s : State) (p : Pixel) (n : Nat) :
    (s.remember p n).pixCount = s.pixCount := rfl
@[simp] theorem State.remember_prev (s : State) (p : Pixel) (n : Nat) : (s.remember p n).prev = p := rfl
@[simp] theorem State.remember_cache (s : State) (p : Pixel) (n : Nat) :
    (s.remember p n).cache = s.cache.set (hashSlot p).val p (hashSlot p).isLt := rfl
@[simp] theorem State.remember_input (s : State) (p : Pixel) (n : Nat) : (s.remember p n).input = s.input := rfl
@[simp] theorem State.remember_output (s : State) (p : Pixel) (n : Nat) : (s.remember p n).output = s.output := rfl
@[simp] theorem State.remember_hostMoves (s : State) (p : Pixel) (n : Nat) :
    (s.remember p n).hostMoves = s.hostMoves := rfl
@[simp] theorem State.remember_readData (s : State) (p : Pixel) (n : Nat) :
    (s.remember p n).readData = s.readData := rfl
@[simp] theorem State.remember_draws (s : State) (p : Pixel) (n : Nat) : (s.remember p n).draws = s.draws := rfl

end Sys2Proof.Machine
end

