-- ==== Sys2Proof/Laws/Ops.lean ====
section
/-! SUPPORT. What each shared operation can do, said once. -/

namespace Sys2Proof.Machine

/-! ## The cache -/

theorem State.slot_put (s : State) (p : Pixel) (i : Fin 64) :
    (s.put p).slot i = if i = hashSlot p then p else s.slot i := by
  simp only [State.slot, State.put, Vector.getElem_set]
  by_cases h : i = hashSlot p
  · simp [h]
  · have : (hashSlot p).val ≠ i.val := fun e => h (Fin.ext e.symm)
    simp [h, this]

@[simp] theorem State.slot_remember (s : State) (p : Pixel) (n : Nat) (i : Fin 64) :
    (s.remember p n).slot i = if i = hashSlot p then p else s.slot i := s.slot_put p i

@[simp] theorem State.slot_appended (s : State) (p : Pixel) (i : Fin 64) : (s.appended p).slot i = s.slot i := rfl

@[simp] theorem State.slot_raise (s : State) (e : ErrCode) (pos : Word64) (i : Fin 64) :
    (s.raise e pos).slot i = s.slot i := rfl

theorem emptyCache_get (i : Fin 64) : emptyCache[i.val]'i.isLt = Pixel.zero := by simp [emptyCache]

theorem hashSlot_zero : hashSlot Pixel.zero = 0 := by decide

/-! ## The output -/

theorem State.outFits_iff (s : State) : s.outFits = true ↔ 4 * s.pixCount.toNat + 4 ≤ s.cfg.outCap := by
  unfold State.outFits State.outAddr
  exact decide_eq_true_iff

theorem State.append_of_fits {s : State} (p : Pixel) (rest : State → State) (h : s.outFits = true) :
    s.append p rest = .next (rest (s.appended p)) := by simp [State.append, h]

theorem State.append_of_full {s : State} (p : Pixel) (rest : State → State) (h : s.outFits = false) :
    s.append p rest = .fault .outputOverflow := by simp [State.append, h]

theorem State.append_next {s t : State} {p : Pixel} {rest : State → State} (h : s.append p rest = .next t) :
    s.outFits = true ∧ t = rest (s.appended p) := by
  unfold State.append at h
  split at h
  · exact ⟨‹_›, by injection h with h; exact h.symm⟩
  · cases h

theorem Pixel.bytes_length (p : Pixel) : p.bytes.length = 4 := rfl

theorem State.read_appended_pixel {s : State} (p : Pixel) (h : Memory.wf s.output = true) :
    Memory.readBytes (s.appended p).output s.outAddr 4 = p.bytes :=
  Memory.readBytes_writeBytes_same h s.outAddr p.bytes

theorem State.read_appended_other (s : State) (p : Pixel) {a : Nat} (h : a < s.outAddr ∨ s.outAddr + 4 ≤ a) :
    Memory.read (s.appended p).output a = Memory.read s.output a :=
  Memory.read_writeBytes_other s.output p.bytes (by rwa [Pixel.bytes_length])

/-! ## Commit and the truncation check -/

theorem State.needBytes_of_le {s : State} {n : Nat} (body : Outcome) (h : n ≤ s.avail) :
    s.needBytes n body = body := by simp [State.needBytes, Nat.not_lt.mpr h]

theorem State.needBytes_of_lt {s : State} {n : Nat} (body : Outcome) (h : s.avail < n) :
    s.needBytes n body = .next (s.raise .truncatedInput s.inPos) := by simp [State.needBytes, h]

theorem State.needBytes_next {s t : State} {n : Nat} {body : Outcome} (h : s.needBytes n body = .next t) :
    (s.avail < n ∧ t = s.raise .truncatedInput s.inPos) ∨ (n ≤ s.avail ∧ body = .next t) := by
  unfold State.needBytes at h
  split at h
  · exact .inl ⟨‹_›, by injection h with h; exact h.symm⟩
  · exact .inr ⟨by omega, h⟩

theorem State.commit_next {s t : State} {p : Pixel} {n : Nat} (h : s.commit p n = .next t) :
    s.outFits = true ∧ t = (s.appended p).remember p n := State.append_next h

theorem State.commit_of_fits {s : State} (p : Pixel) (n : Nat) (h : s.outFits = true) :
    s.commit p n = .next ((s.appended p).remember p n) := State.append_of_fits p _ h

theorem State.commit_of_full {s : State} (p : Pixel) (n : Nat) (h : s.outFits = false) :
    s.commit p n = .fault .outputOverflow := State.append_of_full p _ h

/-- The state after a commit is what `Commits` says. -/
theorem State.remember_commits {s : State} (p : Pixel) (n : Nat) (h : Memory.wf s.output = true) :
    Commits s ((s.appended p).remember p n) p n where
  pixel := State.read_appended_pixel p h
  otherBytes := fun _ ha => State.read_appended_other s p ha
  pixCount := rfl
  slot := by simp
  otherSlots := fun i hi => by simp [hi]
  prev := rfl
  inPos := rfl
  rest := rfl

end Sys2Proof.Machine
end

