-- ==== Sys2Proof/Laws/PerInstr.lean ====
section
/-! SUPPORT. What holds of every instruction as syntax, one lemma per constructor. -/

namespace Sys2Proof.Laws.ControlByte

/-- The first byte of a well-formed instruction selects its opcode (spec/30_encoding.md R93), and the instruction is as
long as that byte says (R100). -/
def Statement (i : Instr) : Prop :=
  i.wf = true → ∃ c tail, encode i = c :: tail ∧ classify c = i.opcode ∧ (encode i).length = oplen c

theorem rgb (r g b : Byte) : Statement (.rgb r g b) := fun _ => ⟨_, _, rfl, rfl, rfl⟩

theorem rgba (r g b a : Byte) : Statement (.rgba r g b a) := fun _ => ⟨_, _, rfl, rfl, rfl⟩

theorem index (k : Fin 64) : Statement (.index k) := fun _ =>
  have h := (classify_index k).1
  ⟨_, _, rfl, h, by rw [oplen, h]; rfl⟩

theorem diff (dr dg db : Int) : Statement (.diff dr dg db) := fun hw => by
  simp only [Instr.wf, diffDelta, Bool.and_eq_true, decide_eq_true_eq] at hw
  obtain ⟨⟨⟨hr1, hr2⟩, hg1, hg2⟩, hb1, hb2⟩ := hw
  obtain ⟨r, rfl⟩ := exists_field (bias := 2) (n := 4) hr1 (by omega)
  obtain ⟨g, rfl⟩ := exists_field (bias := 2) (n := 4) hg1 (by omega)
  obtain ⟨b, rfl⟩ := exists_field (bias := 2) (n := 4) hb1 (by omega)
  have h := (classify_diff r g b (byteOf (0x40 + ((r.val : Int) - 2 + 2) * 16 + ((g.val : Int) - 2 + 2) * 4 +
    ((b.val : Int) - 2 + 2))) (by congr 1; omega)).1
  exact ⟨_, _, rfl, h, by rw [oplen, h]; rfl⟩

theorem luma (dg drdg dbdg : Int) : Statement (.luma dg drdg dbdg) := fun hw => by
  simp only [Instr.wf, lumaGreenDelta, Bool.and_eq_true, decide_eq_true_eq] at hw
  obtain ⟨⟨⟨hg1, hg2⟩, -⟩, -⟩ := hw
  obtain ⟨g, rfl⟩ := exists_field (bias := 32) (n := 64) hg1 (by omega)
  have h := (classify_luma g (byteOf (0x80 + ((g.val : Int) - 32 + 32))) (by congr 1; omega)).1
  exact ⟨_, _, rfl, h, by rw [oplen, h]; rfl⟩

theorem run (n : Nat) : Statement (.run n) := fun hw => by
  simp only [Instr.wf, runLength, Bool.and_eq_true, decide_eq_true_eq] at hw
  have h := (classify_run ⟨n - 1, by omega⟩ (byteOf (0xC0 + ((n : Int) - 1))) (by congr 1; simp only; omega)).1
  exact ⟨_, _, rfl, h, by rw [oplen, h]; rfl⟩

end Sys2Proof.Laws.ControlByte
end

