-- ==== Sys2Proof/Laws/Step.lean ====
section
/-! SUPPORT. What one step can do: an inversion of `exec`, of the block's internal step and of a host move. -/

namespace Sys2Proof.Machine

theorem step_quiet {s : State} (h : s.hostMoves = []) : step s = blockStep s := by
  simp [step, fsmStep, h]

theorem step_move {s : State} {m : HostMove} {ms : List HostMove} (h : s.hostMoves = m :: ms) :
    step s = hostMove m blockStep { s with hostMoves := ms } := by
  simp [step, fsmStep, h]

theorem steps_zero (s : State) : steps 0 s = .next s := rfl

theorem steps_succ (n : Nat) (s : State) :
    steps (n + 1) s = (match step s with
      | .next t => steps n t
      | .fault f => .fault f
      | .refused r => .refused r) := by
  cases hs : step s <;> simp only [steps, Host.Core.run, show Sys2Proof.core.step s = _ from hs] <;> rfl

theorem steps_succ_of_next {n : Nat} {s t : State} (h : step s = .next t) : steps (n + 1) s = steps n t := by
  rw [steps_succ, h]

/-- Runs compose. -/
theorem steps_add {m n : Nat} {s t : State} (h : steps m s = .next t) : steps (m + n) s = steps n t := by
  induction m generalizing s with
  | zero =>
    rw [steps_zero] at h
    injection h with h
    rw [h, Nat.zero_add]
  | succ m ih =>
    rw [steps_succ] at h
    rw [Nat.succ_add, steps_succ]
    cases hs : step s with
    | next u => simp only [hs] at h; simpa using ih h
    | fault f => simp [hs] at h
    | refused r => simp [hs] at h

/-- What an opcode can do where it answers a next state: raise for want of bytes, load a run, or commit a pixel. -/
theorem exec_next {i : Instr} {s t : State} (h : exec i s = .next t) :
    (s.avail < i.opcode.length ∧ t = s.raise .truncatedInput s.inPos) ∨
    (∃ n, i = .run n ∧ t = State.advance { s with runRemain := BitVec.ofNat 6 n, phase := .runEmit } 1) ∨
    (∃ p, s.outFits = true ∧ t = (s.appended p).remember p i.opcode.length ∧ ∀ n, i ≠ .run n) := by
  cases i with
  | rgb r g b =>
    obtain ⟨h1, h2⟩ | ⟨-, h2⟩ := State.needBytes_next h
    · exact .inl ⟨h1, h2⟩
    · exact .inr (.inr ⟨_, (State.commit_next h2).1, (State.commit_next h2).2, by simp⟩)
  | rgba r g b a =>
    obtain ⟨h1, h2⟩ | ⟨-, h2⟩ := State.needBytes_next h
    · exact .inl ⟨h1, h2⟩
    · exact .inr (.inr ⟨_, (State.commit_next h2).1, (State.commit_next h2).2, by simp⟩)
  | index k => exact .inr (.inr ⟨_, (State.commit_next h).1, (State.commit_next h).2, by simp⟩)
  | diff dr dg db => exact .inr (.inr ⟨_, (State.commit_next h).1, (State.commit_next h).2, by simp⟩)
  | luma dg drdg dbdg =>
    obtain ⟨h1, h2⟩ | ⟨-, h2⟩ := State.needBytes_next h
    · exact .inl ⟨h1, h2⟩
    · exact .inr (.inr ⟨_, (State.commit_next h2).1, (State.commit_next h2).2, by simp⟩)
  | run n =>
    injection h with h
    exact .inr (.inl ⟨n, rfl, h.symm⟩)

/-- What the header step can do. -/
theorem headerStep_cases (s : State) :
    (∃ e pos, headerStep s = s.raise e pos ∧ e ≠ .noError) ∨
    (headerBytes ≤ s.inLen.toNat ∧ s.inBytes 0 4 = s.cfg.magic.toList ∧ headerStep s = s.acceptHeader) := by
  unfold headerStep
  split_ifs with h1 h2 h3 h4 h5 h6
  all_goals first
    | exact .inl ⟨_, _, rfl, by decide⟩
    | exact .inr ⟨by simp only [headerBytes]; omega, by simpa using h2, rfl⟩

/-- What the END step can do. -/
theorem endStep_cases (s : State) :
    endStep s = s.raise .invalidEndMarker s.inPos ∨
    (s.avail = 8 ∧ s.inBytes s.inPos.toNat 8 = endMarker ∧ endStep s = { s with inPos := s.inLen, status := .done }) := by
  unfold endStep
  split_ifs with h1 h2
  · exact .inl rfl
  · exact .inl rfl
  · exact .inr ⟨by simpa using h1, by simpa using h2, rfl⟩

/-- What a dispatch can do where it answers a next state. -/
theorem dispatch_next {s t : State} (h : dispatch s = .next t) :
    t = s.raise .truncatedInput s.inPos ∨ ∃ i rest, decode s.window = .instr i rest ∧ exec i s = .next t := by
  unfold dispatch at h
  split at h
  · exact .inr ⟨_, _, ‹_›, h⟩
  · injection h with h
    exact .inl h.symm

/-- What the block's internal step can do where it answers a next state. -/
theorem blockStep_next {s t : State} (h : blockStep s = .next t) :
    (s.status ≠ .busy ∧ t = s) ∨
    (s.status = .busy ∧ s.phase = .hdr ∧ t = headerStep s) ∨
    (s.status = .busy ∧ s.phase = .ops ∧ s.pixCount = s.pixTotal ∧ t = { s with phase := .endMarker }) ∨
    (s.status = .busy ∧ s.phase = .ops ∧ s.pixCount ≠ s.pixTotal ∧ dispatch s = .next t) ∨
    (s.status = .busy ∧ s.phase = .runEmit ∧ s.outFits = true ∧ t = (s.appended s.prev).countRun) ∨
    (s.status = .busy ∧ s.phase = .endMarker ∧ t = endStep s) := by
  unfold blockStep at h
  cases hs : s.status with
  | busy =>
    cases hp : s.phase with
    | hdr =>
      simp only [hs, hp] at h
      injection h with h
      simp [h]
    | ops =>
      simp only [hs, hp, opsStep] at h
      split at h
      · injection h with h
        simp_all
      · simp_all
    | runEmit =>
      simp only [hs, hp, runEmitStep] at h
      have := State.append_next h
      simp_all
    | endMarker =>
      simp only [hs, hp] at h
      injection h with h
      simp [h]
  | idle => simp only [hs] at h; injection h with h; simp [h]
  | done => simp only [hs] at h; injection h with h; simp [h]
  | error => simp only [hs] at h; injection h with h; simp [h]

/-- The block's own step never refuses. -/
theorem blockStep_not_refused (s : State) (r : Refusal) : blockStep s ≠ .refused r := by
  have happend : ∀ (u : State) (p : Pixel) (f : State → State), u.append p f ≠ .refused r := by
    intro u p f h
    unfold State.append at h
    split at h <;> cases h
  have hcommit : ∀ (u : State) (p : Pixel) (n : Nat), u.commit p n ≠ .refused r := fun u p n => happend u p _
  have hneed : ∀ (u : State) (n : Nat) (body : Outcome), u.needBytes n body = .refused r → body = .refused r := by
    intro u n body h
    unfold State.needBytes at h
    split at h
    · cases h
    · exact h
  have hexec : ∀ i, exec i s ≠ .refused r := by
    intro i h
    cases i with
    | rgb => exact hcommit _ _ _ (hneed _ _ _ h)
    | rgba => exact hcommit _ _ _ (hneed _ _ _ h)
    | index => exact hcommit _ _ _ h
    | diff => exact hcommit _ _ _ h
    | luma => exact hcommit _ _ _ (hneed _ _ _ h)
    | run => cases h
  intro h
  unfold blockStep at h
  cases hs : s.status with
  | busy =>
    cases hp : s.phase with
    | hdr => simp [hs, hp] at h
    | ops =>
      simp only [hs, hp, opsStep, dispatch] at h
      split at h
      · cases h
      · split at h
        · exact hexec _ h
        · cases h
    | runEmit =>
      simp only [hs, hp] at h
      exact happend _ _ _ h
    | endMarker => simp [hs, hp] at h
  | idle => simp [hs] at h
  | done => simp [hs] at h
  | error => simp [hs] at h

/-! ## Run emission -/

/-- What counting down a run does: it changes `RUN_REMAIN` and `PHASE` and nothing else. -/
theorem State.countRun_eq (s : State) :
    s.countRun = { s with runRemain := s.countRun.runRemain, phase := s.countRun.phase } := by
  unfold State.countRun
  split <;> rfl

theorem State.countRun_ends {s : State} (h : s.runRemain - 1 = 0 ∨ s.pixCount = s.pixTotal) :
    s.countRun = { s with runRemain := 0, phase := .ops } := by
  unfold State.countRun
  exact if_pos h

theorem State.countRun_goes_on {s : State} (h : ¬(s.runRemain - 1 = 0 ∨ s.pixCount = s.pixTotal)) :
    s.countRun = { s with runRemain := s.runRemain - 1 } := by
  unfold State.countRun
  exact if_neg h

/-! ## The host -/

theorem State.isBusy_iff (s : State) : s.isBusy = true ↔ s.status = .busy := by simp [State.isBusy]

theorem State.start_of_busy {s : State} (h : s.status = .busy) : s.start = s := by
  unfold State.start
  exact if_pos (s.isBusy_iff.mpr h)

theorem State.start_of_not_busy {s : State} (h : s.status ≠ .busy) : s.start = s.fresh := by
  unfold State.start
  exact if_neg fun e => h (s.isBusy_iff.mp e)

/-- What a register write can do: nothing, a new `IN_LEN`, or START. -/
theorem State.regWrite_cases (s : State) (n : Nat) (v : Word64) :
    s.regWrite n v = s ∨
    (n = 2 ∧ s.status ≠ .busy ∧ s.regWrite n v = { s with inLen := v }) ∨
    (n = 0 ∧ v[0] = true ∧ s.status ≠ .busy ∧ s.regWrite n v = s.fresh) := by
  have hb := s.isBusy_iff
  unfold State.regWrite
  split
  · split
    · by_cases h : s.status = .busy
      · exact .inl (State.start_of_busy h)
      · exact .inr (.inr ⟨rfl, ‹_›, h, State.start_of_not_busy h⟩)
    · exact .inl rfl
  · split
    · exact .inl rfl
    · rename_i h
      exact .inr (.inl ⟨rfl, fun e => h (hb.mpr e), rfl⟩)
  · exact .inl rfl

/-- What a host move can do where it answers a next state. -/
theorem hostMove_next {s t : State} {m : HostMove} {block : State → Outcome} (h : hostMove m block s = .next t) :
    (m = .noMove ∧ block s = .next t) ∨
    (∃ n, m = .readReg n ∧ t = { s with readData := s.regRead n }) ∨
    (∃ n v, m = .writeReg n v ∧ t = s.regWrite n v) ∨
    (∃ a b, m = .writeIn a b ∧ s.status ≠ .busy ∧ t = { s with input := Memory.write s.input a.toNat b }) ∨
    (∃ a, m = .readIn a ∧ t = { s with readData := (s.inByte a.toNat).setWidth 64 }) ∨
    (∃ a b, m = .writeOut a b ∧ s.status ≠ .busy ∧ a < s.cfg.outCap ∧
      t = { s with output := Memory.write s.output a b }) ∨
    (∃ a, m = .readOut a ∧ a < s.cfg.outCap ∧ ∃ x d, t = { s with readData := x, draws := d }) ∨
    (m = .reset ∧ t = s.assertReset) := by
  have hb := s.isBusy_iff
  cases m with
  | noMove => exact .inl ⟨rfl, h⟩
  | readReg n =>
    injection h with h
    exact .inr (.inl ⟨n, rfl, h.symm⟩)
  | writeReg n v =>
    injection h with h
    exact .inr (.inr (.inl ⟨n, v, rfl, h.symm⟩))
  | writeIn a b =>
    simp only [hostMove, State.hostWriteIn] at h
    split at h
    · cases h
    · rename_i hn
      injection h with h
      exact .inr (.inr (.inr (.inl ⟨a, b, rfl, fun e => hn (hb.mpr e), h.symm⟩)))
  | readIn a =>
    injection h with h
    exact .inr (.inr (.inr (.inr (.inl ⟨a, rfl, h.symm⟩))))
  | writeOut a b =>
    simp only [hostMove, State.hostWriteOut] at h
    split at h
    · cases h
    · split at h
      · cases h
      · rename_i hn hc
        injection h with h
        exact .inr (.inr (.inr (.inr (.inr (.inl ⟨a, b, rfl, fun e => hn (hb.mpr e), by omega, h.symm⟩)))))
  | readOut a =>
    simp only [hostMove, State.hostReadOut] at h
    split at h
    · cases h
    · rename_i hc
      split at h
      · injection h with h
        exact .inr (.inr (.inr (.inr (.inr (.inr (.inl ⟨a, rfl, by omega, _, _, h.symm⟩))))))
      · injection h with h
        exact .inr (.inr (.inr (.inr (.inr (.inr (.inl ⟨a, rfl, by omega, _, s.draws, h.symm⟩))))))
  | reset =>
    injection h with h
    exact .inr (.inr (.inr (.inr (.inr (.inr (.inr ⟨rfl, h.symm⟩))))))

/-- What a step can do where it answers a next state: the block's own step, with or without a move that lets it, or a
move of the host. -/
theorem step_next {s t : State} (h : step s = .next t) :
    (∃ u, (u = s ∨ ∃ ms, s.hostMoves = .noMove :: ms ∧ u = { s with hostMoves := ms }) ∧ blockStep u = .next t) ∨
    (∃ m ms, s.hostMoves = m :: ms ∧ m ≠ .noMove ∧ hostMove m blockStep { s with hostMoves := ms } = .next t) := by
  cases hm : s.hostMoves with
  | nil =>
    rw [step_quiet hm] at h
    exact .inl ⟨s, .inl rfl, h⟩
  | cons m ms =>
    rw [step_move hm] at h
    by_cases he : m = .noMove
    · subst he
      exact .inl ⟨_, .inr ⟨ms, rfl, rfl⟩, h⟩
    · exact .inr ⟨m, ms, rfl, he, h⟩

/-! ## What a step does to the memories -/

theorem headerStep_memories (s : State) :
    (headerStep s).cfg = s.cfg ∧ (headerStep s).input = s.input ∧ (headerStep s).output = s.output := by
  obtain ⟨e, pos, h, -⟩ | ⟨-, -, h⟩ := headerStep_cases s <;> rw [h] <;> exact ⟨rfl, rfl, rfl⟩

theorem endStep_memories (s : State) :
    (endStep s).cfg = s.cfg ∧ (endStep s).input = s.input ∧ (endStep s).output = s.output := by
  obtain h | ⟨-, -, h⟩ := endStep_cases s <;> rw [h] <;> exact ⟨rfl, rfl, rfl⟩

/-- The block's own step keeps the parameters and `IN`, and of `OUT` it writes at most the next pixel, where it fits. -/
theorem blockStep_memories {s t : State} (h : blockStep s = .next t) :
    t.cfg = s.cfg ∧ t.input = s.input ∧
      (t.output = s.output ∨
        s.outFits = true ∧ ∃ p : Pixel, t.output = Memory.writeBytes s.output s.outAddr p.bytes) := by
  obtain ⟨-, rfl⟩ | ⟨-, -, rfl⟩ | ⟨-, -, -, rfl⟩ | ⟨-, -, -, hd⟩ | ⟨-, -, hf, rfl⟩ | ⟨-, -, rfl⟩ := blockStep_next h
  · exact ⟨rfl, rfl, .inl rfl⟩
  · exact ⟨(headerStep_memories s).1, (headerStep_memories s).2.1, .inl (headerStep_memories s).2.2⟩
  · exact ⟨rfl, rfl, .inl rfl⟩
  · obtain rfl | ⟨i, rest, -, he⟩ := dispatch_next hd
    · exact ⟨rfl, rfl, .inl rfl⟩
    · obtain ⟨-, rfl⟩ | ⟨n, -, rfl⟩ | ⟨p, hf, rfl, -⟩ := exec_next he
      · exact ⟨rfl, rfl, .inl rfl⟩
      · exact ⟨rfl, rfl, .inl rfl⟩
      · exact ⟨rfl, rfl, .inr ⟨hf, p, rfl⟩⟩
  · rw [State.countRun_eq]
    exact ⟨rfl, rfl, .inr ⟨hf, s.prev, rfl⟩⟩
  · exact ⟨(endStep_memories s).1, (endStep_memories s).2.1, .inl (endStep_memories s).2.2⟩

/-- A step keeps the parameters; `IN` changes only by the host's own write, and `OUT` only by the next pixel, where it
fits, or by the host's own write. -/
theorem step_memories {s t : State} (h : step s = .next t) :
    t.cfg = s.cfg ∧
      (t.input = s.input ∨
        ∃ a b ms, s.hostMoves = .writeIn a b :: ms ∧ t.input = Memory.write s.input a.toNat b) ∧
      (t.output = s.output ∨
        (s.outFits = true ∧ ∃ p : Pixel, t.output = Memory.writeBytes s.output s.outAddr p.bytes) ∨
        ∃ a b ms, s.hostMoves = .writeOut a b :: ms ∧ a < s.cfg.outCap ∧ t.output = Memory.write s.output a b) := by
  obtain ⟨u, hu, hb⟩ | ⟨m, ms, hm, hne, hh⟩ := step_next h
  · obtain ⟨h1, h2, h3⟩ := blockStep_memories hb
    obtain rfl | ⟨ms, -, rfl⟩ := hu
    · exact ⟨h1, .inl h2, h3.elim .inl fun h => .inr (.inl h)⟩
    · exact ⟨h1, .inl h2, h3.elim .inl fun h => .inr (.inl h)⟩
  · obtain ⟨rfl, -⟩ | ⟨n, -, rfl⟩ | ⟨n, v, -, rfl⟩ | ⟨a, b, rfl, -, rfl⟩ | ⟨a, -, rfl⟩ | ⟨a, b, rfl, -, ha, rfl⟩ |
      ⟨a, -, -, x, d, rfl⟩ | ⟨-, rfl⟩ := hostMove_next hh
    · exact absurd rfl hne
    · exact ⟨rfl, .inl rfl, .inl rfl⟩
    · obtain e | ⟨-, -, e⟩ | ⟨-, -, -, e⟩ := State.regWrite_cases { s with hostMoves := ms } n v <;> rw [e] <;>
        exact ⟨rfl, .inl rfl, .inl rfl⟩
    · exact ⟨rfl, .inr ⟨a, b, ms, hm, rfl⟩, .inl rfl⟩
    · exact ⟨rfl, .inl rfl, .inl rfl⟩
    · exact ⟨rfl, .inl rfl, .inr (.inr ⟨a, b, ms, hm, ha, rfl⟩)⟩
    · exact ⟨rfl, .inl rfl, .inl rfl⟩
    · exact ⟨rfl, .inl rfl, .inl rfl⟩

/-- A step lists no offset of `OUT` that there is not. -/
theorem step_output_inside {s t : State} (h : step s = .next t) (hs : ∀ c ∈ s.output, c.1 < s.cfg.outCap) :
    ∀ c ∈ t.output, c.1 < t.cfg.outCap := by
  obtain ⟨hc, -, e | ⟨hf, p, e⟩ | ⟨a, b, ms, -, ha, e⟩⟩ := step_memories h
  · rw [hc, e]
    exact hs
  · have hfit := s.outFits_iff.mp hf
    rw [hc, e]
    refine Memory.writeBytes_forall (P := fun k => k < s.cfg.outCap) hs fun k hk => ?_
    simp only [Pixel.bytes_length] at hk
    simp only [State.outAddr]
    omega
  · rw [hc, e]
    exact Memory.write_forall (P := fun k => k < s.cfg.outCap) hs ha

end Sys2Proof.Machine
end

