-- ==== Sys2Proof/Laws/Platform.lean ====
section
/-! SUPPORT. Reading through a window of a memory, what storing an instance does to the platform, and what a step of the
platform can do. -/

namespace Sys2Proof.Machine

/-! ## Windows of a memory -/

namespace Memory

theorem read_window (m : Memory) (base size k : Nat) :
    Memory.read (Memory.window m base size) k = if k < size then Memory.read m (base + k) else unlisted := by
  induction m with
  | nil => simp [Memory.window]
  | cons c m ih =>
    obtain ⟨a, v⟩ := c
    unfold Memory.window at ih ⊢
    by_cases hin : base ≤ a ∧ a < base + size
    · rw [List.filter_cons_of_pos (by simpa using hin), List.map_cons, Memory.read, ih, Memory.read]
      split_ifs <;> first | rfl | omega
    · rw [List.filter_cons_of_neg (by simpa using hin), ih, Memory.read]
      split_ifs <;> first | rfl | omega

theorem window_forall (m : Memory) (base size : Nat) : ∀ c ∈ Memory.window m base size, c.1 < size := by
  simp only [Memory.window, List.mem_map, List.mem_filter, Bool.and_eq_true, decide_eq_true_eq]
  rintro c ⟨d, ⟨-, h1, h2⟩, rfl⟩
  simp only
  omega

/-- Where the second part does not list an offset, the first part is read. -/
theorem read_append_left (m : Memory) {m' : Memory} {a : Nat} (h : ∀ c ∈ m', c.1 ≠ a) :
    Memory.read (m ++ m') a = Memory.read m a := by
  induction m with
  | nil =>
    induction m' with
    | nil => rfl
    | cons c m' ih => exact (read_cons_ne c.2 m' (h c (by simp))).trans (ih fun d hd => h d (by simp [hd]))
  | cons c m ih => rw [List.cons_append, Memory.read, ih, Memory.read]

/-- Where the first part does not list an offset, the second part is read. -/
theorem read_append_right {m : Memory} (m' : Memory) {a : Nat} (h : ∀ c ∈ m, c.1 ≠ a) :
    Memory.read (m ++ m') a = Memory.read m' a := by
  induction m with
  | nil => rfl
  | cons c m ih =>
    exact (read_cons_ne c.2 (m ++ m') (h c (by simp))).trans (ih fun d hd => h d (by simp [hd]))

/-- Dropping other offsets does not change what an offset reads as. -/
theorem read_filter (m : Memory) {keep : Host.Cell → Bool} {a : Nat} (h : ∀ v, keep (a, v) = true) :
    Memory.read (m.filter keep) a = Memory.read m a := by
  induction m with
  | nil => rfl
  | cons c m ih =>
    obtain ⟨k, v⟩ := c
    by_cases hk : keep (k, v) = true
    · rw [List.filter_cons_of_pos hk, Memory.read, ih, Memory.read]
    · have : k ≠ a := fun e => hk (e ▸ h v)
      rw [List.filter_cons_of_neg hk, ih, read_cons_ne v m this]

theorem read_shift (w : Memory) (base k : Nat) :
    Memory.read (w.map fun c => (base + c.1, c.2)) (base + k) = Memory.read w k := by
  induction w with
  | nil => rfl
  | cons c w ih =>
    rw [List.map_cons, Memory.read, ih, Memory.read]
    simp

/-- Inside the window, a memory with a window put in reads as the window. -/
theorem read_putWindow_inside (m : Memory) (base size : Nat) (w : Memory) {k : Nat} (hk : k < size) :
    Memory.read (Memory.putWindow m base size w) (base + k) = Memory.read w k := by
  rw [Memory.putWindow, read_append_left, read_append_right, read_shift]
  · simp only [List.mem_filter, decide_eq_true_eq]
    omega
  · simp only [List.mem_filter, decide_eq_true_eq]
    omega

/-- Outside the window, it reads as before. -/
theorem read_putWindow_outside (m : Memory) {base size a : Nat} {w : Memory} (hw : ∀ c ∈ w, c.1 < size)
    (h : a < base ∨ base + size ≤ a) : Memory.read (Memory.putWindow m base size w) a = Memory.read m a := by
  have hmid : ∀ c ∈ w.map fun c => (base + c.1, c.2), c.1 ≠ a := by
    simp only [List.mem_map]
    rintro c ⟨d, hd, rfl⟩
    have := hw d hd
    simp only
    omega
  rcases h with h | h
  · rw [Memory.putWindow, read_append_left, read_append_left _ hmid, read_filter _ (by simpa using h)]
    simp only [List.mem_filter, decide_eq_true_eq]
    omega
  · rw [Memory.putWindow, read_append_right, read_filter _ (by simpa using h)]
    simp only [List.mem_append, List.mem_filter, decide_eq_true_eq]
    rintro c (⟨-, hc⟩ | hc)
    · omega
    · exact hmid c hc

/-- What was put into a window reads back as it was. -/
theorem window_putWindow_same (m : Memory) (base size : Nat) {w : Memory} (hw : ∀ c ∈ w, c.1 < size) :
    Memory.window (Memory.putWindow m base size w) base size = w := by
  have h1 : (m.filter fun c => decide (c.1 < base)).filter
      (fun c => decide (base ≤ c.1) && decide (c.1 < base + size)) = [] := by
    simp only [List.filter_filter, List.filter_eq_nil_iff, Bool.and_eq_true, decide_eq_true_eq]
    intros
    omega
  have h3 : (m.filter fun c => decide (base + size ≤ c.1)).filter
      (fun c => decide (base ≤ c.1) && decide (c.1 < base + size)) = [] := by
    simp only [List.filter_filter, List.filter_eq_nil_iff, Bool.and_eq_true, decide_eq_true_eq]
    intros
    omega
  have h2 : (w.map fun c => (base + c.1, c.2)).filter
      (fun c => decide (base ≤ c.1) && decide (c.1 < base + size)) = w.map fun c => (base + c.1, c.2) := by
    rw [List.filter_eq_self]
    simp only [List.mem_map, Bool.and_eq_true, decide_eq_true_eq]
    rintro c ⟨d, hd, rfl⟩
    have := hw d hd
    simp only
    omega
  simp [Memory.window, Memory.putWindow, h1, h2, h3, Function.comp_def]

theorem wf_iff {m : Memory} :
    Memory.wf m = true ↔ (∀ c ∈ m, c.2 ≠ unlisted) ∧ m.Pairwise fun c d => c.1 < d.1 := by
  induction m with
  | nil => simp
  | cons c m ih =>
    obtain ⟨k, v⟩ := c
    rw [wf_cons, ih, List.pairwise_cons]
    simp only [List.mem_cons, forall_eq_or_imp]
    tauto

/-- The canonical form holds of every window of a memory that has it. -/
theorem window_wf {m : Memory} (h : Memory.wf m = true) (base size : Nat) :
    Memory.wf (Memory.window m base size) = true := by
  rw [wf_iff] at h ⊢
  simp only [Memory.window, List.mem_map, List.mem_filter, List.pairwise_map, Bool.and_eq_true, decide_eq_true_eq]
  refine ⟨?_, ?_⟩
  · rintro c ⟨d, ⟨hd, -⟩, rfl⟩
    exact h.1 d hd
  · refine (h.2.filter _).imp_of_mem fun {c d} hc hd hcd => ?_
    simp only [List.mem_filter, Bool.and_eq_true, decide_eq_true_eq] at hc
    omega

/-- Putting a window keeps the canonical form. -/
theorem putWindow_wf {m w : Memory} (h : Memory.wf m = true) (hw : Memory.wf w = true) (base size : Nat)
    (hs : ∀ c ∈ w, c.1 < size) : Memory.wf (Memory.putWindow m base size w) = true := by
  rw [wf_iff] at h hw ⊢
  constructor
  · simp only [Memory.putWindow, List.mem_append, List.mem_filter, List.mem_map]
    rintro c ((⟨hc, -⟩ | ⟨d, hd, rfl⟩) | ⟨hc, -⟩)
    · exact h.1 c hc
    · exact hw.1 d hd
    · exact h.1 c hc
  · simp only [Memory.putWindow, List.pairwise_append, List.mem_append, List.mem_filter, List.mem_map,
      decide_eq_true_eq]
    refine ⟨⟨h.2.filter _, ?_, ?_⟩, h.2.filter _, ?_⟩
    · rw [List.pairwise_map]
      exact hw.2.imp fun hcd => by simpa using hcd
    · rintro c ⟨-, hc⟩ d ⟨e, -, rfl⟩
      simp only
      omega
    · rintro c (⟨-, hc⟩ | ⟨e, he, rfl⟩) d ⟨-, hd⟩
      · omega
      · have := hs e he
        simp only
        omega

end Memory

/-! ## An instance and what it reaches -/

@[simp] theorem Platform.view_cfg (p : Platform) (s : State) : (p.view s).cfg = s.cfg := rfl
@[simp] theorem Platform.view_status (p : Platform) (s : State) : (p.view s).status = s.status := rfl
@[simp] theorem Platform.view_inLen (p : Platform) (s : State) : (p.view s).inLen = s.inLen := rfl
@[simp] theorem Platform.view_hostMoves (p : Platform) (s : State) : (p.view s).hostMoves = s.hostMoves := rfl
@[simp] theorem Platform.view_bare (p : Platform) (s : State) : p.view s.bare = p.view s := rfl

/-- What an instance reads at an offset of `IN` is what stands at its platform address. -/
theorem Platform.view_inByte (p : Platform) (s : State) (k : Nat) :
    (p.view s).inByte k = if k < inSpan then Memory.read p.input (s.inAddress k) else unlisted :=
  Memory.read_window p.input s.cfg.inBase inSpan k

/-- What stands at an offset of an instance's `OUT` is what stands at its platform address. -/
theorem Platform.view_outByte (p : Platform) (s : State) (k : Nat) :
    Memory.read (p.view s).output k = if k < s.cfg.outCap then Memory.read p.output (s.outAddress k) else unlisted :=
  Memory.read_window p.output s.cfg.outBase s.cfg.outCap k

theorem Platform.block_eq_some {p : Platform} {k : Nat} {s : State} (h : p.block k = some s) :
    ∃ u, p.instances[k]? = some u ∧ s = p.view u := by
  obtain ⟨u, hu, rfl⟩ := Option.map_eq_some_iff.mp h
  exact ⟨u, hu, rfl⟩

/-- An instance's views list nothing outside its spaces. -/
theorem Platform.block_inside {p : Platform} {k : Nat} {s : State} (h : p.block k = some s) :
    (∀ c ∈ s.input, c.1 < inSpan) ∧ ∀ c ∈ s.output, c.1 < s.cfg.outCap := by
  obtain ⟨u, -, rfl⟩ := block_eq_some h
  exact ⟨Memory.window_forall p.input u.cfg.inBase inSpan, Memory.window_forall p.output u.cfg.outBase u.cfg.outCap⟩

/-- The instance that was stored is the one that is there. -/
theorem Platform.block_store_same {p : Platform} {k : Nat} {t : State} (hk : k < p.instances.length)
    (hi : ∀ c ∈ t.input, c.1 < inSpan) (ho : ∀ c ∈ t.output, c.1 < t.cfg.outCap) : (p.store k t).block k = some t := by
  have hin : Memory.window (p.store k t).input t.cfg.inBase inSpan = t.input := Memory.window_putWindow_same _ _ _ hi
  have hout : Memory.window (p.store k t).output t.cfg.outBase t.cfg.outCap = t.output :=
    Memory.window_putWindow_same _ _ _ ho
  rw [Platform.block, show (p.store k t).instances = p.instances.set k t.bare from rfl, List.getElem?_set_self hk,
    Option.map_some, Platform.view_bare, Platform.view, hin, hout]
  rfl

/-- Every other instance is the same block in the new memories. -/
theorem Platform.block_store_other {p : Platform} {k j : Nat} {t u : State} (hj : j ≠ k)
    (hu : p.instances[j]? = some u) : (p.store k t).block j = some ((p.store k t).view u) := by
  rw [Platform.block, show (p.store k t).instances = p.instances.set k t.bare from rfl,
    List.getElem?_set_ne (Ne.symm hj), hu, Option.map_some]

/-- What an instance does where the host's read does not race with another instance. -/
theorem Platform.stepOf_of_quiet {p : Platform} {s : State} (h : p.readsUnderBusy s = false) : p.stepOf s = step s := by
  simp [Platform.stepOf, h]

/-- What the host reads where it does: some byte, and nothing else changes. -/
theorem Platform.stepOf_of_race {p : Platform} {s : State} (h : p.readsUnderBusy s = true) :
    p.stepOf s = .next { s with
      hostMoves := s.hostMoves.tail, readData := (Config.racingByte s.draws).setWidth 64, draws := s.draws + 1 } := by
  simp [Platform.stepOf, h, State.racingRead]

/-- A block reading its own `OUT` while BUSY answers what the platform answers: its step already reads any value. -/
theorem Platform.stepOf_of_busy {p : Platform} {s : State} (h : s.status = .busy) : p.stepOf s = step s := by
  unfold Platform.stepOf
  split
  · rename_i hr
    unfold Platform.readsUnderBusy at hr
    split at hr
    · rename_i offset ms hm
      simp only [Bool.and_eq_true, decide_eq_true_eq] at hr
      simp [step, fsmStep, hm, hostMove, State.hostReadOut, State.isBusy, h, hr.1]
    · cases hr
  · rfl

theorem State.outOverlap_comm (s t : State) : s.outOverlap t = t.outOverlap s := by
  simp only [State.outOverlap, max_comm, min_comm]

/-- What it takes for a step to be refused for want of disjoint `OUT` regions. -/
theorem Platform.overlapsBusy_iff {p : Platform} {k : Nat} {t : State} :
    p.overlapsBusy k t = true ↔
      t.status = .busy ∧
        ∃ j u, j ≠ k ∧ p.instances[j]? = some u ∧ u.status = .busy ∧ t.outOverlap u = true := by
  simp only [overlapsBusy, Bool.and_eq_true, State.isBusy_iff, List.any_eq_true, List.mem_eraseIdx_iff_getElem?]
  constructor
  · rintro ⟨ht, u, ⟨j, hj, hu⟩, hb, ho⟩
    exact ⟨ht, j, u, hj, hu, hb, ho⟩
  · rintro ⟨ht, j, u, hj, hu, hb, ho⟩
    exact ⟨ht, u, ⟨j, hj, hu⟩, hb, ho⟩

/-- A step of the platform is the instance's step where the host keeps its duties. -/
theorem Platform.stepAt_of_next {p : Platform} {k : Nat} {s t : State} (hs : p.block k = some s)
    (hw : p.writesUnderBusy s = false) (ht : p.stepOf s = .next t) (ho : p.overlapsBusy k t = false) :
    p.stepAt k = .next (p.store k t) := by
  simp [Platform.stepAt, hs, hw, ht, ho]

/-- What a step of the platform can do where it answers a next platform and the instance is there. -/
theorem Platform.stepAt_next {p q : Platform} {k : Nat} {s : State} (hs : p.block k = some s)
    (h : p.stepAt k = .next q) :
    p.writesUnderBusy s = false ∧ ∃ t, p.stepOf s = .next t ∧ p.overlapsBusy k t = false ∧ q = p.store k t := by
  simp only [Platform.stepAt, hs] at h
  split at h
  · cases h
  · refine ⟨by simpa using ‹¬p.writesUnderBusy s = true›, ?_⟩
    cases ht : p.stepOf s with
    | next t =>
      simp only [ht] at h
      split at h
      · cases h
      · rename_i ho
        injection h with h
        exact ⟨t, rfl, by simpa using ho, h.symm⟩
    | fault f => simp [ht] at h
    | refused r => simp [ht] at h

/-- What a step of an instance of the platform does to the memories: what a step of the block does. -/
theorem Platform.stepOf_memories {p : Platform} {s t : State} (h : p.stepOf s = .next t) :
    t.cfg = s.cfg ∧
      (t.input = s.input ∨
        ∃ a b ms, s.hostMoves = .writeIn a b :: ms ∧ t.input = Memory.write s.input a.toNat b) ∧
      (t.output = s.output ∨
        (s.outFits = true ∧ ∃ x : Pixel, t.output = Memory.writeBytes s.output s.outAddr x.bytes) ∨
        ∃ a b ms, s.hostMoves = .writeOut a b :: ms ∧ a < s.cfg.outCap ∧ t.output = Memory.write s.output a b) ∧
      ((∀ c ∈ s.output, c.1 < s.cfg.outCap) → ∀ c ∈ t.output, c.1 < t.cfg.outCap) := by
  cases hr : p.readsUnderBusy s
  · rw [stepOf_of_quiet hr] at h
    obtain ⟨h1, h2, h3⟩ := step_memories h
    exact ⟨h1, h2, h3, step_output_inside h⟩
  · rw [stepOf_of_race hr] at h
    injection h with h
    subst h
    exact ⟨rfl, .inl rfl, .inl rfl, id⟩

/-- After a step of the platform, the instance that stepped is there as its step left it. -/
theorem Platform.block_stepped {p : Platform} {k : Nat} {s t : State} (hs : p.block k = some s)
    (h : p.stepOf s = .next t) : (p.store k t).block k = some t := by
  obtain ⟨u, hu, -⟩ := block_eq_some hs
  obtain ⟨hi, ho⟩ := block_inside hs
  obtain ⟨-, hin, -, hout⟩ := stepOf_memories h
  refine block_store_same (List.getElem?_eq_some_iff.mp hu).1 ?_ (hout ho)
  obtain e | ⟨a, b, ms, -, e⟩ := hin
  · rw [e]
    exact hi
  · rw [e]
    exact Memory.write_forall (P := fun k => k < inSpan) hi a.isLt

/-- A step of the platform keeps its form: its memories stay canonical and nothing is held twice. -/
theorem Platform.stepAt_wf {p q : Platform} {k : Nat} (hp : p.wf = true) (h : p.stepAt k = .next q) : q.wf = true := by
  cases hs : p.block k with
  | none =>
    simp only [Platform.stepAt, hs] at h
    injection h with h
    exact h ▸ hp
  | some s =>
    simp only [Platform.wf, Bool.and_eq_true, decide_eq_true_eq, List.all_eq_true] at hp ⊢
    obtain ⟨⟨⟨hlen, hin⟩, hout⟩, hbare⟩ := hp
    obtain ⟨-, t, ht, -, rfl⟩ := stepAt_next hs h
    obtain ⟨u, -, rfl⟩ := block_eq_some hs
    obtain ⟨hi, ho⟩ := block_inside hs
    obtain ⟨-, hti, hto, hinside⟩ := stepOf_memories ht
    have hwi : Memory.wf t.input = true ∧ ∀ c ∈ t.input, c.1 < inSpan := by
      obtain e | ⟨a, b, ms, -, e⟩ := hti <;> rw [e]
      · exact ⟨Memory.window_wf hin _ _, hi⟩
      · exact ⟨Memory.write_wf (Memory.window_wf hin _ _) _ _, Memory.write_forall (P := fun k => k < inSpan) hi a.isLt⟩
    have hwo : Memory.wf t.output = true := by
      obtain e | ⟨-, x, e⟩ | ⟨a, b, ms, -, -, e⟩ := hto <;> rw [e]
      · exact Memory.window_wf hout _ _
      · exact Memory.writeBytes_wf (Memory.window_wf hout _ _) _ _
      · exact Memory.write_wf (Memory.window_wf hout _ _) _ _
    refine ⟨⟨⟨by simpa [Platform.store] using hlen, Memory.putWindow_wf hin hwi.1 _ _ hwi.2⟩,
      Memory.putWindow_wf hout hwo _ _ (hinside ho)⟩, fun x hx => ?_⟩
    obtain hx | rfl := List.mem_or_eq_of_mem_set hx
    · exact hbare x hx
    · rfl

end Sys2Proof.Machine
end

