-- ==== Sys2Proof/Tests/Slice0.lean ====
section
/-! SUPPORT. Tests with values worked out from the spec (spec/95_test_vectors.md names its tables V-...), the refusal of
ill-formed terms, and for each statement with hypotheses a witness that meets them. -/

namespace Sys2Proof.Tests

open Sys2Proof Sys2Proof.Machine

set_option maxRecDepth 20000

/-! ## Helpers -/

/-- What `f` reads from the next state, if there is one. -/
def after {α : Type} (o : Outcome) (f : State → α) : Option α :=
  match o with
  | .next t => some (f t)
  | .fault _ => none
  | .refused _ => none

/-- A decode in its opcode loop, at offset 14, with two pixels due, `PREV` as given and the bytes left as given. -/
def mid (prev : Pixel) (bytes : List Byte) : State :=
  { State.reset with
    status := .busy, phase := .ops, inPos := 14, inLen := BitVec.ofNat 64 (14 + bytes.length), width := 2, height := 1,
    pixTotal := 2, prev := prev, input := Memory.writeBytes [] 14 bytes }

/-- A decode about to read its header, with the whole input as given. -/
def atHeader (bytes : List Byte) : State :=
  { State.reset with
    status := .busy, prev := Pixel.start, inLen := BitVec.ofNat 64 bytes.length, input := Memory.writeBytes [] 0 bytes }

/-- A decode in the middle of a run with `n` pixels of it left. -/
def inRun (prev : Pixel) (n : BitVec 6) : State := { mid prev [0x00] with phase := .runEmit, runRemain := n }

/-- A decode about to check its end marker. -/
def atEnd (bytes : List Byte) : State := { mid Pixel.start bytes with phase := .endMarker, pixCount := 2 }

/-- An idle block with a whole input in place. -/
def loaded (bytes : List Byte) : State :=
  { State.reset with inLen := BitVec.ofNat 64 bytes.length, input := Memory.writeBytes [] 0 bytes }

/-- The 27 bytes of vector L1-1 (spec/95_test_vectors.md). -/
def vectorL11 : List Byte :=
  [0x71, 0x6F, 0x69, 0x66, 0, 0, 0, 1, 0, 0, 0, 1, 4, 0, 0xFF, 0x0A, 0x14, 0x1E, 0x28, 0, 0, 0, 0, 0, 0, 0, 1]

/-! ## Ill-formed terms are refused (spec/30_encoding.md R104) -/

theorem test_wf_refuses_diff_red : (Instr.diff 2 0 0).wf = false := by decide
theorem test_wf_refuses_diff_green : (Instr.diff 0 (-3) 0).wf = false := by decide
theorem test_wf_refuses_diff_blue : (Instr.diff 0 0 2).wf = false := by decide
theorem test_wf_refuses_luma_green : (Instr.luma 32 0 0).wf = false ∧ (Instr.luma (-33) 0 0).wf = false := by decide
theorem test_wf_refuses_luma_red : (Instr.luma 0 8 0).wf = false ∧ (Instr.luma 0 (-9) 0).wf = false := by decide
theorem test_wf_refuses_luma_blue : (Instr.luma 0 0 8).wf = false ∧ (Instr.luma 0 0 (-9)).wf = false := by decide
theorem test_wf_refuses_run : (Instr.run 0).wf = false ∧ (Instr.run 63).wf = false := by decide

/-! ## Words written out from the spec's encodings (spec/30_encoding.md R94; the values are the tables V-...) -/

theorem test_decode_rgb : decode [0b11111110, 0xC8, 0x64, 0x32, 0x77] = .instr (.rgb 200 100 50) [0x77] := by decide
theorem test_decode_rgba : decode [0b11111111, 0x0A, 0x14, 0x1E, 0x28] = .instr (.rgba 10 20 30 40) [] := by decide
theorem test_decode_index : decode [0b00110101] = .instr (.index 53) [] := by decide
theorem test_decode_diff : decode [0b01111001] = .instr (.diff 1 0 (-1)) [] := by decide
theorem test_decode_luma : decode [0b10100101, 0b01011010] = .instr (.luma 5 (-3) 2) [] := by decide
theorem test_decode_run : decode [0b11111101] = .instr (.run 62) [] ∧ decode [0b11000000] = .instr (.run 1) [] := by decide

/-- The same words as the opcode table numbers them: bit 0 is the least significant bit of the first byte. -/
theorem test_table_words :
    decodeTableWord 32 0x3264C8FE = some (.rgb 200 100 50) ∧
    decodeTableWord 40 0x281E140AFF = some (.rgba 10 20 30 40) ∧
    decodeTableWord 8 0x35 = some (.index 53) ∧ decodeTableWord 8 0x79 = some (.diff 1 0 (-1)) ∧
    decodeTableWord 16 0x5AA5 = some (.luma 5 (-3) 2) ∧ decodeTableWord 8 0xFD = some (.run 62) := by decide

theorem test_decode_rejects :
    decode [] = .reject .noControlByte ∧ decode [0xFE, 1, 2] = .reject (.operandsMissing .rgb) ∧
    decode [0xFF, 1, 2, 3] = .reject (.operandsMissing .rgba) ∧ decode [0x80] = .reject (.operandsMissing .luma) := by
  decide

/-- A word placed by `withFetchWord` runs as the first instruction after reset. -/
theorem test_fetch_word_runs :
    after (step (State.reset.withFetchWord 32 0x3264C8FE)) (fun t => (t.prev, t.inPos, t.status)) =
      some (⟨200, 100, 50, 0⟩, 4, .busy) ∧
    after (step (State.reset.withFetchWord 40 0x281E140AFF)) (fun t => (t.prev, t.inPos, t.status)) =
      some (⟨10, 20, 30, 40⟩, 5, .busy) ∧
    after (step (State.reset.withFetchWord 8 0xFD)) (fun t => (t.runRemain, t.inPos, t.phase)) =
      some (62, 1, .runEmit) := by decide

/-! ## One step of each opcode -/

/-- V-RGB, third row: the alpha is the previous pixel's, the slot is 34. -/
theorem test_rgb :
    after (step (mid ⟨10, 20, 30, 40⟩ [0xFE, 0xC8, 0x64, 0x32]))
      (fun t => (t.prev, t.slot 34, t.inPos, Memory.readBytes t.output 0 5)) =
      some (⟨200, 100, 50, 40⟩, ⟨200, 100, 50, 40⟩, 18, [200, 100, 50, 40, 0]) := by decide

/-- V-RGB, last row: two operand bytes of three. -/
theorem test_rgb_truncated :
    after (step (mid ⟨10, 20, 30, 40⟩ [0xFE, 1, 2])) (fun t => (t.status, t.errCode, t.errPos, t.inPos, t.pixCount)) =
      some (.error, .truncatedInput, 14, 14, 0) := by decide

/-- V-RGBA, first row. -/
theorem test_rgba :
    after (step (mid ⟨1, 2, 3, 4⟩ [0xFF, 0x0A, 0x14, 0x1E, 0x28]))
      (fun t => (t.prev, t.slot 12, t.inPos, Memory.readBytes t.output 0 4)) =
      some (⟨10, 20, 30, 40⟩, ⟨10, 20, 30, 40⟩, 19, [10, 20, 30, 40]) := by decide

/-- V-RGBA, last row. -/
theorem test_rgba_truncated :
    after (step (mid ⟨1, 2, 3, 4⟩ [0xFF, 1, 2, 3])) (fun t => (t.status, t.errCode, t.errPos, t.prev)) =
      some (.error, .truncatedInput, 14, ⟨1, 2, 3, 4⟩) := by decide

/-- V-INDEX, second row: the pixel of the never-written slot 5 overwrites slot 0. -/
theorem test_index_overwrites_slot_zero :
    after (step ((mid ⟨64, 0, 0, 0⟩ [0x05]).put ⟨64, 0, 0, 0⟩)) (fun t => (t.prev, t.slot 0, t.inPos, t.pixCount)) =
      some (⟨0, 0, 0, 0⟩, ⟨0, 0, 0, 0⟩, 15, 1) := by decide

/-- V-INDEX, third row: the last of two colliding pixels is in the slot, and stays there. -/
theorem test_index_collision :
    after (step (((mid ⟨1, 1, 1, 1⟩ [0x0C]).put ⟨10, 20, 30, 40⟩).put ⟨74, 20, 30, 40⟩)) (fun t => (t.prev, t.slot 12)) =
      some (⟨74, 20, 30, 40⟩, ⟨74, 20, 30, 40⟩) := by decide

/-- V-DIFF, third row. -/
theorem test_diff :
    after (step (mid ⟨10, 20, 30, 40⟩ [0x79])) (fun t => (t.prev, t.slot 8, t.inPos)) =
      some (⟨11, 20, 29, 40⟩, ⟨11, 20, 29, 40⟩, 15) := by decide

/-- V-DIFF, first row: every component wraps. -/
theorem test_diff_wraps :
    after (step (mid ⟨0, 0, 0, 255⟩ [0x40])) (fun t => (t.prev, t.slot 23)) =
      some (⟨254, 254, 254, 255⟩, ⟨254, 254, 254, 255⟩) := by decide

/-- V-LUMA, first row. -/
theorem test_luma :
    after (step (mid ⟨100, 150, 200, 255⟩ [0xA5, 0x5A])) (fun t => (t.prev, t.slot 23, t.inPos)) =
      some (⟨102, 155, 207, 255⟩, ⟨102, 155, 207, 255⟩, 16) := by decide

/-- V-LUMA, fifth row: the two nibbles differ in sign, and the sums wrap. -/
theorem test_luma_wraps :
    after (step (mid ⟨253, 1, 128, 255⟩ [0x80, 0xF0])) (fun t => (t.prev, t.slot 46)) =
      some (⟨228, 225, 88, 255⟩, ⟨228, 225, 88, 255⟩) := by decide

/-- V-RUN, first row: byte C1 is a run of 2, and its dispatch appends nothing. -/
theorem test_run_dispatch :
    after (step (mid ⟨10, 20, 30, 40⟩ [0xC1])) (fun t => (t.runRemain, t.inPos, t.phase, t.pixCount, t.prev)) =
      some (2, 15, .runEmit, 0, ⟨10, 20, 30, 40⟩) := by decide

/-- V-RUN, second row: five are asked for and one pixel is left, so the rest is discarded. -/
theorem test_run_is_cut_short :
    after (step { inRun ⟨200, 100, 50, 255⟩ 5 with pixCount := 1 })
      (fun t => (t.runRemain, t.phase, t.pixCount, Memory.readBytes t.output 4 4)) =
      some (0, .ops, 2, [200, 100, 50, 255]) := by decide

/-! ## Framing steps, host and platform -/

/-- V-HDR: the row with `CHANNELS` 7 and `COLORSPACE` 255. -/
theorem test_header :
    after (step (atHeader [0x71, 0x6F, 0x69, 0x66, 0, 0, 1, 0, 0, 0, 3, 0, 7, 0xFF]))
      (fun t => ((t.width, t.height, t.channels, t.colorspace), t.pixTotal, t.inPos, t.phase)) =
      some ((256, 768, 7, 255), 196608, 14, .ops) := by decide

/-- V-HDR: a wrong and short magic is truncation, a wrong whole magic is a mismatch. -/
theorem test_header_errors :
    after (step (atHeader [0, 0])) (fun t => (t.errCode, t.errPos)) = some (.truncatedInput, 0) ∧
    after (step (atHeader [0x71, 0x6F, 0x69, 0x67])) (fun t => (t.errCode, t.errPos)) = some (.magicMismatch, 0) := by
  decide

/-- V-END: the marker; a wrong last byte; a short trailer; a byte after the marker. -/
theorem test_end_marker :
    after (step (atEnd [0, 0, 0, 0, 0, 0, 0, 1])) (fun t => (t.status, t.inPos)) = some (.done, 22) ∧
    after (step (atEnd [0, 0, 0, 0, 0, 0, 0, 2])) (fun t => (t.errCode, t.errPos)) = some (.invalidEndMarker, 14) ∧
    after (step (atEnd [0, 0, 0, 0, 0, 0, 1])) (fun t => (t.errCode, t.errPos)) = some (.invalidEndMarker, 14) ∧
    after (step (atEnd [0, 0, 0, 0, 0, 0, 0, 1, 0])) (fun t => (t.errCode, t.errPos)) = some (.invalidEndMarker, 14) := by
  decide

/-- V-START: `STATUS` words 0x7, 0xB, 0xF, 0x2 and 0x1. -/
theorem test_status_words :
    (State.reset.raise .magicMismatch 0).regRead 1 = 0x7 ∧ (State.reset.raise .truncatedInput 0).regRead 1 = 0xB ∧
    (State.reset.raise .invalidEndMarker 0).regRead 1 = 0xF ∧ ({ State.reset with status := .done } : State).regRead 1 = 2 ∧
    State.reset.start.regRead 1 = 1 ∧ State.reset.regRead 1 = 0 := by decide

/-- V-START: a write of `CTRL` starts a decode, and while BUSY neither it nor a write of `IN_LEN` does anything. -/
theorem test_start :
    after (step { State.reset with hostMoves := [.writeReg 0 1] }) (fun t => (t.status, t.phase, t.prev)) =
      some (.busy, .hdr, ⟨0, 0, 0, 255⟩) ∧
    after (step { mid Pixel.zero [0] with hostMoves := [.writeReg 0 1] }) (fun t => (t.phase, t.inPos)) = some (.ops, 14) ∧
    after (step { mid Pixel.zero [0] with hostMoves := [.writeReg 2 5] }) (fun t => t.inLen) = some 15 := by decide

/-- A pixel that does not fit is the model fault, and the host's write while BUSY is refused. -/
theorem test_stops :
    after (step { mid Pixel.zero [0] with cfg := { Config.initial with outCap := 3 } }) (fun t => t.status) = none ∧
    after (step { mid Pixel.zero [0] with hostMoves := [.writeIn 0 1] }) (fun t => t.status) = none := by decide

theorem test_reset_memory_wf : Memory.wf State.reset.input = true ∧ Memory.wf State.reset.output = true := by decide

/-- An idle instance and one in its opcode loop, both with `IN` at platform address 0 and `OUT` at 0 and at 100, of 8 bytes
each; `bytes` stand at offset 14 of the shared `IN`. -/
def twoBlocks (moves : List HostMove) (bytes : List Byte) : Platform where
  instances :=
    [{ State.reset with cfg := { Config.initial with outCap := 8 }, inLen := 14, hostMoves := moves },
     { mid Pixel.start bytes with cfg := { Config.initial with outCap := 8, outBase := 100 }, input := [] }]
  input := Memory.writeBytes [] 14 bytes
  output := []
  draws := 0

theorem test_platform :
    (twoBlocks [] [0x79]).wf = true ∧ (Platform.reset [Config.initial]).wf = true ∧ (Platform.reset []).wf = false ∧
    State.reset.regAddress 10 = some 80 ∧ State.reset.regAddress 11 = none := by decide

/-- What the platform holds after a step of instance `k`, seen from instance `j`. -/
def seenAfter {α : Type} (p : Platform) (k j : Nat) (f : State → α) : Option α :=
  match p.stepAt k with
  | .next q => (q.block j).map f
  | .fault _ => none
  | .refused _ => none

/-- A shared `IN` (spec/60_exceptions.md R283): a byte that the host writes through one instance, outside the input of
every BUSY one, is read by the other; one inside the input of a BUSY instance has no move. -/
theorem test_shared_input :
    seenAfter (twoBlocks [.writeIn 15 9] [0x79]) 0 1 (fun s => s.inBytes 14 2) = some [0x79, 9] ∧
    seenAfter (twoBlocks [.writeIn 14 9] [0x79]) 0 1 (fun s => s.inBytes 14 2) = none ∧
    seenAfter (twoBlocks [] [0x79]) 1 1 (fun s => (s.prev, s.pixCount)) = some (⟨1, 0, 255, 255⟩, 1) ∧
    seenAfter (twoBlocks [] [0x79]) 1 0 (fun s => (s.status, s.pixCount, s.output)) = some (.idle, 0, []) := by decide

/-- `twoBlocks` with a START at the idle instance, and the other's `OUT` at platform address `base`. -/
def startBeside (base : Nat) : Platform :=
  { twoBlocks [.writeReg 0 1] [0x79] with
    instances :=
      [{ State.reset with cfg := { Config.initial with outCap := 8 }, inLen := 14, hostMoves := [.writeReg 0 1] },
       { mid Pixel.start [0x79] with cfg := { Config.initial with outCap := 8, outBase := base }, input := [] }] }

/-- A second decode whose `OUT` overlaps has no move (spec/92_eei_decisions.md D30): `OUT` is 8 bytes from 0, and the other's
from 8 or from 7; the one that decodes alone goes on, whatever the idle one's `OUT`. -/
theorem test_overlapping_start :
    seenAfter (startBeside 8) 0 0 State.status = some .busy ∧ (startBeside 7).stepAt 0 = .refused .overlappingOut ∧
    seenAfter (startBeside 0) 1 1 (fun t => (t.prev, t.pixCount)) = some (⟨1, 0, 255, 255⟩, 1) :=
  ⟨by decide, rfl, by decide⟩

/-! ## Witnesses: for each statement with hypotheses, something that meets them all -/

theorem witness_DecodeOfEncodeGivesInstruction : (Instr.luma 31 (-8) 7).wf = true ∧ (Instr.run 62).wf = true := by decide

theorem witness_DecodedBytesAreTheEncoding : decode [0x79, 0xAB] = .instr (.diff 1 0 (-1)) [0xAB] := by decide

/-- Each range of the map at both its ends, and both ways of being rejected. -/
theorem witness_ControlByteMapGivesOperands :
    (0x3F : Byte).toNat ≤ 0x3F ∧ (0x00 : Byte).toNat ≤ 0x3F ∧
    (0x40 ≤ (0x40 : Byte).toNat ∧ (0x7F : Byte).toNat ≤ 0x7F) ∧
    (0x80 ≤ (0x80 : Byte).toNat ∧ (0xBF : Byte).toNat ≤ 0xBF) ∧
    (0xC0 ≤ (0xC0 : Byte).toNat ∧ (0xFD : Byte).toNat ≤ 0xFD) ∧
    decode [] = .reject .noControlByte ∧ decode [0xBF] = .reject (.operandsMissing .luma) := by decide

theorem witness_ControlByteFixesLength : oplen 0xFF ≤ ([1, 2, 3, 4] : List Byte).length + 1 := by decide

/-- A stream of one opcode that yields enough is complete. -/
theorem complete_one {i : Instr} {total : Nat} (hw : i.wf = true) (h1 : 0 < total) (h2 : total ≤ i.pixels) :
    CompleteStream [i] total := by
  refine ⟨by simpa using hw, by simpa [pixelsOf] using h2, fun front last e => ?_⟩
  cases front with
  | nil => simpa [pixelsOf] using h1
  | cons a f => simp at e

theorem witness_DisassemblyGivesBackTheStream :
    CompleteStream [.run 5] 3 ∧ ([Instr.run 5]).length ≤ 1 := ⟨complete_one (by decide) (by decide) (by decide), by decide⟩

theorem witness_StepRunsDecodedInstruction :
    let s := mid ⟨1, 2, 3, 4⟩ [0xFE, 7, 8, 9]
    s.inLoop ∧ s.pixCount ≠ s.pixTotal ∧ decode s.window = .instr (.rgb 7 8 9) [] :=
  ⟨⟨rfl, rfl, rfl⟩, by decide, by decide⟩

theorem witness_EncodedInstructionAtInPosRuns :
    let s := mid ⟨1, 2, 3, 4⟩ (encode (.luma 5 (-3) 2))
    s.inLoop ∧ s.pixCount ≠ s.pixTotal ∧ (Instr.luma 5 (-3) 2).wf = true ∧
      s.inPos.toNat + (encode (.luma 5 (-3) 2)).length ≤ s.inLen.toNat ∧
      s.inBytes s.inPos.toNat (encode (.luma 5 (-3) 2)).length = encode (.luma 5 (-3) 2) :=
  ⟨⟨rfl, rfl, rfl⟩, by decide, by decide, by decide, by decide⟩

/-- No control byte, and an operand byte missing. -/
theorem witness_TruncatedOpcodeOnlyRaises :
    (let s := mid ⟨1, 2, 3, 4⟩ [];
      s.inLoop ∧ s.pixCount ≠ s.pixTotal ∧ s.inLen.toNat - s.inPos.toNat < 1) ∧
    (let s := mid ⟨1, 2, 3, 4⟩ [0xFF, 1, 2, 3];
      s.inLoop ∧ s.pixCount ≠ s.pixTotal ∧ s.inLen.toNat - s.inPos.toNat < oplen (s.inByte s.inPos.toNat)) :=
  ⟨⟨⟨rfl, rfl, rfl⟩, by decide, by decide⟩, ⟨⟨rfl, rfl, rfl⟩, by decide, by decide⟩⟩

theorem witness_LoopCheckEndsAtLastPixel :
    (let s := { mid ⟨1, 2, 3, 4⟩ [0] with pixCount := 2 };
      s.inLoop ∧ s.pixCount = s.pixTotal) ∧
    (let s := { mid ⟨1, 2, 3, 4⟩ [0] with pixCount := 1 };
      s.inLoop ∧ s.pixCount ≠ s.pixTotal) := ⟨⟨⟨rfl, rfl, rfl⟩, rfl⟩, ⟨⟨rfl, rfl, rfl⟩, by decide⟩⟩

theorem witness_OpcodeAdvancesByItsLength :
    (let s := mid ⟨1, 2, 3, 4⟩ [0xA5, 0x5A];
      ∃ t, s.status = .busy ∧ exec (.luma 5 (-3) 2) s = .next t ∧ t.status = .busy) ∧
    (∃ t, runEmitStep (inRun ⟨1, 2, 3, 4⟩ 1) = .next t) := ⟨⟨_, rfl, rfl, rfl⟩, ⟨_, rfl⟩⟩

/-- One byte short, and exactly all bytes with room for exactly the one pixel. -/
theorem witness_RgbKeepsPreviousAlpha :
    (let s := mid ⟨1, 2, 3, 4⟩ [0xFE, 7, 8];
      s.inLen.toNat - s.inPos.toNat < 4) ∧
    (let s := { mid ⟨1, 2, 3, 4⟩ [0xFE, 7, 8, 9] with cfg := { Config.initial with outCap := 4 } };
      4 ≤ s.inLen.toNat - s.inPos.toNat ∧ 4 * s.pixCount.toNat + 4 ≤ s.cfg.outCap ∧ Memory.wf s.output = true) := by
  decide

theorem witness_RgbaIsFullyLiteral :
    (let s := mid ⟨1, 2, 3, 4⟩ [0xFF, 7, 8, 9];
      s.inLen.toNat - s.inPos.toNat < 5) ∧
    (let s := { mid ⟨1, 2, 3, 4⟩ [0xFF, 7, 8, 9, 10] with cfg := { Config.initial with outCap := 4 } };
      5 ≤ s.inLen.toNat - s.inPos.toNat ∧ 4 * s.pixCount.toNat + 4 ≤ s.cfg.outCap ∧ Memory.wf s.output = true) := by
  decide

theorem witness_IndexCommitsTheCachedPixel :
    let s := { mid ⟨1, 2, 3, 4⟩ [0x3F] with cfg := { Config.initial with outCap := 4 } }
    4 * s.pixCount.toNat + 4 ≤ s.cfg.outCap ∧ Memory.wf s.output = true := by decide

theorem witness_DiffAddsSmallDeltas :
    (0x40 ≤ (0x40 : Byte).toNat ∧ (0x7F : Byte).toNat ≤ 0x7F) ∧
    (let s := { mid ⟨1, 2, 3, 4⟩ [0x40] with cfg := { Config.initial with outCap := 4 } };
      4 * s.pixCount.toNat + 4 ≤ s.cfg.outCap ∧ Memory.wf s.output = true) := by decide

theorem witness_LumaAddsRelativeDeltas :
    (0x80 ≤ (0x80 : Byte).toNat ∧ (0xBF : Byte).toNat ≤ 0xBF) ∧
    (let s := mid ⟨1, 2, 3, 4⟩ [0x80];
      s.inLen.toNat - s.inPos.toNat < 2) ∧
    (let s := { mid ⟨1, 2, 3, 4⟩ [0x80, 0x00] with cfg := { Config.initial with outCap := 4 } };
      2 ≤ s.inLen.toNat - s.inPos.toNat ∧ 4 * s.pixCount.toNat + 4 ≤ s.cfg.outCap ∧ Memory.wf s.output = true) := by
  decide

theorem witness_RunLoadsItsLength :
    (0xC0 ≤ (0xC0 : Byte).toNat ∧ (0xFD : Byte).toNat ≤ 0xFD) ∧ (1 ≤ 1 ∧ 1 ≤ 62) ∧ (1 ≤ 62 ∧ 62 ≤ 62) := by decide

/-- A commit and a raise, each a next state of an opcode that is no RUN. -/
theorem witness_PixelOpcodeFrame :
    (∀ n, Instr.luma 5 (-3) 2 ≠ .run n) ∧
    (∃ t, exec (.luma 5 (-3) 2) (mid ⟨1, 2, 3, 4⟩ [0xA5, 0x5A]) = .next t ∧ t.pixCount = 1) ∧
    (∃ t, exec (.luma 5 (-3) 2) (mid ⟨1, 2, 3, 4⟩ [0xA5]) = .next t ∧ t.status = .error) :=
  ⟨by simp, ⟨_, rfl, rfl⟩, ⟨_, rfl, rfl⟩⟩

/-- A state where the block faults in an opcode, one where it faults in a run, and one where it does not. -/
theorem witness_OverflowExactlyWhenOutIsFull :
    (let s := { mid ⟨1, 2, 3, 4⟩ [0x79] with cfg := { Config.initial with outCap := 3 } };
      s.quiet ∧ step s = .fault .outputOverflow) ∧
    (let s := { inRun ⟨1, 2, 3, 4⟩ 1 with cfg := { Config.initial with outCap := 3 } };
      s.quiet ∧ step s = .fault .outputOverflow) ∧
    (let s := { mid ⟨1, 2, 3, 4⟩ [0x79] with cfg := { Config.initial with outCap := 4 } };
      s.quiet ∧ ∃ t, step s = .next t) := ⟨⟨rfl, rfl⟩, ⟨rfl, rfl⟩, ⟨rfl, _, rfl⟩⟩

/-- A run with one pixel left, a run that the image's end cuts, and one that goes on. -/
theorem witness_RunEmissionAppendsOnePixel :
    (let s := inRun ⟨1, 2, 3, 4⟩ 1;
      s.quiet ∧ s.status = .busy ∧ s.phase = .runEmit ∧ s.runRemain ≠ 0 ∧ s.pixCount.toNat < s.pixTotal.toNat ∧
        4 * s.pixCount.toNat + 4 ≤ s.cfg.outCap ∧ Memory.wf s.output = true ∧ s.runRemain.toNat = 1) ∧
    (let s := { inRun ⟨1, 2, 3, 4⟩ 62 with pixCount := 1 };
      s.quiet ∧ s.status = .busy ∧ s.phase = .runEmit ∧ s.runRemain ≠ 0 ∧ s.pixCount.toNat < s.pixTotal.toNat ∧
        4 * s.pixCount.toNat + 4 ≤ s.cfg.outCap ∧ Memory.wf s.output = true ∧ s.pixCount + 1 = s.pixTotal) ∧
    (let s := inRun ⟨1, 2, 3, 4⟩ 2;
      s.quiet ∧ s.status = .busy ∧ s.phase = .runEmit ∧ s.runRemain ≠ 0 ∧ s.pixCount.toNat < s.pixTotal.toNat ∧
        4 * s.pixCount.toNat + 4 ≤ s.cfg.outCap ∧ Memory.wf s.output = true ∧ s.runRemain.toNat ≠ 1 ∧
        s.pixCount + 1 ≠ s.pixTotal) :=
  ⟨⟨rfl, rfl, rfl, by decide⟩, ⟨rfl, rfl, rfl, by decide⟩, ⟨rfl, rfl, rfl, by decide⟩⟩

theorem witness_RunNeverWritesPrevOrCache :
    (∃ t, exec (.run 2) (mid ⟨1, 2, 3, 4⟩ [0xC1]) = .next t) ∧
    (let s := inRun ⟨1, 2, 3, 4⟩ 2;
      s.quiet ∧ s.status = .busy ∧ s.phase = .runEmit ∧ ∃ t, step s = .next t) := ⟨⟨_, rfl⟩, ⟨rfl, rfl, rfl, _, rfl⟩⟩

/-- A run longer than the image, with room for exactly the image. -/
theorem witness_RunExpandsToCopiesOfPrev :
    let s := { mid ⟨1, 2, 3, 4⟩ [0xFD] with cfg := { Config.initial with outCap := 8 } }
    s.inLoop ∧ s.pixCount.toNat < s.pixTotal.toNat ∧ decode s.window = .instr (.run 62) [] ∧
      4 * (s.pixCount.toNat + min 62 (s.pixTotal.toNat - s.pixCount.toNat)) ≤ s.cfg.outCap ∧
      Memory.wf s.output = true := ⟨⟨rfl, rfl, rfl⟩, by decide⟩

/-- A run of one of the two pixels, with room for exactly one pixel more. -/
theorem witness_RunOfDefaultPixelIsNotCached :
    let s := { mid ⟨0, 0, 0, 255⟩ [0xC0] with cfg := { Config.initial with outCap := 8 } }
    s.inLoop ∧ s.pixCount.toNat < s.pixTotal.toNat ∧ decode s.window = .instr (.run 1) [] ∧
      4 * (s.pixCount.toNat + min 1 (s.pixTotal.toNat - s.pixCount.toNat)) ≤ s.cfg.outCap ∧
      Memory.wf s.output = true ∧ s.prev = ⟨0, 0, 0, 255⟩ ∧ (∀ k, s.slot k = ⟨0, 0, 0, 0⟩) ∧
      ∃ t, steps 2 s = .next t ∧ 4 * t.pixCount.toNat + 4 ≤ t.cfg.outCap :=
  ⟨⟨rfl, rfl, rfl⟩, by decide, by decide, by decide, by decide, rfl, by decide, _, rfl, by decide⟩

theorem witness_PutWritesOnlyTheHashSlot : (0 : Fin 64) ≠ hashSlot ⟨10, 20, 30, 40⟩ := by decide

theorem witness_CommittedPixelIsInItsSlot :
    (∀ n, Instr.index 5 ≠ .run n) ∧
    ∃ t, exec (.index 5) (mid ⟨1, 2, 3, 4⟩ [0x05]) = .next t ∧ t.pixCount ≠ (mid ⟨1, 2, 3, 4⟩ [0x05]).pixCount :=
  ⟨by simp, _, rfl, by decide⟩

theorem quiet_header (bytes : List Byte) :
    (atHeader bytes).quiet ∧ (atHeader bytes).status = .busy ∧ (atHeader bytes).phase = .hdr := ⟨rfl, rfl, rfl⟩

/-- Every clause of the header step at both ends of its range (`quiet_header` gives the common hypotheses). -/
theorem witness_HeaderStepFollowsItsChecks :
    (atHeader []).inLen.toNat < 4 ∧ (atHeader [0, 0, 0]).inLen.toNat < 4 ∧
    (4 ≤ (atHeader [1, 2, 3, 4]).inLen.toNat ∧
      (atHeader [1, 2, 3, 4]).inBytes 0 4 ≠ (atHeader [1, 2, 3, 4]).cfg.magic.toList) ∧
    (∀ n : Fin 12, let s := atHeader (vectorL11.take (4 + n.val))
      s.inBytes 0 4 = s.cfg.magic.toList ∧ s.inLen.toNat = 4 + n.val) := by decide

/-- The marker and nothing else; and each way to differ. -/
theorem witness_EndStepAcceptsExactlyTheMarker :
    (let s := atEnd [0, 0, 0, 0, 0, 0, 0, 1];
      s.quiet ∧ s.status = .busy ∧ s.phase = .endMarker ∧
        s.inLen.toNat - s.inPos.toNat = 8 ∧ s.inBytes s.inPos.toNat 8 = [0, 0, 0, 0, 0, 0, 0, 1]) ∧
    (let s := atEnd [0, 0, 0, 0, 0, 0, 0, 1, 0];
      s.quiet ∧ s.status = .busy ∧ s.phase = .endMarker ∧
        ¬(s.inLen.toNat - s.inPos.toNat = 8 ∧ s.inBytes s.inPos.toNat 8 = [0, 0, 0, 0, 0, 0, 0, 1])) ∧
    (let s := atEnd [0, 0, 0, 0, 0, 0, 1];
      s.quiet ∧ s.status = .busy ∧ s.phase = .endMarker ∧
        ¬(s.inLen.toNat - s.inPos.toNat = 8 ∧ s.inBytes s.inPos.toNat 8 = [0, 0, 0, 0, 0, 0, 0, 1])) ∧
    (let s := atEnd [0, 0, 0, 0, 0, 0, 0, 2];
      s.quiet ∧ s.status = .busy ∧ s.phase = .endMarker ∧
        ¬(s.inLen.toNat - s.inPos.toNat = 8 ∧ s.inBytes s.inPos.toNat 8 = [0, 0, 0, 0, 0, 0, 0, 1])) :=
  ⟨⟨rfl, rfl, rfl, by decide⟩, ⟨rfl, rfl, rfl, by decide⟩, ⟨rfl, rfl, rfl, by decide⟩, ⟨rfl, rfl, rfl, by decide⟩⟩

theorem witness_DoneOnlyThroughTheEndStep :
    ∃ t, step (atEnd [0, 0, 0, 0, 0, 0, 0, 1]) = .next t ∧ t.status = .done ∧
      (atEnd [0, 0, 0, 0, 0, 0, 0, 1]).status ≠ .done := ⟨_, rfl, rfl, by decide⟩

/-- A terminal state, and a change of status by reset, by START, by the END step and by a raise. -/
theorem witness_StatusChangesOnlyAsListed :
    (let s := State.reset.raise .magicMismatch 0;
      s.quiet ∧ s.status = .error) ∧
    (∃ t, step { mid Pixel.zero [0] with hostMoves := [.reset] } = .next t ∧ t.status ≠ .busy) ∧
    (∃ t, step { State.reset with hostMoves := [.writeReg 0 3] } = .next t ∧ t.status ≠ .idle) ∧
    (∃ t, step (atEnd [0, 0, 0, 0, 0, 0, 0, 1]) = .next t ∧ t.status ≠ .busy) ∧
    (∃ t, step (mid Pixel.zero []) = .next t ∧ t.status ≠ .busy) :=
  ⟨⟨rfl, rfl⟩, ⟨_, rfl, by decide⟩, ⟨_, rfl, by decide⟩, ⟨_, rfl, by decide⟩, ⟨_, rfl, by decide⟩⟩

/-- Each of the three errors in the step that raises it. -/
theorem witness_ErrorsArePrecise :
    (∃ t, step (atHeader [1, 2, 3, 4]) = .next t ∧ (atHeader [1, 2, 3, 4]).status ≠ .error ∧ t.status = .error ∧
      t.errCode = .magicMismatch) ∧
    (∃ t, step (atHeader (vectorL11.take 13)) = .next t ∧ t.status = .error ∧ t.errCode = .truncatedInput) ∧
    (∃ t, step (mid Pixel.zero [0xFF, 1, 2, 3]) = .next t ∧ t.status = .error ∧ t.errCode = .truncatedInput) ∧
    (∃ t, step (atEnd [0, 0, 0, 0, 0, 0, 0, 2]) = .next t ∧ t.status = .error ∧ t.errCode = .invalidEndMarker) :=
  ⟨⟨_, rfl, by decide, rfl, rfl⟩, ⟨_, rfl, rfl, rfl⟩, ⟨_, rfl, rfl, rfl⟩, ⟨_, rfl, rfl, rfl⟩⟩

theorem witness_WaitingBlockKeepsAllState :
    (let s := State.reset.raise .magicMismatch 0;
      s.quiet ∧ s.status ≠ .busy) ∧
    (let s := { State.reset with hostMoves := [.writeReg 0 1] };
      s.status ≠ .busy ∧ ∃ t, step s = .next t ∧ t.status ≠ s.status) :=
  ⟨⟨rfl, by decide⟩, ⟨by decide, _, rfl, by decide⟩⟩

/-- `done` rises at the END step, and falls at START and at reset. -/
theorem witness_DoneLineFollowsTheStatus :
    (∃ t, step (atEnd [0, 0, 0, 0, 0, 0, 0, 1]) = .next t ∧
      (atEnd [0, 0, 0, 0, 0, 0, 0, 1]).doneLine = false ∧ t.doneLine = true) ∧
    (let s := { State.reset with status := .done, hostMoves := [.writeReg 0 1] };
      ∃ t, step s = .next t ∧ s.doneLine = true ∧ t.doneLine = false) ∧
    (let s := { State.reset with status := .done, hostMoves := [.reset] };
      ∃ t, step s = .next t ∧ s.doneLine = true ∧ t.doneLine = false) :=
  ⟨⟨_, rfl, rfl, rfl⟩, ⟨_, rfl, rfl, rfl⟩, ⟨_, rfl, rfl, rfl⟩⟩

theorem witness_StartBeginsAFreshDecode :
    (let s := { mid Pixel.zero [0] with hostMoves := [.writeReg 0 1] };
      s.hostMoves = [.writeReg 0 1] ∧ (1 : Word64)[0] = true ∧ s.status = .busy) ∧
    (let s := { State.reset with hostMoves := [.writeReg 0 0xFFFFFFFF] };
      s.hostMoves = [.writeReg 0 0xFFFFFFFF] ∧ (0xFFFFFFFF : Word64)[0] = true ∧ s.status ≠ .busy) := by decide

theorem witness_ResetClearsEveryRegister :
    ({ mid Pixel.zero [0] with hostMoves := [.reset] } : State).hostMoves = [.reset] := rfl

theorem witness_RegisterFileReads :
    11 ≤ 11 ∧ ({ State.reset with hostMoves := [.readReg 1] } : State).hostMoves = [.readReg 1] := ⟨by decide, rfl⟩

/-- A read-only register, an absent one, `IN_LEN` outside and inside BUSY, `CTRL` with bit 0 clear, and two values of
`CTRL` with the same bit 0. -/
theorem witness_RegisterWritesObeyTheRules :
    (let s := { State.reset with hostMoves := [.writeReg 1 7] };
      s.hostMoves = [.writeReg 1 7] ∧ (1 ≠ 0 ∧ 1 ≠ 2) ∧ (11 ≠ 0 ∧ 11 ≠ 2)) ∧
    (let s := { State.reset with hostMoves := [.writeReg 2 7] };
      s.hostMoves = [.writeReg 2 7] ∧ s.status ≠ .busy) ∧
    (let s := { mid Pixel.zero [0] with hostMoves := [.writeReg 2 7] };
      s.hostMoves = [.writeReg 2 7] ∧ s.status = .busy) ∧
    (let s := { State.reset with hostMoves := [.writeReg 0 2] };
      s.hostMoves = [.writeReg 0 2] ∧ (2 : Word64)[0] = false) ∧
    (1 : Word64)[0] = (3 : Word64)[0] ∧
    ({ State.reset with hostMoves := [.readReg 3] } : State).hostMoves = [.readReg 3] := by decide

theorem witness_InputIsConstantDuringADecode :
    let s := { mid Pixel.zero [0] with hostMoves := [.writeReg 2 5] }
    s.status = .busy ∧ s.hostMoves.head? ≠ some .reset ∧ ∃ t, step s = .next t := ⟨rfl, by decide, _, rfl⟩

/-- A busy state in the opcode loop meets the invariant. -/
theorem mid_inv : (mid Pixel.start [0x79, 0xC1]).Inv where
  inputWf := by decide
  outputWf := by decide
  outputInside := by decide
  errCode := by decide
  errPos := by decide
  pixTotal := by decide
  pixCount := by decide
  inPos := by decide
  stream := by decide
  runBound := by decide
  runRemain := by decide
  runEmit := by decide
  fresh := by decide
  ending := by decide
  finished := by decide

theorem mid_hashed : (mid Pixel.start [0x79, 0xC1]).CacheHashed := fun _ => by decide

theorem mid_prev : (mid Pixel.start [0x79, 0xC1]).PrevIsLast := fun _ => by decide

theorem witness_ProgressIsMonotone :
    let s := mid Pixel.start [0x79, 0xC1]
    s.Inv ∧ s.status = .busy ∧ s.phase ≠ .hdr ∧ ∃ t, t.status = .busy ∧ step s = .next t :=
  ⟨mid_inv, rfl, by decide, _, rfl, rfl⟩

theorem witness_OutputStaysInsideTheImage :
    let s := mid Pixel.start [0x79, 0xC1]
    s.Inv ∧ s.quiet ∧ ∃ t, step s = .next t ∧ Memory.read t.output 0 ≠ Memory.read s.output 0 :=
  ⟨mid_inv, rfl, _, rfl, by decide⟩

/-- The last byte of `OUT`, outside and inside BUSY, and the first offset that does not exist. -/
theorem witness_HostReadsOfOutput :
    (let s := { State.reset with hostMoves := [.readOut 3], cfg := { Config.initial with outCap := 4 } };
      s.hostMoves = [.readOut 3] ∧ 3 < s.cfg.outCap ∧ s.status ≠ .busy) ∧
    (let s := { mid Pixel.zero [0] with hostMoves := [.readOut 3], cfg := { Config.initial with outCap := 4 } };
      s.hostMoves = [.readOut 3] ∧ 3 < s.cfg.outCap ∧ s.status = .busy) ∧
    (let s := { State.reset with hostMoves := [.readOut 4], cfg := { Config.initial with outCap := 4 } };
      s.hostMoves = [.readOut 4] ∧ s.cfg.outCap ≤ 4) := by decide

/-- Writes of `IN` and of `OUT` inside and outside BUSY, of `OUT` at its last offset and at the first that does not exist,
and a read of `IN`. -/
theorem witness_HostWritesOnlyOutsideBusy :
    (let s := { mid Pixel.zero [0] with hostMoves := [.writeIn 0 1] };
      s.hostMoves = [.writeIn 0 1] ∧ s.status = .busy) ∧
    (let s := { State.reset with hostMoves := [.writeIn 0 1] };
      s.hostMoves = [.writeIn 0 1] ∧ s.status ≠ .busy ∧ Memory.wf s.input = true ∧ (1 : Nat) ≠ (0 : Word64).toNat) ∧
    (let s := { mid Pixel.zero [0] with hostMoves := [.writeOut 0 1] };
      s.hostMoves = [.writeOut 0 1] ∧ s.status = .busy) ∧
    (let s := { State.reset with hostMoves := [.writeOut 3 1], cfg := { Config.initial with outCap := 4 } };
      s.hostMoves = [.writeOut 3 1] ∧ s.status ≠ .busy ∧ 3 < s.cfg.outCap ∧ Memory.wf s.output = true) ∧
    (let s := { State.reset with hostMoves := [.writeOut 4 1], cfg := { Config.initial with outCap := 4 } };
      s.hostMoves = [.writeOut 4 1] ∧ s.status ≠ .busy ∧ s.cfg.outCap ≤ 4) ∧
    ({ loaded vectorL11 with hostMoves := [.readIn 4] } : State).hostMoves = [.readIn 4] := by decide

/-- Where only one of two instances is BUSY, no two decodes overlap. -/
theorem apart_of_idle {s u : State} {p : Platform} (h : p.instances = [s, u]) (hs : s.status ≠ .busy) : p.OutsApart := by
  intro j k a b hjk ha hb hab hbb
  rw [h] at ha hb
  match j, k with
  | 0, _ =>
    injection ha with ha
    exact absurd (ha ▸ hab) hs
  | _, 0 =>
    injection hb with hb
    exact absurd (hb ▸ hbb) hs
  | 1, 1 => exact absurd rfl hjk
  | _ + 2, _ => simp at ha
  | _, _ + 2 => simp at hb

/-- Two decodes at once, side by side: apart, and both step. -/
theorem witness_DecodingOutRegionsStayApart :
    (startBeside 8).OutsApart ∧ (∃ q, (startBeside 8).stepAt 0 = .next q) ∧
    (∃ s, (startBeside 8).block 0 = some s ∧ s.hostMoves = [.writeReg 0 1] ∧ (1 : Word64)[0] = true ∧ s.status ≠ .busy ∧
      ∃ u, (startBeside 8).block 1 = some u ∧ u.status = .busy ∧ s.outOverlap u = false) ∧
    (∃ s, (startBeside 7).block 0 = some s ∧ s.hostMoves = [.writeReg 0 1] ∧ s.status ≠ .busy ∧
      ∃ u, (startBeside 7).block 1 = some u ∧ u.status = .busy ∧ s.outOverlap u = true) :=
  ⟨apart_of_idle rfl (by decide), ⟨_, rfl⟩, ⟨_, rfl, rfl, by decide, by decide, _, rfl, rfl, by decide⟩,
    ⟨_, rfl, rfl, by decide, _, rfl, rfl, by decide⟩⟩

/-- A quiet instance steps; its `OUT` does not overlap the other's; and a host read of a byte that the other instance may
be writing, through an instance whose own `OUT` holds the byte too. -/
theorem witness_InstancesShareNothing :
    (let p := twoBlocks [] [0x79];
      p.OutsApart ∧ ∃ s u q, p.block 1 = some s ∧ p.block 0 = some u ∧ s.quiet ∧ p.stepAt 1 = .next q ∧ p.readsUnderBusy s = false ∧
        (∀ a b, s.hostMoves.head? ≠ some (.writeIn a b)) ∧ s.outOverlap u = false ∧ (∃ t, step s = .next t)) ∧
    (let p := { twoBlocks [.readOut 3] [0x79] with
        instances := [{ State.reset with hostMoves := [.readOut 3] }, mid Pixel.start [0x79]] };
      ∃ s q, p.block 0 = some s ∧ p.stepAt 0 = .next q ∧ p.readsUnderBusy s = true) :=
  ⟨⟨apart_of_idle rfl (by decide), _, _, _, rfl, rfl, rfl, rfl, rfl, by simp [Platform.view, twoBlocks, mid, State.reset], by decide, _, rfl⟩,
    ⟨_, _, rfl, rfl, rfl⟩⟩

/-- Two instances with the same `IN`, one of them BUSY and the other stepping; offset 14 of both is one address. -/
theorem witness_InstancesMayShareInput :
    let p := twoBlocks [.writeIn 15 9] [0x79]
    ∃ s u q t v, p.block 0 = some s ∧ p.block 1 = some u ∧ p.stepAt 0 = .next q ∧ q.block 0 = some t ∧
      q.block 1 = some v ∧ 14 < inSpan ∧ s.inAddress 14 = u.inAddress 14 ∧ u.status = .busy ∧ 14 < u.inLen.toNat :=
  ⟨_, _, _, _, _, rfl, rfl, rfl, rfl, rfl, by decide⟩

/-- The decode of `mid` in two blocks that differ beyond the input, in the rest of `OUT` and in their addresses; it steps,
and with no room it faults. -/
theorem witness_StepKeepsSameDecode :
    (let s := mid Pixel.start [0x79];
      let t := { mid Pixel.start [0x79] with
        cfg := { Config.initial with inBase := 5 }, input := Memory.writeBytes [] 14 [0x79, 9], output := [(7, 7)] };
      SameDecode s t ∧ s.quiet ∧ Memory.wf s.output = true ∧ Memory.wf t.output = true ∧ ∃ u, step s = .next u) ∧
    (let s := { mid Pixel.start [0x79] with cfg := { Config.initial with outCap := 3 } };
      SameDecode s s ∧ s.quiet ∧ Memory.wf s.output = true ∧ step s = .fault .outputOverflow) :=
  ⟨⟨⟨rfl, rfl, by decide, rfl, fun _ h => absurd h (by decide +revert)⟩, rfl, by decide, by decide, _, rfl⟩,
    ⟨⟨rfl, rfl, fun _ _ => rfl, rfl, fun _ _ => rfl⟩, rfl, by decide, rfl⟩⟩

theorem witness_StepKeepsTheInvariant :
    (mid Pixel.start [0x79, 0xC1]).Inv ∧ ∃ t, step (mid Pixel.start [0x79, 0xC1]) = .next t := ⟨mid_inv, _, rfl⟩

theorem witness_StepKeepsSlotsHashed :
    (mid Pixel.start [0x79, 0xC1]).CacheHashed ∧ (mid Pixel.start [0x79, 0xC1]).status ≠ .idle ∧
      ∃ t, step (mid Pixel.start [0x79, 0xC1]) = .next t := ⟨mid_hashed, by decide, _, rfl⟩

theorem witness_StepKeepsPrevTheLastPixel :
    (mid Pixel.start [0x79, 0xC1]).Inv ∧ (mid Pixel.start [0x79, 0xC1]).PrevIsLast ∧
      ∃ t, step (mid Pixel.start [0x79, 0xC1]) = .next t := ⟨mid_inv, mid_prev, _, rfl⟩

theorem witness_EveryDecodeEnds : (loaded vectorL11).quiet ∧ (loaded vectorL11).status ≠ .busy := ⟨rfl, by decide⟩

/-- Two idle blocks with the same input and different histories. -/
theorem witness_DecodeDependsOnlyOnTheInput :
    let s := loaded vectorL11
    let t := { loaded (vectorL11 ++ [9]) with
      inLen := 27, prev := ⟨1, 2, 3, 4⟩, output := [(7, 7)], status := .error, errCode := .magicMismatch }
    s.quiet ∧ t.quiet ∧ s.status ≠ .busy ∧ t.status ≠ .busy ∧ Memory.wf s.output = true ∧ Memory.wf t.output = true ∧
      t.cfg.magic = s.cfg.magic ∧ t.cfg.outCap = s.cfg.outCap ∧ t.inLen = s.inLen ∧
      (∀ a, a < s.inLen.toNat → t.inByte a = s.inByte a) ∧ (∃ u, steps 2 s.start = .next u) ∧
      (let f := { s with cfg := { s.cfg with outCap := 3 } };
        steps 2 f.start = .fault .outputOverflow) :=
  ⟨rfl, rfl, by decide, by decide, by decide, by decide, by decide, by decide, by decide, by decide, ⟨_, rfl⟩, rfl⟩

theorem witness_WellFormedInputsDecode :
    let s := { loaded vectorL11 with cfg := { Config.initial with outCap := 4 } }
    s.quiet ∧ s.status ≠ .busy ∧ Memory.wf s.output = true ∧
      CompleteStream [.rgba 10 20 30 40] ((1 : Word32).toNat * (1 : Word32).toNat) ∧
      4 * ((1 : Word32).toNat * (1 : Word32).toNat) ≤ s.cfg.outCap ∧
      s.inBytes 0 s.inLen.toNat = inputBytes s.cfg.magic 1 1 4 0 [.rgba 10 20 30 40] :=
  ⟨rfl, by decide, by decide, complete_one (by decide) (by decide) (by decide), by decide, by decide⟩

theorem witness_DoneMeansAWellFormedInput :
    (loaded vectorL11).quiet ∧ (loaded vectorL11).status ≠ .busy ∧
      ∃ t, steps 4 (loaded vectorL11).start = .next t ∧ t.status = .done := ⟨rfl, by decide, _, rfl, by decide⟩

end Sys2Proof.Tests
end

section
/-! PROOFS. The machine's state (spec/10_state.md): its invariant, its status and error codes, the register file. -/

namespace Sys2Proof

/-! ## What decoding gives -/

/-- The run length in a control byte of RUN is at most 62: the fields of 63 and 64 are those of RGB and RGBA
(spec/30_encoding.md R98). -/
theorem classify_run_field {c : Byte} (h : classify c = .run) : bits c 5 0 + 1 ≤ 62 := by
  have hc := c.isLt
  unfold classify at h
  split_ifs at h with hrgb hrgba h0 h1 h2
  have hrgb' : c.toNat ≠ 0xFE := fun e => hrgb (BitVec.eq_of_toNat_eq e)
  have hrgba' : c.toNat ≠ 0xFF := fun e => hrgba (BitVec.eq_of_toNat_eq e)
  simp only [bits] at *
  omega

/-- Decoding takes exactly as many bytes as the opcode is long (spec/30_encoding.md R100). -/
theorem decode_length {bs rest : List Byte} {i : Instr} (h : decode bs = .instr i rest) :
    i.opcode.length + rest.length = bs.length := by
  cases bs with
  | nil => cases h
  | cons c bs =>
    simp only [decode] at h
    unfold decodeOperands at h
    split at h <;> cases h <;> exact Nat.add_comm _ _

/-- A decoded run has a length in 1..62 (spec/30_encoding.md R98). -/
theorem decode_run_bounds {bs rest : List Byte} {n : Nat} (h : decode bs = .instr (.run n) rest) :
    1 ≤ n ∧ n ≤ 62 := by
  cases bs with
  | nil => cases h
  | cons c bs =>
    simp only [decode] at h
    unfold decodeOperands at h
    split at h <;> cases h
    exact ⟨by omega, classify_run_field ‹_›⟩

end Sys2Proof

namespace Sys2Proof.Machine

/-- The decoder sees at most the bytes that are left (spec/20_memory.md R61). -/
theorem State.window_length_le (s : State) : s.window.length ≤ s.avail := by
  simp [State.window, State.inBytes]

/-- A dispatched opcode lies within the input (spec/41_opcode_dispatch.md R146). -/
theorem State.length_le_avail {s : State} {i : Instr} {rest : List Byte} (h : decode s.window = .instr i rest) :
    i.opcode.length ≤ s.avail := by
  have h1 := decode_length h
  have h2 := s.window_length_le
  omega

/-- `PIX_TOTAL` is computed without overflow (spec/40_header_parser.md R125). -/
theorem pixelTotal_toNat (w h : Word32) : (pixelTotal w h).toNat = w.toNat * h.toNat := by
  have hlt : w.toNat * h.toNat < 2 ^ 32 * 2 ^ 32 := Nat.mul_lt_mul'' w.isLt h.isLt
  rw [pixelTotal, BitVec.toNat_mul, BitVec.toNat_setWidth_of_le (by decide), BitVec.toNat_setWidth_of_le (by decide),
    Nat.mod_eq_of_lt (by omega)]

/-- Settles O32: the product of two 32-bit numbers is below 2^64. -/
theorem pixelTotalIsExact : Obligations.PixelTotalIsExact := pixelTotal_toNat

/-- A step forward that stays within `IN_LEN` does not wrap. -/
theorem State.inPos_add_toNat {s : State} {n : Nat} (h : n ≤ s.avail) (hp : s.inPos.toNat ≤ s.inLen.toNat) :
    (s.inPos + BitVec.ofNat 64 n).toNat = s.inPos.toNat + n ∧ s.inPos.toNat + n ≤ s.inLen.toNat := by
  have hl := s.inLen.isLt
  simp only [State.avail] at h
  rw [BitVec.toNat_add, BitVec.toNat_ofNat]
  omega

/-- A counter below another one counts on without a wrap. -/
theorem succ_toNat_of_lt {a b : Word64} (h : a.toNat < b.toNat) : (a + 1).toNat = a.toNat + 1 := by
  bv_omega

/-! ## The invariant, operation by operation

One lemma per named update that a step is made of: what the update does not touch comes from the invariant before it. -/

namespace State.Inv

variable {s : State}

/-- The invariant does not speak of the host's moves, of what it read, and of the count of free values. -/
theorem hostFields (h : s.Inv) (ms : List HostMove) (x : Word64) (d : Nat) :
    ({ s with hostMoves := ms, readData := x, draws := d } : State).Inv := { h with }

theorem pixCount_lt (h : s.Inv) (hne : s.pixCount ≠ s.pixTotal) : s.pixCount.toNat < s.pixTotal.toNat :=
  lt_of_le_of_ne h.pixCount fun e => hne (BitVec.eq_of_toNat_eq e)

theorem runRemain_eq_zero (h : s.Inv) (hp : s.phase ≠ .runEmit) : s.runRemain = 0 :=
  not_not.mp fun hr => hp (h.runRemain hr)

theorem raise (h : s.Inv) {e : ErrCode} (he : e ≠ .noError) (pos : Word64) : (s.raise e pos).Inv :=
  { h with
    errCode := by simp [he]
    errPos := by simp
    inPos := by simp
    stream := by simp
    runEmit := by simp
    fresh := by simp
    ending := by simp
    finished := by simp }

theorem startFresh (h : s.Inv) : s.fresh.Inv :=
  { h with
    errCode := by simp
    errPos := by simp
    pixTotal := by simp
    pixCount := by simp
    inPos := by simp
    stream := by simp
    runBound := by simp
    runRemain := by simp
    runEmit := by simp
    fresh := by simp
    ending := by simp
    finished := by simp }

theorem assertReset (h : s.Inv) : s.assertReset.Inv :=
  { h with
    errCode := by simp
    errPos := by simp
    pixTotal := by simp
    pixCount := by simp
    inPos := by simp
    stream := by simp
    runBound := by simp
    runRemain := by simp
    runEmit := by simp
    fresh := by simp
    ending := by simp
    finished := by simp }

/-- Outside BUSY nothing ties `IN_LEN` to the other registers. -/
theorem newInLen (h : s.Inv) (hb : s.status ≠ .busy) (v : Word64) : ({ s with inLen := v } : State).Inv :=
  { h with inPos := fun hs => absurd hs hb }

theorem writeInput (h : s.Inv) (a : Nat) (b : Byte) :
    ({ s with input := Memory.write s.input a b } : State).Inv :=
  { h with inputWf := Memory.write_wf h.inputWf a b }

theorem writeOutput (h : s.Inv) {a : Nat} (ha : a < s.cfg.outCap) (b : Byte) :
    ({ s with output := Memory.write s.output a b } : State).Inv :=
  { h with
    outputWf := Memory.write_wf h.outputWf a b
    outputInside := Memory.write_forall (P := (· < s.cfg.outCap)) h.outputInside ha }

theorem appended_outputWf (h : s.Inv) (p : Pixel) : Memory.wf (s.appended p).output = true :=
  Memory.writeBytes_wf h.outputWf _ _

theorem appended_outputInside (h : s.Inv) (hf : s.outFits = true) (p : Pixel) :
    ∀ c ∈ (s.appended p).output, c.1 < s.cfg.outCap := by
  have hfit := s.outFits_iff.mp hf
  refine Memory.writeBytes_forall (P := (· < s.cfg.outCap)) h.outputInside fun k hk => ?_
  rw [Pixel.bytes_length] at hk
  simp only [State.outAddr]
  omega

theorem acceptHeader (h : s.Inv) (hb : s.status = .busy) (hp : s.phase = .hdr) (hl : headerBytes ≤ s.inLen.toNat) :
    s.acceptHeader.Inv :=
  { h with
    pixTotal := pixelTotal_toNat _ _
    pixCount := by simp [(h.fresh hb hp).2.1]
    inPos := fun _ => hl
    stream := fun _ _ => le_refl headerBytes
    runRemain := fun hr => absurd (h.runRemain_eq_zero (by simp [hp])) hr
    runEmit := by simp
    fresh := by simp
    ending := by simp
    finished := by simp [hb] }

/-- The loop check, with every pixel appended (spec/41_opcode_dispatch.md R143). -/
theorem enterEndMarker (h : s.Inv) (hb : s.status = .busy) (hp : s.phase = .ops) (he : s.pixCount = s.pixTotal) :
    ({ s with phase := .endMarker } : State).Inv :=
  { h with
    stream := fun _ _ => h.stream hb (by simp [hp])
    runRemain := fun hr => absurd (h.runRemain_eq_zero (by simp [hp])) hr
    runEmit := by simp
    fresh := by simp
    ending := fun _ _ => he }

/-- The dispatch of a RUN (spec/45_run_op.md R200). -/
theorem loadRun (h : s.Inv) (hb : s.status = .busy) (hp : s.phase = .ops) (hne : s.pixCount ≠ s.pixTotal) {n : Nat}
    (hn : 1 ≤ n ∧ n ≤ 62) (ha : 1 ≤ s.avail) :
    (State.advance { s with runRemain := BitVec.ofNat 6 n, phase := .runEmit } 1).Inv := by
  obtain ⟨hpos, hle⟩ := State.inPos_add_toNat ha (h.inPos hb)
  have hstream := h.stream hb (by simp [hp])
  have hload : (BitVec.ofNat 6 n).toNat = n := by
    rw [BitVec.toNat_ofNat]
    omega
  have hloaded : BitVec.ofNat 6 n ≠ 0 := by bv_omega
  exact { h with
    inPos := fun _ => hpos.trans_le hle
    stream := fun _ _ => (hstream.trans (Nat.le_add_right _ _)).trans_eq hpos.symm
    runBound := hload.trans_le hn.2
    runRemain := fun _ => rfl
    runEmit := fun _ _ => ⟨hloaded, h.pixCount_lt hne⟩
    fresh := by simp
    ending := by simp
    finished := by simp [hb] }

/-- The commit of a pixel by an opcode of `n` bytes (spec/41_opcode_dispatch.md R148, R150). -/
theorem commit (h : s.Inv) (hb : s.status = .busy) (hp : s.phase = .ops) (hne : s.pixCount ≠ s.pixTotal)
    (hf : s.outFits = true) (p : Pixel) {n : Nat} (ha : n ≤ s.avail) : ((s.appended p).remember p n).Inv := by
  obtain ⟨hpos, hle⟩ := State.inPos_add_toNat ha (h.inPos hb)
  have hstream := h.stream hb (by simp [hp])
  have hlt := h.pixCount_lt hne
  exact { h with
    outputWf := h.appended_outputWf p
    outputInside := h.appended_outputInside hf p
    pixCount := (succ_toNat_of_lt hlt).trans_le hlt
    inPos := fun _ => hpos.trans_le hle
    stream := fun _ _ => (hstream.trans (Nat.le_add_right _ _)).trans_eq hpos.symm
    runEmit := by simp [hp]
    fresh := by simp [hp]
    ending := by simp [hp]
    finished := by simp [hb] }

/-- One run emission: it goes on only where a run and a pixel are left (spec/45_run_op.md R201, R202). -/
theorem emit (h : s.Inv) (hb : s.status = .busy) (hp : s.phase = .runEmit) (hf : s.outFits = true) :
    (s.appended s.prev).countRun.Inv := by
  obtain ⟨hrun, hlt⟩ := h.runEmit hb hp
  have hstream := h.stream hb (by simp [hp])
  have hcount : (s.pixCount + 1).toNat ≤ s.pixTotal.toNat := (succ_toNat_of_lt hlt).trans_le hlt
  by_cases hend : s.runRemain - 1 = 0 ∨ s.pixCount + 1 = s.pixTotal
  · rw [State.countRun_ends (by simpa using hend)]
    exact { h with
      outputWf := h.appended_outputWf s.prev
      outputInside := h.appended_outputInside hf s.prev
      pixCount := hcount
      stream := fun _ _ => hstream
      runBound := by simp
      runRemain := by simp
      runEmit := by simp
      fresh := by simp
      ending := by simp
      finished := by simp [hb] }
  · rw [State.countRun_goes_on (by simpa using hend)]
    obtain ⟨hrest, hleft⟩ := not_or.mp hend
    exact { h with
      outputWf := h.appended_outputWf s.prev
      outputInside := h.appended_outputInside hf s.prev
      pixCount := hcount
      runBound := by
        have := h.runBound
        simp only [State.appended_runRemain]
        bv_omega
      runRemain := fun _ => hp
      runEmit := fun _ _ => ⟨hrest, lt_of_le_of_ne hcount fun e => hleft (BitVec.eq_of_toNat_eq e)⟩
      fresh := by simp [hp]
      ending := by simp [hp]
      finished := by simp [hb] }

/-- The END step that finds the marker (spec/47_end_marker.md R244). -/
theorem finish (h : s.Inv) (hb : s.status = .busy) (hp : s.phase = .endMarker) :
    ({ s with inPos := s.inLen, status := .done } : State).Inv :=
  { h with
    errCode := by simpa [hb] using h.errCode
    errPos := fun _ => h.errPos (by simp [hb])
    inPos := by simp
    stream := by simp
    runEmit := by simp
    fresh := by simp
    ending := by simp
    finished := fun _ => h.ending hb hp }

/-! ## The invariant, step by step -/

theorem of_headerStep (h : s.Inv) (hb : s.status = .busy) (hp : s.phase = .hdr) : (headerStep s).Inv := by
  obtain ⟨e, pos, heq, he⟩ | ⟨hl, -, heq⟩ := headerStep_cases s <;> rw [heq]
  · exact h.raise he pos
  · exact h.acceptHeader hb hp hl

theorem of_endStep (h : s.Inv) (hb : s.status = .busy) (hp : s.phase = .endMarker) : (endStep s).Inv := by
  obtain heq | ⟨-, -, heq⟩ := endStep_cases s <;> rw [heq]
  · exact h.raise (by decide) s.inPos
  · exact h.finish hb hp

theorem of_dispatch {t : State} (h : s.Inv) (hb : s.status = .busy) (hp : s.phase = .ops)
    (hne : s.pixCount ≠ s.pixTotal) (hd : dispatch s = .next t) : t.Inv := by
  obtain rfl | ⟨i, rest, hdec, hexec⟩ := dispatch_next hd
  · exact h.raise (by decide) s.inPos
  · have hlen := State.length_le_avail hdec
    obtain ⟨-, rfl⟩ | ⟨n, rfl, rfl⟩ | ⟨p, hf, rfl, -⟩ := exec_next hexec
    · exact h.raise (by decide) s.inPos
    · exact h.loadRun hb hp hne (decode_run_bounds hdec) hlen
    · exact h.commit hb hp hne hf p hlen

theorem of_blockStep {t : State} (h : s.Inv) (hs : blockStep s = .next t) : t.Inv := by
  obtain ⟨-, rfl⟩ | ⟨hb, hp, rfl⟩ | ⟨hb, hp, he, rfl⟩ | ⟨hb, hp, hne, hd⟩ | ⟨hb, hp, hf, rfl⟩ | ⟨hb, hp, rfl⟩ :=
    blockStep_next hs
  · exact h
  · exact h.of_headerStep hb hp
  · exact h.enterEndMarker hb hp he
  · exact h.of_dispatch hb hp hne hd
  · exact h.emit hb hp hf
  · exact h.of_endStep hb hp

theorem regWrite (h : s.Inv) (n : Nat) (v : Word64) : (s.regWrite n v).Inv := by
  obtain heq | ⟨-, hb, heq⟩ | ⟨-, -, -, heq⟩ := s.regWrite_cases n v <;> rw [heq]
  · exact h
  · exact h.newInLen hb v
  · exact h.startFresh

theorem of_hostMove {t : State} {m : HostMove} (h : s.Inv) (hs : hostMove m blockStep s = .next t) : t.Inv := by
  obtain ⟨-, hb⟩ | ⟨n, -, rfl⟩ | ⟨n, v, -, rfl⟩ | ⟨a, b, -, -, rfl⟩ | ⟨a, -, rfl⟩ | ⟨a, b, -, -, ha, rfl⟩ |
    ⟨a, -, -, x, d, rfl⟩ | ⟨-, rfl⟩ := hostMove_next hs
  · exact h.of_blockStep hb
  · exact h.hostFields _ _ _
  · exact h.regWrite n v
  · exact h.writeInput a.toNat b
  · exact h.hostFields _ _ _
  · exact h.writeOutput ha b
  · exact h.hostFields _ x d
  · exact h.assertReset

theorem of_step {t : State} (h : s.Inv) (hs : step s = .next t) : t.Inv := by
  have hdrop : ∀ ms, ({ s with hostMoves := ms } : State).Inv := fun ms => h.hostFields ms s.readData s.draws
  obtain ⟨u, rfl | ⟨ms, -, rfl⟩, hb⟩ | ⟨m, ms, -, -, hh⟩ := step_next hs
  · exact h.of_blockStep hb
  · exact (hdrop ms).of_blockStep hb
  · exact (hdrop ms).of_hostMove hh

end State.Inv

/-- Settles O51: each step is one of the named updates, and each of them keeps the invariant. -/
theorem stepKeepsTheInvariant : Obligations.StepKeepsTheInvariant := fun _ _ h hs => h.of_step hs

/-- The reset state meets the machine's invariant. -/
theorem State.reset_inv : State.reset.Inv where
  inputWf := rfl
  outputWf := rfl
  outputInside := by simp [State.reset]
  errCode := by decide
  errPos := by decide
  pixTotal := rfl
  pixCount := le_refl _
  inPos := by decide
  stream := by decide
  runBound := by decide
  runRemain := by decide
  runEmit := by decide
  fresh := by decide
  ending := by decide
  finished := by decide

/-- Settles O50: in IDLE the cache and the previous pixel are under no condition. -/
theorem resetStateMeetsTheInvariants : Obligations.ResetStateMeetsTheInvariants :=
  ⟨State.reset_inv, fun h => absurd rfl h, fun h => nomatch h⟩

/-! ## STATE and ERR_CODE -/

/-- What `exec` answers is BUSY still, or in ERROR with an error (spec/60_exceptions.md R260). -/
theorem exec_status {i : Instr} {s t : State} (h : exec i s = .next t) :
    t.status = s.status ∨ (t.status = .error ∧ t.errCode ≠ .noError) := by
  obtain ⟨-, rfl⟩ | ⟨n, -, rfl⟩ | ⟨p, -, rfl, -⟩ := exec_next h
  · exact .inr ⟨rfl, by simp⟩
  · exact .inl rfl
  · exact .inl rfl

/-- How the block's own step changes `STATE`: not at all, by the END step, or by a raise (spec/10_state.md R24). -/
theorem blockStep_status {s t : State} (h : blockStep s = .next t) :
    t.status = s.status ∨
    (s.status = .busy ∧ s.phase = .endMarker ∧ t.status = .done) ∨
    (s.status = .busy ∧ t.status = .error ∧ t.errCode ≠ .noError) := by
  obtain ⟨-, rfl⟩ | ⟨hb, -, rfl⟩ | ⟨-, -, -, rfl⟩ | ⟨hb, -, -, hd⟩ | ⟨-, -, -, rfl⟩ | ⟨hb, hp, rfl⟩ := blockStep_next h
  · exact .inl rfl
  · obtain ⟨e, pos, heq, he⟩ | ⟨-, -, heq⟩ := headerStep_cases s <;> rw [heq]
    · exact .inr (.inr ⟨hb, rfl, he⟩)
    · exact .inl rfl
  · exact .inl rfl
  · obtain rfl | ⟨i, rest, -, he⟩ := dispatch_next hd
    · exact .inr (.inr ⟨hb, rfl, by simp⟩)
    · exact (exec_status he).imp_right fun h => .inr ⟨hb, h⟩
  · rw [State.countRun_eq]
    exact .inl rfl
  · obtain heq | ⟨-, -, heq⟩ := endStep_cases s <;> rw [heq]
    · exact .inr (.inr ⟨hb, rfl, by simp⟩)
    · exact .inr (.inl ⟨hb, hp, rfl⟩)

/-- How a move of the host changes `STATE`: not at all, by a reset, or by START (spec/10_state.md R24). -/
theorem hostMove_status {s t : State} {m : HostMove} {block : State → Outcome} (hm : m ≠ .noMove)
    (h : hostMove m block s = .next t) :
    t.status = s.status ∨
    (m = .reset ∧ t.status = .idle) ∨
    (s.status ≠ .busy ∧ t.status = .busy ∧ ∃ v, m = .writeReg 0 v ∧ v[0] = true) := by
  obtain ⟨rfl, -⟩ | ⟨n, -, rfl⟩ | ⟨n, v, rfl, rfl⟩ | ⟨a, b, -, -, rfl⟩ | ⟨a, -, rfl⟩ | ⟨a, b, -, -, -, rfl⟩ |
    ⟨a, -, -, x, d, rfl⟩ | ⟨rfl, rfl⟩ := hostMove_next h
  · exact absurd rfl hm
  · exact .inl rfl
  · obtain heq | ⟨-, -, heq⟩ | ⟨rfl, hv, hb, heq⟩ := s.regWrite_cases n v <;> rw [heq]
    · exact .inl rfl
    · exact .inl rfl
    · exact .inr (.inr ⟨hb, rfl, v, rfl, hv⟩)
  · exact .inl rfl
  · exact .inl rfl
  · exact .inl rfl
  · exact .inl rfl
  · exact .inr (.inl ⟨rfl, rfl⟩)

/-- Outside BUSY the block takes no step of its own (spec/60_exceptions.md R285). -/
theorem blockStep_of_not_busy {s : State} (h : s.status ≠ .busy) : blockStep s = .next s := by
  unfold blockStep
  cases hs : s.status with
  | busy => exact absurd hs h
  | idle => rfl
  | done => rfl
  | error => rfl

/-- Settles O36: the block's own step and the host's moves each change `STATE` only in the listed ways. -/
theorem statusChangesOnlyAsListed : Obligations.StatusChangesOnlyAsListed := by
  refine ⟨⟨rfl, rfl, rfl, rfl⟩, ⟨rfl, rfl, rfl, rfl⟩, fun s hq hs => ?_, fun s t h hne => ?_⟩
  · rw [step_quiet hq]
    exact blockStep_of_not_busy fun hb => by simp [hb] at hs
  · obtain ⟨u, hu, hb⟩ | ⟨m, ms, hm, hmove, hh⟩ := step_next h
    · have hsame : u.status = s.status ∧ u.phase = s.phase := by
        obtain rfl | ⟨ms, -, rfl⟩ := hu <;> exact ⟨rfl, rfl⟩
      have hlisted := (blockStep_status hb).resolve_left (hsame.1 ▸ hne)
      rw [hsame.1, hsame.2] at hlisted
      exact .inr (.inr hlisted)
    · rw [hm]
      obtain ⟨rfl, ht⟩ | ⟨hs, ht, v, rfl, hv⟩ := (hostMove_status hmove hh).resolve_left hne
      · exact .inl ⟨rfl, ht⟩
      · exact .inr (.inl ⟨hs, ht, v, rfl, hv⟩)

/-! ## The input during a decode -/

/-- The block's own step never writes `IN_LEN` (spec/10_state.md R31). -/
theorem blockStep_inLen {s t : State} (h : blockStep s = .next t) : t.inLen = s.inLen := by
  obtain ⟨-, rfl⟩ | ⟨-, -, rfl⟩ | ⟨-, -, -, rfl⟩ | ⟨-, -, -, hd⟩ | ⟨-, -, -, rfl⟩ | ⟨-, -, rfl⟩ := blockStep_next h
  · rfl
  · obtain ⟨e, pos, heq, -⟩ | ⟨-, -, heq⟩ := headerStep_cases s <;> rw [heq] <;> rfl
  · rfl
  · obtain rfl | ⟨i, rest, -, he⟩ := dispatch_next hd
    · rfl
    · obtain ⟨-, rfl⟩ | ⟨n, -, rfl⟩ | ⟨p, -, rfl, -⟩ := exec_next he <;> rfl
  · rw [State.countRun_eq]
    rfl
  · obtain heq | ⟨-, -, heq⟩ := endStep_cases s <;> rw [heq]
    rfl

/-- While BUSY a register write does nothing (spec/10_state.md R38, spec/41_opcode_dispatch.md R141). -/
theorem State.regWrite_of_busy {s : State} (hb : s.status = .busy) (n : Nat) (v : Word64) : s.regWrite n v = s := by
  obtain heq | ⟨-, hn, -⟩ | ⟨-, -, hn, -⟩ := s.regWrite_cases n v
  · exact heq
  · exact absurd hb hn
  · exact absurd hb hn

/-- While BUSY no move of the host but reset reaches the input (spec/10_state.md R31, spec/20_memory.md R74). -/
theorem hostMove_input_of_busy {s t : State} {m : HostMove} {block : State → Outcome} (hb : s.status = .busy)
    (hno : m ≠ .noMove) (hre : m ≠ .reset) (h : hostMove m block s = .next t) :
    t.inLen = s.inLen ∧ t.input = s.input ∧ t.cfg = s.cfg := by
  obtain ⟨rfl, -⟩ | ⟨n, -, rfl⟩ | ⟨n, v, -, rfl⟩ | ⟨a, b, -, hn, -⟩ | ⟨a, -, rfl⟩ | ⟨a, b, -, hn, -⟩ |
    ⟨a, -, -, x, d, rfl⟩ | ⟨rfl, -⟩ := hostMove_next h
  · exact absurd rfl hno
  · exact ⟨rfl, rfl, rfl⟩
  · rw [State.regWrite_of_busy hb]
    exact ⟨rfl, rfl, rfl⟩
  · exact absurd hb hn
  · exact ⟨rfl, rfl, rfl⟩
  · exact absurd hb hn
  · exact ⟨rfl, rfl, rfl⟩
  · exact absurd rfl hre

/-- Settles O45: the block writes neither `IN_LEN` nor `IN`, and while BUSY the host cannot. -/
theorem inputIsConstantDuringADecode : Obligations.InputIsConstantDuringADecode := by
  intro s t hbusy hreset h
  obtain ⟨u, hu, hb⟩ | ⟨m, ms, hm, hno, hh⟩ := step_next h
  · obtain ⟨hcfg, hin, -⟩ := blockStep_memories hb
    have hlen := blockStep_inLen hb
    obtain rfl | ⟨ms, -, rfl⟩ := hu <;> exact ⟨hlen, hin, hcfg⟩
  · have hre : m ≠ .reset := fun e => hreset (by rw [hm, e]; rfl)
    exact hostMove_input_of_busy (s := { s with hostMoves := ms }) hbusy hno hre hh

/-! ## The register file -/

/-- `STATUS` holds `STATE` in bits 1:0 and `ERR_CODE` in bits 3:2 (spec/10_state.md R36). -/
theorem State.statusWord_toNat (s : State) : s.statusWord.toNat = s.status.code.toNat + 4 * s.errCode.code.toNat := by
  have hfields : ∀ e c : BitVec 2, ((0 : BitVec 28) ++ e ++ c).toNat = c.toNat + 4 * e.toNat := by decide
  exact hfields s.errCode.code s.status.code

theorem State.regRead_status_toNat (s : State) :
    (s.regRead 1).toNat = s.status.code.toNat + 4 * s.errCode.code.toNat := by
  rw [← s.statusWord_toNat]
  exact BitVec.toNat_setWidth_of_le (by decide)

theorem State.regRead_of_absent (s : State) {n : Nat} (h : 11 ≤ n) : s.regRead n = 0 := by
  obtain ⟨k, rfl⟩ := Nat.exists_eq_add_of_le' h
  rfl

theorem State.regWrite_of_readOnly (s : State) {n : Nat} (h0 : n ≠ 0) (h2 : n ≠ 2) (v : Word64) :
    s.regWrite n v = s := by
  obtain heq | ⟨hn, -, -⟩ | ⟨hn, -, -, -⟩ := s.regWrite_cases n v
  · exact heq
  · exact absurd hn h2
  · exact absurd hn h0

/-- Outside BUSY a write of `IN_LEN` takes its value (spec/10_state.md R38). -/
theorem State.regWrite_inLen {s : State} (h : s.status ≠ .busy) (v : Word64) :
    s.regWrite 2 v = { s with inLen := v } :=
  if_neg fun hb => h (s.isBusy_iff.mp hb)

/-- Of `CTRL` only bit 0 matters (spec/10_state.md R35). -/
theorem State.regWrite_ctrl (s : State) (v : Word64) : s.regWrite 0 v = if v[0] then s.start else s := rfl

theorem step_readReg {s : State} {n : Nat} {ms : List HostMove} (h : s.hostMoves = .readReg n :: ms) :
    step s = .next { s with hostMoves := ms, readData := s.regRead n } := step_move h

theorem step_writeReg {s : State} {n : Nat} {v : Word64} {ms : List HostMove}
    (h : s.hostMoves = .writeReg n v :: ms) :
    step s = .next (State.regWrite { s with hostMoves := ms } n v) := step_move h

/-- Settles O43: register by register; a narrow register reads zero-extended. -/
theorem registerFileReads : Obligations.RegisterFileReads := fun s =>
  ⟨rfl, s.regRead_status_toNat, rfl, rfl, BitVec.toNat_setWidth_of_le (by decide),
    BitVec.toNat_setWidth_of_le (by decide), BitVec.toNat_setWidth_of_le (by decide),
    BitVec.toNat_setWidth_of_le (by decide), rfl, rfl, rfl, fun _ hn => s.regRead_of_absent hn,
    fun _ _ hm => step_readReg hm⟩

/-- Settles O44: a write is a host move, so the rules of the register file decide the step. -/
theorem registerWritesObeyTheRules : Obligations.RegisterWritesObeyTheRules := by
  refine ⟨fun s n v ms hm => ?_, fun s v v' hv => ?_, fun s => ⟨?_, rfl⟩, fun s n ms hm => ⟨_, step_readReg hm⟩⟩
  · rw [step_writeReg hm]
    refine ⟨fun h0 h2 => ?_, ?_, ?_, ?_⟩
    · rw [State.regWrite_of_readOnly _ h0 h2]
    · rintro rfl hb
      rw [State.regWrite_inLen (s := { s with hostMoves := ms }) hb]
    · rintro rfl hb
      rw [State.regWrite_of_busy (s := { s with hostMoves := ms }) hb]
    · rintro rfl hv
      simp [State.regWrite_ctrl, hv]
  · rw [State.regWrite_ctrl, State.regWrite_ctrl, hv]
  · have hstatus := s.status.code.isLt
    have herr := s.errCode.code.isLt
    rw [s.regRead_status_toNat]
    omega

/-- Every register reads 0 in the reset state (spec/10_state.md R42). -/
theorem State.regRead_reset (n : Nat) : State.reset.regRead n = 0 := by
  unfold State.regRead
  split <;> rfl

/-- Settles O42: the reset state holds these values as they stand. -/
theorem resetStateHoldsTheSpecValues : Obligations.ResetStateHoldsTheSpecValues :=
  ⟨State.regRead_reset, rfl, rfl, rfl, rfl, rfl⟩

end Sys2Proof.Machine
end

section
/-! PROOFS. The memories (spec/20_memory.md): when `OUT` overflows, which bytes the block writes, how the header fields
stand in `IN`, and the host's own reads and writes. -/

namespace Sys2Proof.Machine

/-! ## The block's own step, phase by phase (spec/41_opcode_dispatch.md R140) -/

theorem blockStep_of_hdr {s : State} (hb : s.status = .busy) (hp : s.phase = .hdr) :
    blockStep s = .next (headerStep s) := by
  simp only [blockStep, hb, hp]

theorem blockStep_of_ops {s : State} (hb : s.status = .busy) (hp : s.phase = .ops) : blockStep s = opsStep s := by
  simp only [blockStep, hb, hp]

theorem blockStep_of_runEmit {s : State} (hb : s.status = .busy) (hp : s.phase = .runEmit) :
    blockStep s = runEmitStep s := by
  simp only [blockStep, hb, hp]

theorem blockStep_of_endMarker {s : State} (hb : s.status = .busy) (hp : s.phase = .endMarker) :
    blockStep s = .next (endStep s) := by
  simp only [blockStep, hb, hp]

theorem opsStep_of_complete {s : State} (h : s.pixCount = s.pixTotal) :
    opsStep s = .next { s with phase := .endMarker } := if_pos h

theorem opsStep_of_due {s : State} (h : s.pixCount ≠ s.pixTotal) : opsStep s = dispatch s := if_neg h

theorem dispatch_of_decode {s : State} {i : Instr} {rest : List Byte} (h : decode s.window = .instr i rest) :
    dispatch s = exec i s := by
  simp only [dispatch, h]

theorem dispatch_of_reject {s : State} {why : DecodeReject} (h : decode s.window = .reject why) :
    dispatch s = .next (s.raise .truncatedInput s.inPos) := by
  simp only [dispatch, h]

/-! ## Where a pixel does not fit (spec/20_memory.md R69) -/

theorem State.outFits_eq_false_iff (s : State) : s.outFits = false ↔ s.cfg.outCap < 4 * s.pixCount.toNat + 4 := by
  rw [← Bool.not_eq_true, s.outFits_iff, not_le]

/-- An append faults exactly where the pixel does not fit (spec/48_pixel_accumulator.md R250). -/
theorem State.append_fault_iff {s : State} {p : Pixel} {rest : State → State} {f : Fault} :
    s.append p rest = .fault f ↔ f = .outputOverflow ∧ s.outFits = false := by
  cases hf : s.outFits
  · simp [State.append_of_full p rest hf, eq_comm]
  · simp [State.append_of_fits p rest hf]

/-- With all its bytes there, an opcode other than RUN commits a pixel (spec/41_opcode_dispatch.md R146, R150). -/
theorem exec_eq_commit {i : Instr} {s : State} (hrun : ∀ n, i ≠ .run n) (ha : i.opcode.length ≤ s.avail) :
    ∃ p, exec i s = s.commit p i.opcode.length := by
  cases i with
  | rgb r g b => exact ⟨_, State.needBytes_of_le _ ha⟩
  | rgba r g b a => exact ⟨_, State.needBytes_of_le _ ha⟩
  | index k => exact ⟨_, rfl⟩
  | diff dr dg db => exact ⟨_, rfl⟩
  | luma dg drdg dbdg => exact ⟨_, State.needBytes_of_le _ ha⟩
  | run n => exact absurd rfl (hrun n)

/-- With all its bytes there, an opcode faults exactly where it commits a pixel that does not fit; a RUN writes no pixel in
its dispatch (spec/45_run_op.md R204). -/
theorem exec_fault_iff {i : Instr} {s : State} {f : Fault} (ha : i.opcode.length ≤ s.avail) :
    exec i s = .fault f ↔ f = .outputOverflow ∧ s.outFits = false ∧ ∀ n, i ≠ .run n := by
  by_cases hrun : ∃ n, i = .run n
  · obtain ⟨n, rfl⟩ := hrun
    simp [exec, execRun]
  · obtain ⟨p, hp⟩ := exec_eq_commit (not_exists.mp hrun) ha
    rw [hp, State.commit, State.append_fault_iff]
    simp [not_exists.mp hrun]

theorem dispatch_fault_iff {s : State} {f : Fault} :
    dispatch s = .fault f ↔ f = .outputOverflow ∧ s.outFits = false ∧
      ∃ i rest, decode s.window = .instr i rest ∧ ∀ n, i ≠ .run n := by
  cases hd : decode s.window with
  | instr i rest =>
    rw [dispatch_of_decode hd, exec_fault_iff (State.length_le_avail hd)]
    simp
  | reject why => simp [dispatch_of_reject hd]

theorem opsStep_fault_iff {s : State} {f : Fault} :
    opsStep s = .fault f ↔ f = .outputOverflow ∧ s.outFits = false ∧ s.pixCount ≠ s.pixTotal ∧
      ∃ i rest, decode s.window = .instr i rest ∧ ∀ n, i ≠ .run n := by
  by_cases he : s.pixCount = s.pixTotal
  · simp [opsStep_of_complete he, he]
  · rw [opsStep_of_due he, dispatch_fault_iff]
    simp [he]

/-- The block's own step faults exactly where it would append a pixel that does not fit. -/
theorem blockStep_fault_iff {s : State} {f : Fault} :
    blockStep s = .fault f ↔ f = .outputOverflow ∧ s.outFits = false ∧ s.status = .busy ∧
      (s.phase = .runEmit ∨
        (s.phase = .ops ∧ s.pixCount ≠ s.pixTotal ∧
          ∃ i rest, decode s.window = .instr i rest ∧ ∀ n, i ≠ .run n)) := by
  by_cases hb : s.status = .busy
  · cases hp : s.phase with
    | hdr => simp [blockStep_of_hdr hb hp]
    | ops =>
      rw [blockStep_of_ops hb hp, opsStep_fault_iff]
      simp [hb]
    | runEmit =>
      rw [blockStep_of_runEmit hb hp, runEmitStep, State.append_fault_iff]
      simp [hb]
    | endMarker => simp [blockStep_of_endMarker hb hp]
  · simp [blockStep_of_not_busy hb, hb]

/-- Settles O21: only an append can fault, and only a run emission and a commit append. -/
theorem overflowExactlyWhenOutIsFull : Obligations.OverflowExactlyWhenOutIsFull := by
  intro s f hq
  rw [step_quiet hq, blockStep_fault_iff, s.outFits_eq_false_iff]

/-! ## The bytes of `OUT` that the block writes (spec/20_memory.md R63) -/

/-- The block's own step leaves `OUT` alone or appends one pixel, in a run emission or where a pixel is due. -/
theorem blockStep_output {s t : State} (h : blockStep s = .next t) :
    t.output = s.output ∨
      (s.status = .busy ∧ s.outFits = true ∧ (s.phase = .runEmit ∨ s.pixCount ≠ s.pixTotal) ∧
        ∃ p : Pixel, t.output = (s.appended p).output ∧ t.pixCount = s.pixCount + 1) := by
  obtain ⟨-, rfl⟩ | ⟨-, -, rfl⟩ | ⟨-, -, -, rfl⟩ | ⟨hb, -, hne, hd⟩ | ⟨hb, hp, hf, rfl⟩ | ⟨-, -, rfl⟩ :=
    blockStep_next h
  · exact .inl rfl
  · exact .inl (headerStep_memories s).2.2
  · exact .inl rfl
  · obtain rfl | ⟨i, rest, -, he⟩ := dispatch_next hd
    · exact .inl rfl
    · obtain ⟨-, rfl⟩ | ⟨n, -, rfl⟩ | ⟨p, hf, rfl, -⟩ := exec_next he
      · exact .inl rfl
      · exact .inl rfl
      · exact .inr ⟨hb, hf, .inr hne, p, rfl, rfl⟩
  · rw [State.countRun_eq]
    exact .inr ⟨hb, hf, .inl hp, s.prev, rfl, rfl⟩
  · exact .inl (endStep_memories s).2.2

/-- Only the four bytes of the appended pixel can change. -/
theorem State.appended_changes_only_pixel {s : State} {p : Pixel} {a : Nat}
    (h : Memory.read (s.appended p).output a ≠ Memory.read s.output a) : s.outAddr ≤ a ∧ a < s.outAddr + 4 := by
  by_contra hout
  exact h (s.read_appended_other p (by omega))

/-- Settles O26: the invariant says that a step which appends has a pixel left, so its four bytes lie inside the image
and `PIX_COUNT` does not wrap. -/
theorem outputStaysInsideTheImage : Obligations.OutputStaysInsideTheImage := by
  intro s t hinv hq h a hchange
  rw [step_quiet hq] at h
  obtain hsame | ⟨hb, hf, hdue, p, hout, hcount⟩ := blockStep_output h
  · exact absurd (by rw [hsame]) hchange
  · have hlt : s.pixCount.toNat < s.pixTotal.toNat :=
      hdue.elim (fun hp => (hinv.runEmit hb hp).2) hinv.pixCount_lt
    have hfit := s.outFits_iff.mp hf
    have hbyte : 4 * s.pixCount.toNat ≤ a ∧ a < 4 * s.pixCount.toNat + 4 :=
      State.appended_changes_only_pixel (hout ▸ hchange)
    exact ⟨hb, hcount ▸ succ_toNat_of_lt hlt, hbyte.1, hbyte.2, by omega, by omega⟩

/-! ## Header fields (spec/20_memory.md R65, spec/00_scope.md R10) -/

/-- The big-endian value of four bytes is below 2^32, so `be32` is exact. -/
theorem be32_toNat (b0 b1 b2 b3 : Byte) :
    (be32 b0 b1 b2 b3).toNat = b0.toNat * 2 ^ 24 + b1.toNat * 2 ^ 16 + b2.toNat * 2 ^ 8 + b3.toNat := by
  have h0 := b0.isLt
  have h1 := b1.isLt
  have h2 := b2.isLt
  have h3 := b3.isLt
  rw [be32, BitVec.toNat_ofNat, Nat.mod_eq_of_lt (by omega)]

theorem be32Bytes_toNat (v : Word32) :
    (be32Bytes v).map BitVec.toNat =
      [v.toNat / 2 ^ 24, v.toNat / 2 ^ 16 % 256, v.toNat / 2 ^ 8 % 256, v.toNat % 256] := by
  have htop : v.toNat / 2 ^ 24 % 2 ^ 8 = v.toNat / 2 ^ 24 := Nat.mod_eq_of_lt (by omega)
  simp only [be32Bytes, List.map_cons, List.map_nil, BitVec.toNat_ofNat, htop]

/-- The bytes of a field read back as the field. -/
theorem be32_be32Bytes (v : Word32) : ∃ b0 b1 b2 b3, be32Bytes v = [b0, b1, b2, b3] ∧ be32 b0 b1 b2 b3 = v := by
  refine ⟨_, _, _, _, rfl, BitVec.eq_of_toNat_eq ?_⟩
  simp only [be32_toNat, BitVec.toNat_ofNat]
  omega

/-- The value of four bytes gives back the bytes: each is a base-256 digit of it. -/
theorem be32Bytes_be32 (b0 b1 b2 b3 : Byte) : be32Bytes (be32 b0 b1 b2 b3) = [b0, b1, b2, b3] := by
  have h1 := b1.isLt
  have h2 := b2.isLt
  have h3 := b3.isLt
  refine List.map_injective_iff.mpr (fun _ _ => BitVec.eq_of_toNat_eq) ?_
  simp only [be32Bytes_toNat, be32_toNat, List.map_cons, List.map_nil, List.cons.injEq, and_true]
  omega

/-- Settles O33: the value of four bytes is exact, and its base-256 digits are the bytes. -/
theorem headerFieldsAreBigEndian : Obligations.HeaderFieldsAreBigEndian :=
  ⟨be32_toNat, be32Bytes_toNat, be32_be32Bytes, be32Bytes_be32⟩

/-! ## The host's own accesses to `IN` and `OUT` (spec/20_memory.md R72, R74) -/

theorem State.isBusy_eq_false {s : State} (h : s.status ≠ .busy) : s.isBusy = false :=
  Bool.eq_false_iff.mpr fun hb => h (s.isBusy_iff.mp hb)

theorem State.hostReadOut_of_absent {s : State} {a : Nat} (ha : s.cfg.outCap ≤ a) :
    s.hostReadOut a = .fault .outOffsetAbsent := if_pos ha

theorem State.hostReadOut_of_busy {s : State} {a : Nat} (ha : a < s.cfg.outCap) (hb : s.status = .busy) :
    s.hostReadOut a = .next s.racingRead := by
  simp [State.hostReadOut, Nat.not_le.mpr ha, s.isBusy_iff.mpr hb]

theorem State.hostReadOut_of_not_busy {s : State} {a : Nat} (ha : a < s.cfg.outCap) (hb : s.status ≠ .busy) :
    s.hostReadOut a = .next { s with readData := (Memory.read s.output a).setWidth 64 } := by
  simp [State.hostReadOut, Nat.not_le.mpr ha, State.isBusy_eq_false hb]

theorem State.hostWriteOut_of_busy {s : State} (hb : s.status = .busy) (a : Nat) (b : Byte) :
    s.hostWriteOut a b = .refused .hostWriteWhileBusy := if_pos (s.isBusy_iff.mpr hb)

theorem State.hostWriteOut_of_absent {s : State} {a : Nat} (hb : s.status ≠ .busy) (ha : s.cfg.outCap ≤ a) (b : Byte) :
    s.hostWriteOut a b = .fault .outOffsetAbsent := by
  simp [State.hostWriteOut, State.isBusy_eq_false hb, ha]

theorem State.hostWriteOut_of_not_busy {s : State} {a : Nat} (hb : s.status ≠ .busy) (ha : a < s.cfg.outCap)
    (b : Byte) : s.hostWriteOut a b = .next { s with output := Memory.write s.output a b } := by
  simp [State.hostWriteOut, State.isBusy_eq_false hb, Nat.not_le.mpr ha]

theorem State.hostWriteIn_of_busy {s : State} (hb : s.status = .busy) (a : Word64) (b : Byte) :
    s.hostWriteIn a b = .refused .hostWriteWhileBusy := if_pos (s.isBusy_iff.mpr hb)

theorem State.hostWriteIn_of_not_busy {s : State} (hb : s.status ≠ .busy) (a : Word64) (b : Byte) :
    s.hostWriteIn a b = .next { s with input := Memory.write s.input a.toNat b } := by
  simp [State.hostWriteIn, State.isBusy_eq_false hb]

theorem step_readOut {s : State} {a : Nat} {ms : List HostMove} (h : s.hostMoves = .readOut a :: ms) :
    step s = State.hostReadOut { s with hostMoves := ms } a := step_move h

theorem step_writeOut {s : State} {a : Nat} {b : Byte} {ms : List HostMove}
    (h : s.hostMoves = .writeOut a b :: ms) : step s = State.hostWriteOut { s with hostMoves := ms } a b := step_move h

theorem step_writeIn {s : State} {a : Word64} {b : Byte} {ms : List HostMove}
    (h : s.hostMoves = .writeIn a b :: ms) : step s = State.hostWriteIn { s with hostMoves := ms } a b := step_move h

theorem step_readIn {s : State} {a : Word64} {ms : List HostMove} (h : s.hostMoves = .readIn a :: ms) :
    step s = .next { s with hostMoves := ms, readData := (s.inByte a.toNat).setWidth 64 } := step_move h

/-- Settles O47: the offset decides between fault and read, and the status which byte is read. -/
theorem hostReadsOfOutput : Obligations.HostReadsOfOutput := by
  intro s a ms hm
  rw [step_readOut hm]
  exact ⟨State.hostReadOut_of_not_busy (s := { s with hostMoves := ms }),
    fun ha hb => ⟨Config.racingByte s.draws, State.hostReadOut_of_busy (s := { s with hostMoves := ms }) ha hb⟩,
    State.hostReadOut_of_absent (s := { s with hostMoves := ms })⟩

/-- Settles O48: a write outside BUSY is one write of a byte memory, whose laws say what it keeps. -/
theorem hostWritesOnlyOutsideBusy : Obligations.HostWritesOnlyOutsideBusy := by
  refine ⟨fun s a b ms hm => ?_, fun s a b ms hm => ?_, fun s a ms hm => step_readIn hm⟩
  · rw [step_writeIn hm]
    exact ⟨fun hb => State.hostWriteIn_of_busy (s := { s with hostMoves := ms }) hb a b,
      fun hb hwf => ⟨_, State.hostWriteIn_of_not_busy (s := { s with hostMoves := ms }) hb a b,
        Memory.read_write_same hwf a.toNat b, fun _ hk => Memory.read_write_other s.input b hk, rfl⟩⟩
  · rw [step_writeOut hm]
    exact ⟨fun hb => State.hostWriteOut_of_busy (s := { s with hostMoves := ms }) hb a b,
      fun hb ha hwf => ⟨_, State.hostWriteOut_of_not_busy (s := { s with hostMoves := ms }) hb ha b,
        Memory.read_write_same hwf a b, fun _ hk => Memory.read_write_other s.output b hk, rfl⟩,
      fun hb ha => State.hostWriteOut_of_absent (s := { s with hostMoves := ms }) hb ha b⟩

end Sys2Proof.Machine
end

section
/-! PROOFS. The encoding (spec/30_encoding.md): which control byte selects which opcode, decoding and encoding as inverse
to each other, and the assembly lines. -/

namespace Sys2Proof

/-! ## The control byte (spec/30_encoding.md R93) -/

/-- The classification on the number of the control byte: its top two bits are the number divided by 64. -/
theorem classify_toNat (c : Byte) :
    classify c =
      if c.toNat = 0xFE then .rgb
      else if c.toNat = 0xFF then .rgba
      else if c.toNat / 64 = 0 then .index
      else if c.toNat / 64 = 1 then .diff
      else if c.toNat / 64 = 2 then .luma
      else .run := by
  have htop : bits c 7 6 = c.toNat / 64 := Nat.mod_eq_of_lt (by omega)
  rw [classify, htop]
  simp only [← BitVec.toNat_inj]
  rfl

theorem classify_eq_rgb_iff {c : Byte} : classify c = .rgb ↔ c = 0xFE := by
  rw [classify_toNat, ← BitVec.toNat_inj]
  grind

theorem classify_eq_rgba_iff {c : Byte} : classify c = .rgba ↔ c = 0xFF := by
  rw [classify_toNat, ← BitVec.toNat_inj]
  grind

theorem classify_eq_index_iff {c : Byte} : classify c = .index ↔ c.toNat ≤ 0x3F := by
  rw [classify_toNat]
  grind

theorem classify_eq_diff_iff {c : Byte} : classify c = .diff ↔ 0x40 ≤ c.toNat ∧ c.toNat ≤ 0x7F := by
  rw [classify_toNat]
  grind

theorem classify_eq_luma_iff {c : Byte} : classify c = .luma ↔ 0x80 ≤ c.toNat ∧ c.toNat ≤ 0xBF := by
  rw [classify_toNat]
  grind

theorem classify_eq_run_iff {c : Byte} : classify c = .run ↔ 0xC0 ≤ c.toNat ∧ c.toNat ≤ 0xFD := by
  have hc := c.isLt
  rw [classify_toNat]
  grind

/-! ## The operand ranges (spec/30_encoding.md R95, R98, R104) -/

theorem Instr.wf_diff_iff {dr dg db : Int} :
    (Instr.diff dr dg db).wf = true ↔ (-2 ≤ dr ∧ dr ≤ 1) ∧ (-2 ≤ dg ∧ dg ≤ 1) ∧ (-2 ≤ db ∧ db ≤ 1) := by
  simp [Instr.wf, diffDelta, and_assoc]

theorem Instr.wf_luma_iff {dg drdg dbdg : Int} :
    (Instr.luma dg drdg dbdg).wf = true ↔ (-32 ≤ dg ∧ dg ≤ 31) ∧ (-8 ≤ drdg ∧ drdg ≤ 7) ∧ (-8 ≤ dbdg ∧ dbdg ≤ 7) := by
  simp [Instr.wf, lumaGreenDelta, lumaRelativeDelta, and_assoc]

theorem Instr.wf_run_iff {n : Nat} : (Instr.run n).wf = true ↔ 1 ≤ n ∧ n ≤ 62 := by
  simp [Instr.wf, runLength]

/-- Only a RUN yields another number of pixels than one (spec/41_opcode_dispatch.md R150). -/
theorem Instr.pixels_of_not_run {i : Instr} (h : ∀ n, i ≠ .run n) : i.pixels = 1 := by
  cases i with
  | run n => exact absurd rfl (h n)
  | _ => rfl

/-! ## Decoding, opcode by opcode (spec/30_encoding.md R94) -/

theorem decode_rgb (d e f : Byte) (rest : List Byte) : decode (0xFE :: d :: e :: f :: rest) = .instr (.rgb d e f) rest :=
  rfl

theorem decode_rgba (d e f h : Byte) (rest : List Byte) :
    decode (0xFF :: d :: e :: f :: h :: rest) = .instr (.rgba d e f h) rest := rfl

section

variable {c : Byte} (rest : List Byte)

theorem decode_of_index (hc : classify c = .index) : decode (c :: rest) = .instr (.index (indexField c)) rest := by
  rw [decode, hc, decodeOperands]

theorem decode_of_diff (hc : classify c = .diff) :
    decode (c :: rest) =
      .instr (.diff (biased (bits c 5 4) 2) (biased (bits c 3 2) 2) (biased (bits c 1 0) 2)) rest := by
  rw [decode, hc, decodeOperands]

theorem decode_of_luma (hc : classify c = .luma) (d : Byte) :
    decode (c :: d :: rest) =
      .instr (.luma (biased (bits c 5 0) 32) (biased (bits d 7 4) 8) (biased (bits d 3 0) 8)) rest := by
  rw [decode, hc, decodeOperands]

theorem decode_of_run (hc : classify c = .run) : decode (c :: rest) = .instr (.run (bits c 5 0 + 1)) rest := by
  rw [decode, hc, decodeOperands]

end

/-- Settles O1, opcode by opcode: each operand is a field less its bias, and each field reads back as it was written. -/
theorem decodeOfEncodeGivesInstruction : Obligations.DecodeOfEncodeGivesInstruction := by
  intro i rest hw
  cases i with
  | rgb r g b => rfl
  | rgba r g b a => rfl
  | index k =>
    obtain ⟨hc, hk⟩ := classify_index k
    rw [encode, List.singleton_append, decode_of_index rest hc, hk]
  | diff dr dg db =>
    obtain ⟨⟨hr1, hr2⟩, ⟨hg1, hg2⟩, hb1, hb2⟩ := Instr.wf_diff_iff.mp hw
    obtain ⟨r, rfl⟩ := exists_field (bias := 2) (n := 4) hr1 (by omega)
    obtain ⟨g, rfl⟩ := exists_field (bias := 2) (n := 4) hg1 (by omega)
    obtain ⟨b, rfl⟩ := exists_field (bias := 2) (n := 4) hb1 (by omega)
    obtain ⟨hc, hr, hg, hb⟩ := classify_diff r g b _ rfl
    simp only [encode, Int.sub_add_cancel, List.singleton_append]
    rw [decode_of_diff rest hc, hr, hg, hb]
    rfl
  | luma dg drdg dbdg =>
    obtain ⟨⟨hg1, hg2⟩, ⟨hr1, hr2⟩, hb1, hb2⟩ := Instr.wf_luma_iff.mp hw
    obtain ⟨g, rfl⟩ := exists_field (bias := 32) (n := 64) hg1 (by omega)
    obtain ⟨r, rfl⟩ := exists_field (bias := 8) (n := 16) hr1 (by omega)
    obtain ⟨b, rfl⟩ := exists_field (bias := 8) (n := 16) hb1 (by omega)
    obtain ⟨hc, hg⟩ := classify_luma g _ rfl
    obtain ⟨hr, hb⟩ := luma_nibbles r b _ rfl
    simp only [encode, Int.sub_add_cancel, List.cons_append, List.nil_append]
    rw [decode_of_luma rest hc, hg, hr, hb]
    rfl
  | run n =>
    obtain ⟨hn, hle⟩ := Instr.wf_run_iff.mp hw
    obtain ⟨l, rfl⟩ := Nat.exists_eq_add_of_le' hn
    obtain ⟨hc, hl⟩ := classify_run ⟨l, by omega⟩ _ rfl
    simp only [encode, Int.natCast_add, Int.natCast_one, Int.add_sub_cancel, List.singleton_append]
    rw [decode_of_run rest hc, hl]

/-! ## The bytes that decode (spec/30_encoding.md R101) -/

/-- The byte of the number of a byte. -/
theorem byteOf_eq {c : Byte} {z : Int} (h : z = c.toNat) : byteOf z = c := by
  rw [byteOf, h, BitVec.ofInt_natCast, BitVec.ofNat_toNat, BitVec.setWidth_eq]

/-- Settles O2: the fields of the control byte and of a second LUMA byte are all of their bits, so the operands give the
bytes back. -/
theorem decodedBytesAreTheEncoding : Obligations.DecodedBytesAreTheEncoding := by
  intro bytes rest i h
  obtain _ | ⟨c, tail⟩ := bytes
  · cases h
  rw [decode] at h
  cases hc : classify c with
  | rgb =>
    obtain rfl := classify_eq_rgb_iff.mp hc
    rcases tail with _ | ⟨d, _ | ⟨e, _ | ⟨f, tail⟩⟩⟩ <;> cases h
    exact ⟨rfl, rfl⟩
  | rgba =>
    obtain rfl := classify_eq_rgba_iff.mp hc
    rcases tail with _ | ⟨d, _ | ⟨e, _ | ⟨f, _ | ⟨g, tail⟩⟩⟩⟩ <;> cases h
    exact ⟨rfl, rfl⟩
  | index =>
    rw [hc] at h
    cases h
    have hrange := classify_eq_index_iff.mp hc
    refine ⟨rfl, ?_⟩
    rw [encode, byteOf_eq (c := c), List.singleton_append]
    simp only [indexField, bits]
    omega
  | diff =>
    rw [hc] at h
    cases h
    have hrange := classify_eq_diff_iff.mp hc
    constructor
    · simp only [Instr.wf_diff_iff, biased, bits]
      omega
    · rw [encode, byteOf_eq (c := c), List.singleton_append]
      simp only [biased, bits]
      omega
  | luma =>
    rw [hc] at h
    obtain _ | ⟨d, tail⟩ := tail <;> cases h
    have hrange := classify_eq_luma_iff.mp hc
    have hd := d.isLt
    constructor
    · simp only [Instr.wf_luma_iff, biased, bits]
      omega
    · rw [encode, byteOf_eq (c := c), byteOf_eq (c := d), List.cons_append, List.singleton_append]
      all_goals
        simp only [biased, bits]
        omega
  | run =>
    rw [hc] at h
    cases h
    have hrange := classify_eq_run_iff.mp hc
    constructor
    · exact Instr.wf_run_iff.mpr ⟨Nat.le_add_left _ _, classify_run_field hc⟩
    · rw [encode, byteOf_eq (c := c), List.singleton_append]
      simp only [bits]
      omega

/-- The operands are there where the opcode's length in bytes is (spec/30_encoding.md R100). -/
theorem exists_decodeOperands {op : Opcode} {tail : List Byte} (c : Byte) (h : op.length ≤ tail.length + 1) :
    ∃ i rest, decodeOperands op c tail = .instr i rest := by
  cases op with
  | rgb => rcases tail with _ | ⟨d, _ | ⟨e, _ | ⟨f, tail⟩⟩⟩ <;> simp [Opcode.length, decodeOperands] at h ⊢
  | rgba => rcases tail with _ | ⟨d, _ | ⟨e, _ | ⟨f, _ | ⟨g, tail⟩⟩⟩⟩ <;> simp [Opcode.length, decodeOperands] at h ⊢
  | index => exact ⟨_, _, rfl⟩
  | diff => exact ⟨_, _, rfl⟩
  | luma => cases tail <;> simp [Opcode.length, decodeOperands] at h ⊢
  | run => exact ⟨_, _, rfl⟩

/-- Decoding rejects bytes only where some are missing (spec/41_opcode_dispatch.md R146). -/
theorem length_lt_of_decode_reject {c : Byte} {tail : List Byte} {why : DecodeReject}
    (h : decode (c :: tail) = .reject why) : (c :: tail).length < oplen c := by
  by_contra hlen
  obtain ⟨i, rest, hi⟩ := exists_decodeOperands c (Nat.not_lt.mp hlen)
  rw [decode, hi] at h
  cases h

/-- Settles O4: each range of control bytes selects one opcode, whose fields are the bits of the number of the byte. -/
theorem controlByteMapGivesOperands : Obligations.ControlByteMapGivesOperands := by
  refine ⟨fun c rest h => ?_, fun c rest h1 h2 => ?_, fun c d rest h1 h2 => ?_, fun c rest h1 h2 => ⟨?_, ?_⟩,
    decode_rgb, decode_rgba, fun bytes why h => ?_⟩
  · have hfield : indexField c = ⟨c.toNat, by omega⟩ := Fin.ext (by simp only [indexField, bits]; omega)
    rw [decode_of_index rest (classify_eq_index_iff.mpr h), hfield]
  · rw [decode_of_diff rest (classify_eq_diff_iff.mpr ⟨h1, h2⟩)]
    simp [biased, bits]
  · rw [decode_of_luma rest (classify_eq_luma_iff.mpr ⟨h1, h2⟩)]
    have hg : biased (bits c 5 0) 32 = (c.toNat : Int) - 0x80 - 32 := by
      simp only [biased, bits]
      omega
    have hr : bits d 7 4 = d.toNat / 16 := Nat.mod_eq_of_lt (by omega)
    have hb : bits d 3 0 = d.toNat % 16 := by simp [bits]
    rw [hg, hr, hb]
    rfl
  · have hfield : bits c 5 0 = c.toNat - 0xC0 := by simp only [bits]; omega
    rw [decode_of_run rest (classify_eq_run_iff.mpr ⟨h1, h2⟩), hfield]
  · omega
  · obtain _ | ⟨c, tail⟩ := bytes
    · exact .inl rfl
    · exact .inr ⟨c, tail, rfl, length_lt_of_decode_reject h⟩

/-- The opcode of a decoded instruction is the one that its control byte selects (spec/30_encoding.md R93). -/
theorem decode_opcode {c : Byte} {tail rest : List Byte} {i : Instr} (h : decode (c :: tail) = .instr i rest) :
    i.opcode = classify c := by
  rw [decode] at h
  unfold decodeOperands at h
  split at h <;> cases h <;> exact (‹classify c = _›).symm

/-- Settles O5: decoding never rejects bytes that are all there, and takes as many as its opcode is long. -/
theorem controlByteFixesLength : Obligations.ControlByteFixesLength := by
  refine fun c tail => ⟨?_, fun hlen => ?_⟩
  · rw [oplen, classify_toNat]
    simp only [← BitVec.toNat_inj]
    grind [Opcode.length]
  · cases hd : decode (c :: tail) with
    | instr i rest =>
      have henc := (decodedBytesAreTheEncoding _ _ _ hd).2
      have hlen : oplen c = (encode i).length := by rw [encode_length, decode_opcode hd, oplen]
      exact ⟨i, by rw [henc, hlen, List.drop_left]⟩
    | reject why => exact absurd (length_lt_of_decode_reject hd) (Nat.not_lt.mpr hlen)

/-- Settles O3: the masks of the table cut out the same ranges as the classification. -/
theorem controlByteSelectsOneOpcode : Obligations.ControlByteSelectsOneOpcode := by
  intro c
  refine ⟨classify_toNat c, ?_⟩
  revert c
  decide

/-- Settles O6: each word is evaluated. -/
theorem wordsOfTheTestVectorsDecode : Obligations.WordsOfTheTestVectorsDecode := by
  refine ⟨rfl, rfl, rfl, rfl, rfl, rfl⟩

end Sys2Proof

namespace Sys2Proof.Machine

/-- Settles O7: the assembler asks for nothing but well-formedness. -/
theorem assemblerRefusesOutOfRange : Obligations.AssemblerRefusesOutOfRange :=
  ⟨fun _ _ => rfl, fun _ => ⟨rfl, rfl, rfl, rfl⟩⟩

/-! ## Complete streams (spec/30_encoding.md R90) -/

theorem completeStream_nil {total : Nat} : CompleteStream [] total ↔ total = 0 := by
  simp [CompleteStream, pixelsOf]

/-- A stream is complete where its first opcode is due and the rest completes what that opcode leaves. -/
theorem completeStream_cons {i : Instr} {ops : List Instr} {total : Nat} :
    CompleteStream (i :: ops) total ↔ i.wf = true ∧ 0 < total ∧ CompleteStream ops (total - i.pixels) := by
  have hcons : ∀ l, pixelsOf (i :: l) = i.pixels + pixelsOf l := fun l => by simp [pixelsOf]
  constructor
  · rintro ⟨hwf, henough, hneed⟩
    obtain ⟨hi, hops⟩ := List.forall_mem_cons.mp hwf
    have hdue : 0 < total :=
      Nat.zero_lt_of_lt (hneed _ _ (List.dropLast_append_getLast (List.cons_ne_nil i ops)).symm)
    refine ⟨hi, hdue, hops, ?_, fun front last e => ?_⟩
    · rw [hcons] at henough
      omega
    · have := hneed (i :: front) last (by rw [e, List.cons_append])
      rw [hcons] at this
      omega
  · rintro ⟨hi, hdue, hops, henough, hneed⟩
    refine ⟨List.forall_mem_cons.mpr ⟨hi, hops⟩, ?_, fun front last e => ?_⟩
    · rw [hcons]
      omega
    · obtain _ | ⟨j, front⟩ := front
      · exact hdue
      · obtain ⟨rfl, htail⟩ := List.cons.inj e
        have := hneed front last htail
        rw [hcons]
        omega

/-- Settles O8, by induction on the opcodes: each decodes to itself, and what it leaves due the rest completes. -/
theorem disassemblyGivesBackTheStream : Obligations.DisassemblyGivesBackTheStream := by
  intro ops
  induction ops with
  | nil =>
    intro total fuel hc _
    obtain rfl := completeStream_nil.mp hc
    cases fuel <;> rfl
  | cons i ops ih =>
    intro total fuel hc hfuel
    obtain ⟨hwf, hdue, hc⟩ := completeStream_cons.mp hc
    obtain ⟨total, rfl⟩ := Nat.exists_eq_add_of_le' hdue
    obtain ⟨fuel, rfl⟩ := Nat.exists_eq_add_of_le' (Nat.zero_lt_of_lt hfuel)
    rw [List.flatMap_cons, List.append_assoc, disassembleStream, decodeOfEncodeGivesInstruction i _ hwf]
    simp only [ih _ fuel hc (Nat.le_of_succ_le_succ hfuel), List.map_cons, List.cons_append]

end Sys2Proof.Machine
end

section
/-! PROOFS. Whole decodes (spec/30_encoding.md R90): a state in the middle of a decode expects the rest of the input to be
some opcodes and the end marker. Each step keeps what is expected and the image that it stands for, so a well-formed input
leads to DONE, and DONE is reached from no other. -/

namespace Sys2Proof.Machine

/-! ## The rest of the input -/

/-- The input from `IN_POS` to `IN_LEN`. -/
def State.restBytes (s : State) : List Byte := s.inBytes s.inPos.toNat s.avail

@[simp] theorem State.restBytes_length (s : State) : s.restBytes.length = s.avail := Memory.readBytes_length _ _ _

/-- The decoder sees the first bytes of the rest (spec/20_memory.md R61). -/
theorem State.window_eq_take (s : State) : s.window = s.restBytes.take maxLength := by
  rw [State.window, State.restBytes, State.inBytes, State.inBytes, ← Memory.readBytes_take _ _ _ _ (min_le_left _ _),
    List.take_eq_take_iff, Memory.readBytes_length]
  omega

theorem State.restBytes_advance {s : State} {n : Nat} (hn : n ≤ s.avail) (hp : s.inPos.toNat ≤ s.inLen.toNat) :
    (s.advance n).restBytes = s.restBytes.drop n := by
  have havail : (s.advance n).avail = s.avail - n := by
    simp only [State.avail, State.advance_inPos, State.advance_inLen, (State.inPos_add_toNat hn hp).1]
    omega
  rw [State.restBytes, State.restBytes, State.inBytes, State.inBytes, Memory.readBytes_drop _ _ _ _ hn, havail,
    State.advance_inPos, (State.inPos_add_toNat hn hp).1, State.advance_input]

/-- What the decoder reads stands at the head of the rest. -/
theorem State.restBytes_of_decode {s : State} {i : Instr} {rest : List Byte} (h : decode s.window = .instr i rest) :
    i.wf = true ∧ s.restBytes = encode i ++ s.restBytes.drop i.opcode.length := by
  obtain ⟨hwf, hbytes⟩ := decodedBytesAreTheEncoding _ _ _ h
  have hprefix : encode i <+: s.restBytes :=
    (List.prefix_append _ _).trans (hbytes ▸ s.window_eq_take ▸ List.take_prefix _ _)
  rw [← encode_length]
  exact ⟨hwf, (List.prefix_iff_eq_append.mp hprefix).symm⟩

/-- A well-formed instruction at the head of the rest is what the decoder reads. -/
theorem State.decode_of_restBytes {s : State} {i : Instr} {more : List Byte} (hwf : i.wf = true)
    (h : s.restBytes = encode i ++ more) : ∃ rest, decode s.window = .instr i rest := by
  have hlen : (encode i).length ≤ maxLength := encode_length i ▸ opcode_length_le _
  rw [s.window_eq_take, h, List.take_append, List.take_of_length_le hlen]
  exact ⟨_, decodeOfEncodeGivesInstruction i _ hwf⟩

/-! ## The counters -/

/-- The machine's invariant, but for what it says of the memories' contents: no counter depends on them. -/
def State.Counted (s : State) : Prop := s.bare.Inv

theorem State.Inv.counted {s : State} (h : s.Inv) : s.Counted :=
  { h with
    inputWf := rfl
    outputWf := rfl
    outputInside := by simp [State.bare] }

theorem State.counted_fresh (s : State) : s.fresh.Counted :=
  { (State.reset_inv.newInLen (by decide) s.inLen).startFresh with
    outputInside := by simp [State.bare] }

namespace State.Counted

variable {s : State}

theorem acceptHeader (h : s.Counted) (hb : s.status = .busy) (hp : s.phase = .hdr) (hl : headerBytes ≤ s.inLen.toNat) :
    s.acceptHeader.Counted :=
  { h with
    pixTotal := pixelTotal_toNat _ _
    pixCount := (congrArg BitVec.toNat (h.fresh hb hp).2.1).trans_le (Nat.zero_le _)
    inPos := fun _ => hl
    stream := fun _ _ => le_refl headerBytes
    runRemain := fun hr => absurd (h.runRemain_eq_zero (by simp [bare, hp])) hr
    runEmit := by simp [bare]
    fresh := by simp [bare]
    ending := by simp [bare]
    finished := by simp [bare, hb] }

theorem enterEndMarker (h : s.Counted) (hb : s.status = .busy) (hp : s.phase = .ops) (he : s.pixCount = s.pixTotal) :
    ({ s with phase := .endMarker } : State).Counted := (Inv.enterEndMarker (s := s.bare) h hb hp he).counted

theorem loadRun (h : s.Counted) (hb : s.status = .busy) (hp : s.phase = .ops) (hne : s.pixCount ≠ s.pixTotal) {n : Nat}
    (hn : 1 ≤ n ∧ n ≤ 62) (ha : 1 ≤ s.avail) :
    (State.advance { s with runRemain := BitVec.ofNat 6 n, phase := .runEmit } 1).Counted :=
  (Inv.loadRun (s := s.bare) h hb hp hne hn ha).counted

theorem commit (h : s.Counted) (hb : s.status = .busy) (hp : s.phase = .ops) (hne : s.pixCount ≠ s.pixTotal)
    (hf : s.outFits = true) (p : Pixel) {n : Nat} (ha : n ≤ s.avail) : ((s.appended p).remember p n).Counted :=
  (Inv.commit (s := s.bare) h hb hp hne hf p ha).counted

theorem emit (h : s.Counted) (hb : s.status = .busy) (hp : s.phase = .runEmit) (hf : s.outFits = true) :
    (s.appended s.prev).countRun.Counted := by
  have hbare : (s.bare.appended s.bare.prev).countRun.bare = (s.appended s.prev).countRun.bare := by
    rw [countRun, countRun, apply_ite bare, apply_ite bare]
    rfl
  rw [Counted, ← hbare]
  exact (Inv.emit (s := s.bare) h hb hp hf).counted

end State.Counted

/-! ## Opcodes -/

/-- The running state of the spec's decode loop that a state holds (spec/10_state.md R21). -/
def State.running (s : State) : Running := ⟨s.prev, s.cache⟩

theorem Running.after_of_not_run {i : Instr} (h : ∀ n, i ≠ .run n) (r : Running) : r.after i = r.keep (r.pixel i) := by
  cases i with
  | run n => exact absurd rfl (h n)
  | _ => rfl

/-- With all its bytes there, an opcode loads a run or commits the pixel that the spec's decode loop gives it. -/
theorem exec_next_of_avail {i : Instr} {s t : State} (ha : i.opcode.length ≤ s.avail) (h : exec i s = .next t) :
    (∃ n, i = .run n ∧ t = State.advance { s with runRemain := BitVec.ofNat 6 n, phase := .runEmit } 1) ∨
    ((∀ n, i ≠ .run n) ∧ s.outFits = true ∧
      t = (s.appended (s.running.pixel i)).remember (s.running.pixel i) i.opcode.length) := by
  cases i with
  | run n =>
    injection h with h
    exact .inl ⟨n, rfl, h.symm⟩
  | rgb r g b =>
    exact .inr ⟨by simp, State.commit_next ((State.needBytes_of_le _ ha).symm.trans h)⟩
  | rgba r g b a =>
    exact .inr ⟨by simp, State.commit_next ((State.needBytes_of_le _ ha).symm.trans h)⟩
  | index k => exact .inr ⟨by simp, State.commit_next h⟩
  | diff dr dg db => exact .inr ⟨by simp, State.commit_next h⟩
  | luma dg drdg dbdg =>
    exact .inr ⟨by simp, State.commit_next ((State.needBytes_of_le _ ha).symm.trans h)⟩

/-- With all its bytes and room for a pixel there, an opcode answers a next state. -/
theorem exec_of_fits {i : Instr} {s : State} (ha : i.opcode.length ≤ s.avail) (hf : s.outFits = true) :
    ∃ t, exec i s = .next t := by
  by_cases hrun : ∃ n, i = .run n
  · obtain ⟨n, rfl⟩ := hrun
    exact ⟨_, rfl⟩
  · obtain ⟨p, hp⟩ := exec_eq_commit (not_exists.mp hrun) ha
    exact ⟨_, hp.trans (State.commit_of_fits p _ hf)⟩

/-- The length of a decoded run fits `RUN_REMAIN` (spec/10_state.md R28). -/
theorem toNat_of_decoded_run {bs rest : List Byte} {n : Nat} (h : decode bs = .instr (.run n) rest) :
    (BitVec.ofNat 6 n).toNat = n := by
  have hn := decode_run_bounds h
  exact Nat.mod_eq_of_lt (by omega)

/-! ## What a decode expects -/

/-- How many pixels are still to be appended. -/
def State.due (s : State) : Nat := s.pixTotal.toNat - s.pixCount.toNat

/-- A decode in progress, past its header, with no host move pending. -/
structure State.MidDecode (s : State) : Prop where
  quiet : s.hostMoves = []
  busy : s.status = .busy
  past : s.phase ≠ .hdr
  counted : s.Counted

/-- The rest of the input is the opcodes `ops` and the end marker, and they complete what the run in progress leaves of
the image. -/
structure State.Expects (s : State) (ops : List Instr) : Prop where
  bytes : s.restBytes = ops.flatMap encode ++ endMarker
  complete : CompleteStream ops (s.due - s.runRemain.toNat)

namespace State.MidDecode

variable {s t : State}

theorem enterEndMarker (h : s.MidDecode) (hp : s.phase = .ops) (he : s.pixCount = s.pixTotal) :
    ({ s with phase := .endMarker } : State).MidDecode :=
  ⟨h.quiet, h.busy, by simp, h.counted.enterEndMarker h.busy hp he⟩

theorem runRemain_of_ops (h : s.MidDecode) (hp : s.phase = .ops) : s.runRemain = 0 :=
  Inv.runRemain_eq_zero (s := s.bare) h.counted (by simp [bare, hp])

/-- In a run emission a run is left, and a pixel is due (spec/45_run_op.md R202). -/
theorem runEmit_due (h : s.MidDecode) (hp : s.phase = .runEmit) :
    0 < s.runRemain.toNat ∧ s.pixCount.toNat < s.pixTotal.toNat := by
  obtain ⟨hrun, hlt⟩ : s.runRemain ≠ 0 ∧ s.pixCount.toNat < s.pixTotal.toNat := h.counted.runEmit h.busy hp
  exact ⟨by bv_omega, hlt⟩

/-- At the END step no pixel is due (spec/41_opcode_dispatch.md R143). -/
theorem endMarker_due (h : s.MidDecode) (hp : s.phase = .endMarker) : s.pixCount = s.pixTotal ∧ s.due = 0 := by
  have hall : s.pixCount = s.pixTotal := h.counted.ending h.busy hp
  exact ⟨hall, by rw [due, hall, Nat.sub_self]⟩

theorem pixCount_lt (h : s.MidDecode) (hne : s.pixCount ≠ s.pixTotal) : s.pixCount.toNat < s.pixTotal.toNat :=
  Inv.pixCount_lt (s := s.bare) h.counted hne

theorem inPos_le (h : s.MidDecode) : s.inPos.toNat ≤ s.inLen.toNat := h.counted.inPos h.busy

/-- A run emission stays in the middle of the decode. -/
theorem emit (h : s.MidDecode) (hp : s.phase = .runEmit) (hf : s.outFits = true) :
    (s.appended s.prev).countRun.MidDecode where
  quiet := by rw [countRun_eq]; exact h.quiet
  busy := by rw [countRun_eq]; exact h.busy
  past := by
    unfold countRun
    split
    · simp
    · simp [hp]
  counted := h.counted.emit h.busy hp hf

/-- A decoded opcode stays in the middle of the decode. -/
theorem opcode {i : Instr} {rest : List Byte} (h : s.MidDecode) (hp : s.phase = .ops) (hne : s.pixCount ≠ s.pixTotal)
    (hd : decode s.window = .instr i rest) (he : exec i s = .next t) : t.MidDecode := by
  have ha := length_le_avail hd
  obtain ⟨n, rfl, rfl⟩ | ⟨-, hf, rfl⟩ := exec_next_of_avail ha he
  · exact ⟨h.quiet, h.busy, by simp, h.counted.loadRun h.busy hp hne (decode_run_bounds hd) ha⟩
  · exact ⟨h.quiet, h.busy, by simp [hp], h.counted.commit h.busy hp hne hf _ ha⟩

/-- A run emission appends a pixel that is due, and ends the run early only with the image (spec/45_run_op.md R202). -/
theorem emit_counts (h : s.MidDecode) (hp : s.phase = .runEmit) (ht : t = (s.appended s.prev).countRun) :
    t.due + 1 = s.due ∧ (t.runRemain.toNat + 1 = s.runRemain.toNat ∨ (t.runRemain = 0 ∧ t.due = 0)) := by
  obtain ⟨hrun, hlt⟩ := h.runEmit_due hp
  have hcount := succ_toNat_of_lt hlt
  have hdue : t.due + 1 = s.due := by
    rw [ht, countRun_eq]
    simp only [due, appended_pixTotal, appended_pixCount, hcount]
    omega
  have hrest : (s.runRemain - 1).toNat + 1 = s.runRemain.toNat := by bv_omega
  refine ⟨hdue, ?_⟩
  by_cases hend : s.runRemain - 1 = 0 ∨ s.pixCount + 1 = s.pixTotal
  · rw [countRun_ends (by simpa using hend)] at ht
    subst ht
    refine hend.imp (fun hlast => ?_) fun hlast => ⟨rfl, ?_⟩
    · rw [hlast] at hrest
      exact hrest
    · change s.pixTotal.toNat - (s.pixCount + 1).toNat = 0
      rw [hlast, Nat.sub_self]
  · rw [countRun_goes_on (by simpa using hend)] at ht
    subst ht
    exact .inl hrest

/-- What is expected stays the same over a run emission. -/
theorem expects_emit_iff (h : s.MidDecode) (hp : s.phase = .runEmit) {ops : List Instr}
    (ht : t = (s.appended s.prev).countRun) : t.Expects ops ↔ s.Expects ops := by
  have hrest : t.restBytes = s.restBytes := by rw [ht, countRun_eq]; rfl
  have howed : t.due - t.runRemain.toNat = s.due - s.runRemain.toNat := by
    have hpos := (h.runEmit_due hp).1
    obtain ⟨hdue, hrun | ⟨hrun, hlast⟩⟩ := h.emit_counts hp ht <;> omega
  constructor <;> rintro ⟨hb, hc⟩
  · exact ⟨hrest ▸ hb, howed ▸ hc⟩
  · exact ⟨hrest.trans hb, howed.symm ▸ hc⟩

/-- What an opcode takes from the rest of the input and from the pixels due. -/
theorem opcode_takes {i : Instr} {rest : List Byte} (h : s.MidDecode) (hp : s.phase = .ops)
    (hne : s.pixCount ≠ s.pixTotal) (hd : decode s.window = .instr i rest) (he : exec i s = .next t) :
    s.restBytes = encode i ++ t.restBytes ∧ t.due - t.runRemain.toNat = s.due - i.pixels := by
  have ha := length_le_avail hd
  rw [(restBytes_of_decode hd).2, ← restBytes_advance ha h.inPos_le]
  obtain ⟨n, rfl, rfl⟩ | ⟨hrun, -, rfl⟩ := exec_next_of_avail ha he
  · refine ⟨rfl, ?_⟩
    simp [due, Instr.pixels, toNat_of_decoded_run hd]
  · refine ⟨rfl, ?_⟩
    have hnone : s.runRemain.toNat = 0 := by simp [h.runRemain_of_ops hp]
    simp only [due, remember_pixTotal, remember_pixCount, remember_runRemain, appended_pixTotal, appended_pixCount,
      appended_runRemain, hnone, succ_toNat_of_lt (h.pixCount_lt hne), Instr.pixels_of_not_run hrun]
    omega

/-- What is expected after an opcode, was expected after that opcode. -/
theorem expects_opcode_iff {i : Instr} {rest : List Byte} {ops : List Instr} (h : s.MidDecode) (hp : s.phase = .ops)
    (hne : s.pixCount ≠ s.pixTotal) (hd : decode s.window = .instr i rest) (he : exec i s = .next t) :
    t.Expects ops ↔ s.Expects (i :: ops) := by
  obtain ⟨hrest, howed⟩ := h.opcode_takes hp hne hd he
  have hrun := h.runRemain_of_ops hp
  have hdue : 0 < s.due := Nat.sub_pos_of_lt (h.pixCount_lt hne)
  constructor <;> rintro ⟨hb, hc⟩
  · exact {
      bytes := by rw [hrest, hb, List.flatMap_cons, List.append_assoc]
      complete := by
        rw [hrun]
        exact completeStream_cons.mpr ⟨(restBytes_of_decode hd).1, hdue, howed ▸ hc⟩ }
  · rw [hrest, List.flatMap_cons, List.append_assoc] at hb
    rw [hrun] at hc
    exact {
      bytes := List.append_cancel_left hb
      complete := by
        rw [howed]
        exact (completeStream_cons.mp hc).2.2 }

end State.MidDecode

/-! ## Only a well-formed input leads to DONE -/

/-- Once outside BUSY the block stays as it is (spec/60_exceptions.md R285). -/
theorem steps_of_not_busy {s : State} (hq : s.hostMoves = []) (hb : s.status ≠ .busy) (n : Nat) : steps n s = .next s := by
  induction n with
  | zero => rfl
  | succ n ih => rw [steps_succ_of_next ((step_quiet hq).trans (blockStep_of_not_busy hb)), ih]

/-- No run leads from an error to DONE. -/
theorem not_done_of_error {s t : State} {n : Nat} (hq : s.hostMoves = []) (he : s.status = .error)
    (h : steps n s = .next t) : t.status ≠ .done := by
  rw [steps_of_not_busy hq (by simp [he])] at h
  cases h
  simp [he]

/-- A decode that goes on to DONE has the opcodes and the end marker before it, by induction on the steps. -/
theorem State.MidDecode.exists_expects {s t : State} {n : Nat} (h : s.MidDecode) (hs : steps n s = .next t)
    (ht : t.status = .done) : ∃ ops, s.Expects ops := by
  induction n generalizing s with
  | zero =>
    cases hs
    exact absurd (h.busy.symm.trans ht) (by decide)
  | succ n ih =>
    rw [steps_succ] at hs
    cases hstep : step s with
    | fault f => simp [hstep] at hs
    | refused r => simp [hstep] at hs
    | next u =>
      simp only [hstep] at hs
      rw [step_quiet h.quiet] at hstep
      obtain ⟨hb, -⟩ | ⟨-, hp, -⟩ | ⟨-, hp, he, rfl⟩ | ⟨-, hp, hne, hd⟩ | ⟨-, hp, hf, hu⟩ | ⟨-, hp, hu⟩ :=
        blockStep_next hstep
      · exact absurd h.busy hb
      · exact absurd hp h.past
      · exact (ih (h.enterEndMarker hp he) hs).imp fun ops ho => ⟨ho.bytes, ho.complete⟩
      · obtain rfl | ⟨i, rest, hdec, hexec⟩ := dispatch_next hd
        · exact absurd ht (not_done_of_error (s := s.raise _ _) h.quiet rfl hs)
        · obtain ⟨ops, ho⟩ := ih (h.opcode hp hne hdec hexec) hs
          exact ⟨i :: ops, (h.expects_opcode_iff hp hne hdec hexec).mp ho⟩
      · exact (ih (hu ▸ h.emit hp hf) hs).imp fun ops => (h.expects_emit_iff hp hu).mp
      · obtain heq | ⟨h8, hmarker, -⟩ := endStep_cases s
        · rw [hu, heq] at hs
          exact absurd ht (not_done_of_error (s := s.raise _ _) h.quiet rfl hs)
        · refine ⟨[], ?_, completeStream_nil.mpr ?_⟩
          · rw [restBytes, h8]
            exact hmarker
          · rw [(h.endMarker_due hp).2, Nat.zero_sub]

/-! ## The header -/

/-- The header step accepts a header that is all there and begins with the magic (spec/40_header_parser.md R120). -/
theorem headerStep_of_magic {s : State} (hl : headerBytes ≤ s.inLen.toNat) (hm : s.inBytes 0 4 = s.cfg.magic.toList) :
    headerStep s = s.acceptHeader := by
  simp only [headerBytes] at hl
  simp only [headerStep, hm, not_lt.mpr (show 4 ≤ s.inLen.toNat by omega), not_lt.mpr (show 8 ≤ s.inLen.toNat by omega),
    not_lt.mpr (show 12 ≤ s.inLen.toNat by omega), not_lt.mpr (show 13 ≤ s.inLen.toNat by omega), not_lt.mpr hl]
  simp

/-- An accepted header is the input's first 14 bytes: the magic, the fields, and then the opcode stream
(spec/30_encoding.md R91). -/
theorem State.inBytes_header {s : State} (hl : headerBytes ≤ s.inLen.toNat) :
    s.inBytes 0 s.inLen.toNat =
      s.inBytes 0 4 ++ be32Bytes s.acceptHeader.width ++ be32Bytes s.acceptHeader.height ++
        [s.acceptHeader.channels, s.acceptHeader.colorspace] ++ s.acceptHeader.restBytes := by
  simp only [headerBytes] at hl
  obtain ⟨k, hk⟩ := Nat.exists_eq_add_of_le hl
  have hrest : s.acceptHeader.restBytes = Memory.readBytes s.input 14 k := by
    have : s.acceptHeader.avail = k := by simp [avail, headerBytes, hk]
    rw [restBytes, this]
    rfl
  rw [hrest, hk, inBytes, inBytes, Memory.readBytes_append, acceptHeader_width, acceptHeader_height, be32Bytes_be32,
    be32Bytes_be32]
  rfl

theorem State.MidDecode.of_header {s : State} (hq : s.quiet) (hl : headerBytes ≤ s.inLen.toNat) :
    s.fresh.acceptHeader.MidDecode :=
  ⟨hq, rfl, by simp, s.counted_fresh.acceptHeader rfl rfl hl⟩

/-- Before its first pixel a decode has all `w * h` pixels due (spec/40_header_parser.md R125). -/
theorem State.MidDecode.due_of_first {s : State} (h : s.MidDecode) (hc : s.pixCount = 0) :
    s.due = s.width.toNat * s.height.toNat := by
  have htotal : s.pixTotal.toNat = s.width.toNat * s.height.toNat := h.counted.pixTotal
  have hcount : s.pixCount.toNat = 0 := by simp [hc]
  rw [due, hcount, htotal, Nat.sub_zero]

/-- Settles O57: START and the header step lead to a state that expects the opcodes and the end marker. -/
theorem doneMeansAWellFormedInput : Obligations.DoneMeansAWellFormedInput := by
  intro s t n hq hb hs ht
  rw [State.start_of_not_busy hb] at hs
  obtain _ | n := n
  · cases hs
    exact absurd ht (by simp)
  have hstep : step s.fresh = .next (headerStep s.fresh) :=
    (step_quiet (s := s.fresh) hq).trans (blockStep_of_hdr rfl rfl)
  rw [steps_succ_of_next hstep] at hs
  obtain ⟨e, pos, heq, -⟩ | ⟨hl, hm, heq⟩ := headerStep_cases s.fresh <;> rw [heq] at hs
  · exact absurd ht (not_done_of_error (s := s.fresh.raise _ _) hq rfl hs)
  · have hmid := State.MidDecode.of_header hq hl
    obtain ⟨ops, ho⟩ := hmid.exists_expects hs ht
    have hin := State.inBytes_header hl
    rw [hm, ho.bytes, ← List.append_assoc] at hin
    have hcomplete := ho.complete
    have hrun : s.fresh.acceptHeader.runRemain.toNat = 0 := rfl
    rw [hmid.due_of_first rfl, hrun, Nat.sub_zero] at hcomplete
    exact ⟨_, _, _, _, ops, hin, hcomplete⟩

/-! ## The image that a state stands for -/

/-- The pixels still to be appended where the rest of the input holds `ops`: those of the run in progress and of the
opcodes, as far as they are due. -/
def State.pixelsToCome (s : State) (ops : List Instr) : List Pixel :=
  (List.replicate s.runRemain.toNat s.prev ++ imagePixels s.running ops).take s.due

/-- The bytes of the whole image: those in `OUT` and those to come. -/
def State.image (s : State) (ops : List Instr) : List Byte :=
  Memory.readBytes s.output 0 (4 * s.pixCount.toNat) ++ (s.pixelsToCome ops).flatMap Pixel.bytes

/-- The written part of the image grows by the appended pixel (spec/48_pixel_accumulator.md R250). -/
theorem State.readBytes_appended {s : State} (p : Pixel) (hwf : Memory.wf s.output = true) :
    Memory.readBytes (s.appended p).output 0 (4 * s.pixCount.toNat + 4) =
      Memory.readBytes s.output 0 (4 * s.pixCount.toNat) ++ p.bytes := by
  rw [Memory.readBytes_append, Nat.zero_add]
  congr 1
  · exact Memory.readBytes_congr fun k _ hk => s.read_appended_other p (.inl (by simpa [outAddr] using hk))
  · exact s.read_appended_pixel p hwf

/-- Appending the next pixel of the image keeps the image. -/
theorem State.image_of_append {s t : State} {p : Pixel} {ops ops' : List Instr} (hwf : Memory.wf s.output = true)
    (hlt : s.pixCount.toNat < s.pixTotal.toNat) (hout : t.output = (s.appended p).output)
    (hcount : t.pixCount = s.pixCount + 1) (hnext : s.pixelsToCome ops = p :: t.pixelsToCome ops') :
    t.image ops' = s.image ops := by
  rw [image, image, hnext, hcount, succ_toNat_of_lt hlt, hout, Nat.mul_succ, readBytes_appended p hwf,
    List.flatMap_cons, List.append_assoc]

namespace State.MidDecode

variable {s t : State} {ops : List Instr}

theorem image_emit (h : s.MidDecode) (hp : s.phase = .runEmit) (hwf : Memory.wf s.output = true)
    (ht : t = (s.appended s.prev).countRun) : t.image ops = s.image ops := by
  obtain ⟨hrun, hlt⟩ := h.runEmit_due hp
  obtain ⟨r, hr⟩ := Nat.exists_eq_add_one.mpr hrun
  have hsame : t.output = (s.appended s.prev).output ∧ t.pixCount = s.pixCount + 1 ∧ t.prev = s.prev ∧
      t.running = s.running := by
    rw [ht, countRun_eq]
    exact ⟨rfl, rfl, rfl, rfl⟩
  obtain ⟨hout, hcount, hprev, hrunning⟩ := hsame
  refine image_of_append hwf hlt hout hcount ?_
  obtain ⟨hdue, hleft⟩ := h.emit_counts hp ht
  rw [pixelsToCome, pixelsToCome, hr, hprev, hrunning, ← hdue, List.replicate_succ, List.cons_append, List.take_succ_cons]
  obtain hgo | ⟨-, hlast⟩ := hleft
  · rw [show t.runRemain.toNat = r by omega]
  · rw [hlast, List.take_zero, List.take_zero]

theorem image_opcode {i : Instr} {rest : List Byte} (h : s.MidDecode) (hp : s.phase = .ops)
    (hne : s.pixCount ≠ s.pixTotal) (hwf : Memory.wf s.output = true) (hd : decode s.window = .instr i rest)
    (he : exec i s = .next t) : t.image ops = s.image (i :: ops) := by
  have hrun := h.runRemain_of_ops hp
  have hlt := h.pixCount_lt hne
  have hcome : s.pixelsToCome (i :: ops) =
      (List.replicate i.pixels (s.running.pixel i) ++ imagePixels (s.running.after i) ops).take s.due := by
    rw [pixelsToCome, hrun]
    rfl
  obtain ⟨n, rfl, rfl⟩ | ⟨hnot, -, rfl⟩ := exec_next_of_avail (length_le_avail hd) he
  · rw [image, image, hcome, pixelsToCome, advance_runRemain, toNat_of_decoded_run hd]
    rfl
  · refine image_of_append hwf hlt rfl rfl ?_
    have hdue : s.due = ((s.appended (s.running.pixel i)).remember (s.running.pixel i) i.opcode.length).due + 1 := by
      simp only [due, remember_pixTotal, remember_pixCount, appended_pixTotal, appended_pixCount, succ_toNat_of_lt hlt]
      omega
    rw [hcome, hdue, Instr.pixels_of_not_run hnot, Running.after_of_not_run hnot, pixelsToCome, remember_runRemain,
      appended_runRemain, hrun]
    rfl

end State.MidDecode

/-! ## A well-formed input leads to DONE -/

/-- What the block's own steps keep past the header: the parameters, the input, and the header's registers. -/
structure SameHeader (s t : State) : Prop where
  cfg : t.cfg = s.cfg
  inLen : t.inLen = s.inLen
  width : t.width = s.width
  height : t.height = s.height
  channels : t.channels = s.channels
  colorspace : t.colorspace = s.colorspace
  pixTotal : t.pixTotal = s.pixTotal

theorem SameHeader.refl (s : State) : SameHeader s s := ⟨rfl, rfl, rfl, rfl, rfl, rfl, rfl⟩

theorem SameHeader.trans {s t u : State} (h : SameHeader s t) (k : SameHeader t u) : SameHeader s u :=
  ⟨k.cfg.trans h.cfg, k.inLen.trans h.inLen, k.width.trans h.width, k.height.trans h.height,
    k.channels.trans h.channels, k.colorspace.trans h.colorspace, k.pixTotal.trans h.pixTotal⟩

/-- A decode on its way to DONE: it expects `ops`, and its image fits `OUT`. -/
structure State.OnTrack (s : State) (ops : List Instr) : Prop extends s.MidDecode, s.Expects ops where
  room : 4 * s.pixTotal.toNat ≤ s.cfg.outCap
  outputWf : Memory.wf s.output = true

/-- A bound on the steps before the END step: an opcode, a pixel and the loop check each take at most one. -/
def State.toGo (s : State) (ops : List Instr) : Nat := 2 * s.due + ops.length + if s.phase = .ops then 1 else 0

/-- What a step towards the END step keeps, and that it comes nearer. -/
structure Nearer (s : State) (ops : List Instr) (t : State) (ops' : List Instr) : Prop where
  onTrack : t.OnTrack ops'
  header : SameHeader s t
  image : t.image ops' = s.image ops
  less : t.toGo ops' < s.toGo ops

namespace State.OnTrack

variable {s : State} {ops : List Instr}

theorem outFits (h : s.OnTrack ops) (hlt : s.pixCount.toNat < s.pixTotal.toNat) : s.outFits = true := by
  have := h.room
  exact s.outFits_iff.mpr (by omega)

/-- The loop check, with every pixel appended. -/
theorem nearer_check (h : s.OnTrack ops) (hp : s.phase = .ops) (he : s.pixCount = s.pixTotal) :
    ∃ t, step s = .next t ∧ Nearer s ops t ops :=
  ⟨_, (step_quiet h.quiet).trans ((blockStep_of_ops h.busy hp).trans (opsStep_of_complete he)),
    { onTrack := { h.enterEndMarker hp he with
        bytes := h.bytes
        complete := h.complete
        room := h.room
        outputWf := h.outputWf }
      header := ⟨rfl, rfl, rfl, rfl, rfl, rfl, rfl⟩
      image := rfl
      less := by simp [toGo, due, hp] }⟩

/-- A run emission. -/
theorem nearer_emit (h : s.OnTrack ops) (hp : s.phase = .runEmit) : ∃ t, step s = .next t ∧ Nearer s ops t ops := by
  have hf := h.outFits (h.runEmit_due hp).2
  obtain ⟨t, ht⟩ : ∃ t, t = (s.appended s.prev).countRun := ⟨_, rfl⟩
  have hsame : SameHeader s t ∧ t.output = (s.appended s.prev).output := by
    rw [ht, countRun_eq]
    exact ⟨⟨rfl, rfl, rfl, rfl, rfl, rfl, rfl⟩, rfl⟩
  obtain ⟨hheader, hout⟩ := hsame
  refine ⟨t, ?_, ?_⟩
  · rw [step_quiet h.quiet, blockStep_of_runEmit h.busy hp, runEmitStep, append_of_fits _ _ hf, ht]
  · have hdue := (h.emit_counts hp ht).1
    exact {
      onTrack := {
        toMidDecode := ht ▸ h.emit hp hf
        toExpects := (h.expects_emit_iff hp ht).mpr h.toExpects
        room := hheader.cfg ▸ hheader.pixTotal ▸ h.room
        outputWf := hout ▸ Memory.writeBytes_wf h.outputWf _ _ }
      header := hheader
      image := h.image_emit hp h.outputWf ht
      less := by
        simp only [toGo]
        split <;> omega }

/-- An opcode. -/
theorem nearer_opcode (h : s.OnTrack ops) (hp : s.phase = .ops) (hne : s.pixCount ≠ s.pixTotal) :
    ∃ t ops', step s = .next t ∧ Nearer s ops t ops' := by
  have hlt := h.pixCount_lt hne
  cases ops with
  | nil =>
    have howed : s.due - s.runRemain.toNat = 0 := completeStream_nil.mp h.complete
    rw [h.runRemain_of_ops hp] at howed
    exact absurd howed (Nat.sub_pos_of_lt hlt).ne'
  | cons i ops =>
    have hwf := (completeStream_cons.mp h.complete).1
    obtain ⟨rest, hd⟩ := decode_of_restBytes hwf (h.bytes.trans (by rw [List.flatMap_cons, List.append_assoc]))
    have ha := length_le_avail hd
    obtain ⟨t, ht⟩ := exec_of_fits ha (h.outFits hlt)
    have hkeep : SameHeader s t ∧ Memory.wf t.output = true ∧ t.toGo ops < s.toGo (i :: ops) := by
      obtain ⟨n, rfl, rfl⟩ | ⟨-, -, rfl⟩ := exec_next_of_avail ha ht
      · exact ⟨⟨rfl, rfl, rfl, rfl, rfl, rfl, rfl⟩, h.outputWf, by simp [toGo, due, hp]⟩
      · refine ⟨⟨rfl, rfl, rfl, rfl, rfl, rfl, rfl⟩, Memory.writeBytes_wf h.outputWf _ _, ?_⟩
        simp only [toGo, due, remember_pixTotal, remember_pixCount, remember_phase, appended_pixTotal, appended_pixCount,
          appended_phase, hp, succ_toNat_of_lt hlt, List.length_cons, if_true]
        omega
    obtain ⟨hheader, hwf', hless⟩ := hkeep
    refine ⟨t, ops, ?_, ?_⟩
    · rw [step_quiet h.quiet, blockStep_of_ops h.busy hp, opsStep_of_due hne, dispatch_of_decode hd, ht]
    · exact {
        onTrack := {
          toMidDecode := h.opcode hp hne hd ht
          toExpects := (h.expects_opcode_iff hp hne hd ht).mpr h.toExpects
          room := hheader.cfg ▸ hheader.pixTotal ▸ h.room
          outputWf := hwf' }
        header := hheader
        image := h.image_opcode hp hne h.outputWf hd ht
        less := hless }

/-- Each step but the END step leads nearer to it. -/
theorem nearer (h : s.OnTrack ops) (hp : s.phase ≠ .endMarker) : ∃ t ops', step s = .next t ∧ Nearer s ops t ops' := by
  cases hphase : s.phase with
  | hdr => exact absurd hphase h.past
  | endMarker => exact absurd hphase hp
  | runEmit =>
    obtain ⟨t, ht⟩ := h.nearer_emit hphase
    exact ⟨t, ops, ht⟩
  | ops =>
    by_cases he : s.pixCount = s.pixTotal
    · obtain ⟨t, ht⟩ := h.nearer_check hphase he
      exact ⟨t, ops, ht⟩
    · exact h.nearer_opcode hphase he

/-- The END step comes, with the same image. -/
theorem reaches_endMarker (h : s.OnTrack ops) :
    ∃ n t ops', steps n s = .next t ∧ t.OnTrack ops' ∧ t.phase = .endMarker ∧ SameHeader s t ∧
      t.image ops' = s.image ops := by
  induction hgo : s.toGo ops using Nat.strong_induction_on generalizing s ops with
  | _ g ih =>
    by_cases hp : s.phase = .endMarker
    · exact ⟨0, s, ops, rfl, h, hp, .refl s, rfl⟩
    · obtain ⟨u, ops', hstep, hu⟩ := h.nearer hp
      obtain ⟨n, t, ops'', hrun, ht, hend, hheader, himage⟩ := ih _ (hgo ▸ hu.less) hu.onTrack rfl
      exact ⟨n + 1, t, ops'', (steps_succ_of_next hstep).trans hrun, ht, hend, hu.header.trans hheader,
        himage.trans hu.image⟩

/-- At the END step only the marker is left, and every pixel of the image is in `OUT`. -/
theorem ends (h : s.OnTrack ops) (hp : s.phase = .endMarker) :
    step s = .next { s with inPos := s.inLen, status := .done } ∧ s.pixCount = s.pixTotal ∧
      Memory.readBytes s.output 0 (4 * s.pixTotal.toNat) = s.image ops := by
  obtain ⟨hall, hdue⟩ := h.endMarker_due hp
  have hops : ops = [] := by
    cases ops with
    | nil => rfl
    | cons i ops =>
      have hpos := (completeStream_cons.mp h.complete).2.1
      rw [hdue] at hpos
      exact absurd hpos (by simp)
  have hrest : s.restBytes = endMarker := by rw [h.bytes, hops]; rfl
  have havail : s.avail = 8 := by rw [← s.restBytes_length, hrest]; rfl
  refine ⟨?_, hall, ?_⟩
  · rw [restBytes, havail] at hrest
    rw [step_quiet h.quiet, blockStep_of_endMarker h.busy hp, endStep, if_neg (not_not.mpr havail),
      if_neg (not_not.mpr hrest)]
  · rw [image, pixelsToCome, hdue, List.take_zero, List.flatMap_nil, List.append_nil, hall]

/-- A decode on its way leads to DONE with its image in `OUT`. -/
theorem reaches_done (h : s.OnTrack ops) :
    ∃ n t, steps n s = .next t ∧ t.status = .done ∧ t.inPos = s.inLen ∧ t.pixCount = s.pixTotal ∧ SameHeader s t ∧
      Memory.readBytes t.output 0 (4 * s.pixTotal.toNat) = s.image ops := by
  obtain ⟨n, u, ops', hrun, hu, hp, hheader, himage⟩ := h.reaches_endMarker
  obtain ⟨hstep, hall, hout⟩ := hu.ends hp
  refine ⟨n + 1, _, (steps_add hrun).trans (steps_succ_of_next hstep), rfl, hheader.inLen, hall.trans hheader.pixTotal,
    ⟨hheader.cfg, hheader.inLen, hheader.width, hheader.height, hheader.channels, hheader.colorspace,
      hheader.pixTotal⟩, ?_⟩
  rw [← hheader.pixTotal, ← himage]
  exact hout

end State.OnTrack

/-- The bytes of a field determine it. -/
theorem be32Bytes_injective : Function.Injective be32Bytes := by
  intro v w h
  obtain ⟨a, b, c, d, hv, rfl⟩ := be32_be32Bytes v
  obtain ⟨a', b', c', d', hw, rfl⟩ := be32_be32Bytes w
  rw [hv, hw] at h
  simp_all

/-- An input of the well-formed shape has a header that the header step accepts, with the fields and the rest that the
shape names (spec/30_encoding.md R91). -/
theorem State.header_of_inputBytes {s : State} {w h : Word32} {channels colorspace : Byte} {ops : List Instr}
    (hin : s.inBytes 0 s.inLen.toNat = inputBytes s.cfg.magic w h channels colorspace ops) :
    headerStep s = s.acceptHeader ∧ headerBytes ≤ s.inLen.toNat ∧ s.acceptHeader.width = w ∧
      s.acceptHeader.height = h ∧ s.acceptHeader.channels = channels ∧ s.acceptHeader.colorspace = colorspace ∧
      s.acceptHeader.restBytes = ops.flatMap encode ++ endMarker := by
  have hl : headerBytes ≤ s.inLen.toNat := by
    have hlen := congrArg List.length hin
    simp only [inBytes, Memory.readBytes_length, inputBytes, be32Bytes, endMarker, List.length_append,
      List.length_cons, List.length_nil, Vector.length_toList] at hlen
    simp only [headerBytes]
    omega
  have h4 : ∀ v, (be32Bytes v).length = 4 := fun _ => rfl
  rw [inBytes_header hl, inputBytes, List.append_assoc _ (ops.flatMap encode)] at hin
  obtain ⟨hin, hrest⟩ := List.append_inj hin (by simp [inBytes, h4])
  obtain ⟨hin, hbytes⟩ := List.append_inj hin (by simp [inBytes, h4])
  obtain ⟨hin, hheight⟩ := List.append_inj hin (by simp [inBytes, h4])
  obtain ⟨hmagic, hwidth⟩ := List.append_inj hin (by simp [inBytes])
  obtain ⟨hchannels, hcolorspace⟩ : _ ∧ _ := by simpa using hbytes
  exact ⟨headerStep_of_magic hl hmagic, hl, be32Bytes_injective hwidth, be32Bytes_injective hheight, hchannels,
    hcolorspace, hrest⟩

/-- Settles O56: START and the header step lead to a state that is on its way, whose image is that of the opcodes. -/
theorem wellFormedInputsDecode : Obligations.WellFormedInputsDecode := by
  intro s w h channels colorspace ops hq hb hwf hcomplete hroom hin
  obtain ⟨hheader, hl, hw, hh, hchannels, hcolorspace, hrest⟩ := State.header_of_inputBytes (s := s.fresh) hin
  have hmid := State.MidDecode.of_header hq hl
  have hdue := hmid.due_of_first rfl
  rw [hw, hh] at hdue
  have htotal : s.fresh.acceptHeader.pixTotal.toNat = w.toNat * h.toNat := hw ▸ hh ▸ pixelTotal_toNat _ _
  have htrack : s.fresh.acceptHeader.OnTrack ops :=
    { hmid with
      bytes := hrest
      complete := hdue ▸ hcomplete
      room := htotal ▸ hroom
      outputWf := hwf }
  obtain ⟨n, t, hrun, hdone, hpos, hcount, hsame, himage⟩ := htrack.reaches_done
  have hstep : step s.fresh = .next s.fresh.acceptHeader :=
    (step_quiet (s := s.fresh) hq).trans ((blockStep_of_hdr rfl rfl).trans (congrArg _ hheader))
  refine ⟨n + 1, t, ?_, hdone, hsame.width.trans hw, hsame.height.trans hh, hsame.channels.trans hchannels,
    hsame.colorspace.trans hcolorspace, hcount ▸ htotal, hpos, ?_⟩
  · rw [State.start_of_not_busy hb, steps_succ_of_next hstep, hrun]
  · rw [← htotal, himage, State.image, State.pixelsToCome, hdue, htotal]
    rfl

end Sys2Proof.Machine
end

section
/-! PROOFS. The header step (spec/40_header_parser.md): which of its checks answers, and what an accepted header leaves
in the registers. -/

namespace Sys2Proof.Machine

variable {s : State}

/-- In HDR with no host move pending the machine's step is the header step (spec/40_header_parser.md R120). -/
theorem step_of_hdr (hq : s.quiet) (hb : s.status = .busy) (hp : s.phase = .hdr) : step s = .next (headerStep s) :=
  (step_quiet hq).trans (blockStep_of_hdr hb hp)

/-! ## The checks, in their order (spec/40_header_parser.md R123) -/

theorem headerStep_of_missing_magic (hl : s.inLen.toNat < 4) : headerStep s = s.raise .truncatedInput 0 := if_pos hl

/-- A magic that differs wins over a truncation of the later fields (spec/40_header_parser.md R122). -/
theorem headerStep_of_wrong_magic (hl : 4 ≤ s.inLen.toNat) (hm : s.inBytes 0 4 ≠ s.cfg.magic.toList) :
    headerStep s = s.raise .magicMismatch 0 := by
  rw [headerStep, if_neg (not_lt.mpr hl), if_pos hm]

/-- Past the magic, the first field that is not all there names the position. -/
theorem headerStep_past_magic (hl : 4 ≤ s.inLen.toNat) (hm : s.inBytes 0 4 = s.cfg.magic.toList) :
    headerStep s =
      if s.inLen.toNat < 8 then s.raise .truncatedInput 4
      else if s.inLen.toNat < 12 then s.raise .truncatedInput 8
      else if s.inLen.toNat < 13 then s.raise .truncatedInput 12
      else if s.inLen.toNat < 14 then s.raise .truncatedInput 13
      else s.acceptHeader := by
  rw [headerStep, if_neg (not_lt.mpr hl), if_neg (not_not.mpr hm)]

theorem headerStep_of_missing_width (hm : s.inBytes 0 4 = s.cfg.magic.toList) (h4 : 4 ≤ s.inLen.toNat)
    (h8 : s.inLen.toNat < 8) : headerStep s = s.raise .truncatedInput 4 := by
  rw [headerStep_past_magic h4 hm, if_pos h8]

theorem headerStep_of_missing_height (hm : s.inBytes 0 4 = s.cfg.magic.toList) (h8 : 8 ≤ s.inLen.toNat)
    (h12 : s.inLen.toNat < 12) : headerStep s = s.raise .truncatedInput 8 := by
  rw [headerStep_past_magic (by omega) hm, if_neg (not_lt.mpr h8), if_pos h12]

theorem headerStep_of_missing_channels (hm : s.inBytes 0 4 = s.cfg.magic.toList) (h : s.inLen.toNat = 12) :
    headerStep s = s.raise .truncatedInput 12 := by
  rw [headerStep_past_magic (by omega) hm, h]
  rfl

theorem headerStep_of_missing_colorspace (hm : s.inBytes 0 4 = s.cfg.magic.toList) (h : s.inLen.toNat = 13) :
    headerStep s = s.raise .truncatedInput 13 := by
  rw [headerStep_past_magic (by omega) hm, h]
  rfl

/-- Settles O31: each clause is one check of the header step, and the last its accepted header, whose fields are exact
big-endian values and whose pixel total is their exact product. -/
theorem headerStepFollowsItsChecks : Obligations.HeaderStepFollowsItsChecks := by
  intro s hq hb hp
  rw [step_of_hdr hq hb hp]
  refine ⟨fun h4 => ?missingMagic, fun h4 hm => ?wrongMagic, fun hm =>
    ⟨fun h4 h8 => ?width, fun h8 h12 => ?height, fun h12 => ?channels, fun h13 => ?colorspace, fun h14 => ?accept⟩⟩
  case missingMagic => rw [headerStep_of_missing_magic h4]; rfl
  case wrongMagic => rw [headerStep_of_wrong_magic h4 hm]; rfl
  case width => rw [headerStep_of_missing_width hm h4 h8]; rfl
  case height => rw [headerStep_of_missing_height hm h8 h12]; rfl
  case channels => rw [headerStep_of_missing_channels hm h12]; rfl
  case colorspace => rw [headerStep_of_missing_colorspace hm h13]; rfl
  case accept =>
    exact ⟨s.acceptHeader, congrArg _ (headerStep_of_magic h14 hm), be32_toNat _ _ _ _, be32_toNat _ _ _ _, rfl, rfl,
      pixelTotal_toNat _ _, rfl, rfl, rfl⟩

end Sys2Proof.Machine
end

section
/-! PROOFS. Opcode dispatch (spec/41_opcode_dispatch.md): START, the loop check, which instruction runs, what an opcode
advances and leaves alone, and that every decode ends. -/

namespace Sys2Proof.Machine

variable {s t : State}

/-! ## START (spec/41_opcode_dispatch.md R141) -/

/-- A write of `CTRL` with bit 0 set is START. -/
theorem step_start {v : Word64} {ms : List HostMove} (h : s.hostMoves = .writeReg 0 v :: ms) (hv : v[0] = true) :
    step s = .next (State.start { s with hostMoves := ms }) := by
  rw [step_writeReg h, State.regWrite_ctrl, if_pos hv]

theorem State.slot_fresh (s : State) (k : Fin 64) : s.fresh.slot k = Pixel.zero := emptyCache_get k

/-- Settles O40: the status alone decides what START does. -/
theorem startBeginsAFreshDecode : Obligations.StartBeginsAFreshDecode := by
  intro s v ms hm hv
  rw [step_start hm hv]
  refine ⟨fun hb => ?_, fun hb => ?_⟩
  · rw [State.start_of_busy (s := { s with hostMoves := ms }) hb]
  · rw [State.start_of_not_busy (s := { s with hostMoves := ms }) hb]
    exact ⟨_, rfl, State.slot_fresh _, rfl⟩

/-! ## The loop check and the dispatch (spec/41_opcode_dispatch.md R143, R144) -/

theorem State.inLoop.step_eq (h : s.inLoop) : step s = opsStep s := by
  obtain ⟨hquiet, hbusy, hphase⟩ := h
  rw [step_quiet hquiet, blockStep_of_ops hbusy hphase]

theorem State.inLoop.step_of_due (h : s.inLoop) (hne : s.pixCount ≠ s.pixTotal) : step s = dispatch s :=
  h.step_eq.trans (opsStep_of_due hne)

/-- Settles O12: the two branches of the loop check. -/
theorem loopCheckEndsAtLastPixel : Obligations.LoopCheckEndsAtLastPixel := fun _ h =>
  ⟨fun he => h.step_eq.trans (opsStep_of_complete he), h.step_of_due⟩

/-- Settles O9: with a pixel due the step is a dispatch, and a dispatch runs what it decodes. -/
theorem stepRunsDecodedInstruction : Obligations.StepRunsDecodedInstruction := fun _ _ _ h hne hd =>
  (h.step_of_due hne).trans (dispatch_of_decode hd)

/-- Bytes that end by `IN_LEN` are the first ones of the rest of the input. -/
theorem State.restBytes_eq_append {n : Nat} (h : s.inPos.toNat + n ≤ s.inLen.toNat) :
    ∃ more, s.restBytes = s.inBytes s.inPos.toNat n ++ more := by
  obtain ⟨k, hk⟩ := Nat.exists_eq_add_of_le (show n ≤ s.avail by simp only [avail]; omega)
  exact ⟨_, by rw [restBytes, hk, inBytes, Memory.readBytes_append]; rfl⟩

/-- Settles O10: the encoding heads the rest of the input, so the decoder reads it back as the instruction. -/
theorem encodedInstructionAtInPosRuns : Obligations.EncodedInstructionAtInPosRuns := by
  intro s i h hne hwf hin hbytes
  obtain ⟨more, hmore⟩ := State.restBytes_eq_append hin
  obtain ⟨rest, hd⟩ := State.decode_of_restBytes hwf (hbytes ▸ hmore)
  exact stepRunsDecodedInstruction s i rest h hne hd

/-- What the decoder sees begins with the byte at `IN_POS`, where one is left. -/
theorem State.window_eq_cons (h : 0 < s.avail) : ∃ tail, s.window = s.inByte s.inPos.toNat :: tail := by
  obtain ⟨k, hk⟩ := Nat.exists_eq_add_one.mpr (show 0 < min s.avail maxLength from lt_min h (by decide))
  exact ⟨_, by rw [window, hk, inBytes, Memory.readBytes]; rfl⟩

/-- Where the decoder reads an instruction, all the bytes that its control byte asks for are left
(spec/41_opcode_dispatch.md R146). -/
theorem State.oplen_le_avail {i : Instr} {rest : List Byte} (h : decode s.window = .instr i rest) :
    1 ≤ s.avail ∧ oplen (s.inByte s.inPos.toNat) ≤ s.avail := by
  have hlen := length_le_avail h
  have hpos := (opcode_length_pos i.opcode).trans hlen
  obtain ⟨tail, hw⟩ := window_eq_cons hpos
  rw [hw] at h
  exact ⟨hpos, by rwa [oplen, ← decode_opcode h]⟩

/-- Settles O11: where bytes are missing the decoder reads no instruction, and the dispatch then only raises. -/
theorem truncatedOpcodeOnlyRaises : Obligations.TruncatedOpcodeOnlyRaises := by
  intro s h hne hmissing
  rw [h.step_of_due hne]
  cases hd : decode s.window with
  | instr i rest =>
    obtain ⟨hpos, hlen⟩ := State.oplen_le_avail hd
    exact absurd hmissing (not_or.mpr ⟨Nat.not_lt.mpr hpos, Nat.not_lt.mpr hlen⟩)
  | reject why => exact dispatch_of_reject hd

/-! ## What an opcode advances and leaves alone (spec/41_opcode_dispatch.md R147, R148, R150) -/

theorem runEmitStep_next (h : runEmitStep s = .next t) : t = (s.appended s.prev).countRun := (State.append_next h).2

/-- Settles O13: an opcode that raises is not BUSY, and every other advances by its length. -/
theorem opcodeAdvancesByItsLength : Obligations.OpcodeAdvancesByItsLength := by
  refine ⟨fun s t i _ he ht => ?_, fun s t he => ?_⟩
  · rw [encode_length]
    obtain ⟨-, rfl⟩ | ⟨n, rfl, rfl⟩ | ⟨p, -, rfl, -⟩ := exec_next he
    · cases ht
    · rfl
    · rfl
  · rw [runEmitStep_next he, State.countRun_eq]
    rfl

/-- Settles O20: an opcode other than RUN raises, which touches no pixel state, or commits one pixel. -/
theorem pixelOpcodeFrame : Obligations.PixelOpcodeFrame := by
  intro i s t hrun he
  obtain ⟨-, rfl⟩ | ⟨n, rfl, -⟩ | ⟨p, -, rfl, -⟩ := exec_next he
  · exact ⟨rfl, fun _ _ => rfl, fun _ _ => rfl, .inr ⟨rfl, rfl, rfl, rfl, rfl⟩⟩
  · exact absurd rfl (hrun n)
  · exact ⟨rfl, fun _ ha => s.read_appended_other p ha,
      fun k hk => ((s.appended p).slot_remember p _ k).trans (if_neg hk), .inl ⟨rfl, rfl, rfl⟩⟩

/-! ## Every decode ends (spec/41_opcode_dispatch.md R152) -/

/-- The decode is over, and the host makes no move. -/
structure State.Stopped (s : State) : Prop where
  quiet : s.hostMoves = []
  status : s.status = .done ∨ s.status = .error

/-- After `n` steps the decode is over, or it ran out of `OUT` before. -/
def State.EndsWithin (s : State) (n : Nat) : Prop :=
  steps n s = .fault .outputOverflow ∨ ∃ t, steps n s = .next t ∧ (t.status = .done ∨ t.status = .error)

theorem State.Stopped.endsWithin (h : s.Stopped) (n : Nat) : s.EndsWithin n :=
  .inr ⟨s, steps_of_not_busy h.quiet (fun hb => by simpa [hb] using h.status) n, h.status⟩

theorem State.endsWithin_succ_of_fault (h : step s = .fault .outputOverflow) (n : Nat) : s.EndsWithin (n + 1) :=
  .inl (by rw [steps_succ, h])

theorem State.endsWithin_succ_of_next {n : Nat} (h : step s = .next t) (ht : t.EndsWithin n) :
    s.EndsWithin (n + 1) := by
  rw [EndsWithin, steps_succ_of_next h]
  exact ht

/-- A bound on the steps left past the header: 63 for each byte left (a RUN is one byte and takes its dispatch and up to
62 emissions), one for each emission of the run in progress, and the last loop check and the END step. -/
def State.stepsLeft (s : State) : Nat := 63 * s.avail + s.runRemain.toNat + if s.phase = .endMarker then 1 else 2

theorem State.stepsLeft_pos (s : State) : 0 < s.stepsLeft := by
  unfold stepsLeft
  split <;> omega

theorem State.stepsLeft_le (s : State) : s.stepsLeft ≤ 63 * s.avail + s.runRemain.toNat + 2 := by
  unfold stepsLeft
  split <;> omega

theorem State.stepsLeft_of_not_endMarker (h : s.phase ≠ .endMarker) :
    s.stepsLeft = 63 * s.avail + s.runRemain.toNat + 2 := by
  rw [stepsLeft, if_neg h]

namespace State.MidDecode

theorem stepsLeft_enterEndMarker (hp : s.phase = .ops) :
    ({ s with phase := .endMarker } : State).stepsLeft < s.stepsLeft := by
  rw [stepsLeft_of_not_endMarker (s := s) (by simp [hp])]
  exact Nat.lt_succ_self _

/-- An opcode takes a byte, and what it loads in `RUN_REMAIN` is at most 62 (spec/10_state.md R28). -/
theorem stepsLeft_opcode {i : Instr} {rest : List Byte} (h : s.MidDecode) (hp : s.phase = .ops)
    (hne : s.pixCount ≠ s.pixTotal) (hd : decode s.window = .instr i rest) (he : exec i s = .next t) :
    t.stepsLeft < s.stepsLeft := by
  have hbytes := congrArg List.length (h.opcode_takes hp hne hd he).1
  rw [List.length_append, restBytes_length, restBytes_length, encode_length] at hbytes
  have hpos := opcode_length_pos i.opcode
  have hrun : t.runRemain.toNat ≤ 62 := (h.opcode hp hne hd he).counted.runBound
  have hle := t.stepsLeft_le
  rw [stepsLeft_of_not_endMarker (s := s) (by simp [hp])]
  omega

theorem stepsLeft_emit (h : s.MidDecode) (hp : s.phase = .runEmit) (ht : t = (s.appended s.prev).countRun) :
    t.stepsLeft < s.stepsLeft := by
  have havail : t.avail = s.avail := by
    rw [ht, countRun_eq]
    rfl
  have hpos := (h.runEmit_due hp).1
  have hle := t.stepsLeft_le
  rw [stepsLeft_of_not_endMarker (s := s) (by simp [hp])]
  obtain ⟨-, hrun | ⟨hrun, -⟩⟩ := h.emit_counts hp ht
  · omega
  · have hnone : t.runRemain.toNat = 0 := by rw [hrun]; rfl
    omega

/-- Past the header a step runs out of `OUT`, stops, or stays in the decode with fewer steps left. -/
theorem step_progress (h : s.MidDecode) :
    step s = .fault .outputOverflow ∨
      ∃ t, step s = .next t ∧ (t.Stopped ∨ (t.MidDecode ∧ t.stepsLeft < s.stepsLeft)) := by
  rw [step_quiet h.quiet]
  cases hstep : blockStep s with
  | fault f => exact .inl (by rw [(blockStep_fault_iff.mp hstep).1])
  | refused r => exact absurd hstep (blockStep_not_refused s r)
  | next t =>
    refine .inr ⟨t, rfl, ?_⟩
    obtain ⟨hb, -⟩ | ⟨-, hp, -⟩ | ⟨-, hp, he, rfl⟩ | ⟨-, hp, hne, hd⟩ | ⟨-, hp, hf, ht⟩ | ⟨-, hp, rfl⟩ :=
      blockStep_next hstep
    · exact absurd h.busy hb
    · exact absurd hp h.past
    · exact .inr ⟨h.enterEndMarker hp he, stepsLeft_enterEndMarker hp⟩
    · obtain rfl | ⟨i, rest, hdec, hexec⟩ := dispatch_next hd
      · exact .inl ⟨h.quiet, .inr rfl⟩
      · exact .inr ⟨h.opcode hp hne hdec hexec, h.stepsLeft_opcode hp hne hdec hexec⟩
    · exact .inr ⟨ht ▸ h.emit hp hf, h.stepsLeft_emit hp ht⟩
    · obtain heq | ⟨-, -, heq⟩ := endStep_cases s <;> rw [heq]
      · exact .inl ⟨h.quiet, .inr rfl⟩
      · exact .inl ⟨h.quiet, .inl rfl⟩

/-- Past the header a decode ends within its bound, by induction on it. -/
theorem endsWithin (h : s.MidDecode) {n : Nat} (hn : s.stepsLeft ≤ n) : s.EndsWithin n := by
  induction n generalizing s with
  | zero => exact absurd s.stepsLeft_pos (Nat.not_lt.mpr hn)
  | succ n ih =>
    obtain hfault | ⟨t, hstep, hstop | ⟨hmid, hless⟩⟩ := h.step_progress
    · exact endsWithin_succ_of_fault hfault n
    · exact endsWithin_succ_of_next hstep (hstop.endsWithin n)
    · exact endsWithin_succ_of_next hstep (ih hmid (Nat.le_of_lt_succ (hless.trans_le hn)))

end State.MidDecode

/-- Settles O54: the header step raises, or leaves a decode with at most `IN_LEN` bytes and no run. -/
theorem everyDecodeEnds : Obligations.EveryDecodeEnds := by
  intro s hq hb
  rw [State.start_of_not_busy hb]
  refine State.endsWithin_succ_of_next (step_of_hdr (s := s.fresh) hq rfl rfl) ?_
  obtain ⟨e, pos, heq, -⟩ | ⟨hl, -, heq⟩ := headerStep_cases s.fresh <;> rw [heq]
  · exact State.Stopped.endsWithin (s := s.fresh.raise e pos) ⟨hq, .inr rfl⟩ _
  · refine (State.MidDecode.of_header hq hl).endsWithin ?_
    have havail : s.fresh.acceptHeader.avail ≤ s.inLen.toNat := Nat.sub_le _ _
    have hrun : s.fresh.acceptHeader.runRemain.toNat = 0 := rfl
    have hle := s.fresh.acceptHeader.stepsLeft_le
    omega

end Sys2Proof.Machine
end

section
/-! PROOFS. The literal opcodes RGB and RGBA (spec/42_literal_ops.md): each is the truncation check, then a commit. -/

namespace Sys2Proof.Machine

/-! ## What the pixel opcodes share (spec/41_opcode_dispatch.md R146, R150) -/

section

variable {s : State}

/-- A pixel that fits `OUT` is committed, and the commit is complete. -/
theorem State.exists_commits (p : Pixel) (n : Nat) (hfit : 4 * s.pixCount.toNat + 4 ≤ s.cfg.outCap)
    (hwf : Memory.wf s.output = true) : ∃ t, s.commit p n = .next t ∧ Commits s t p n :=
  ⟨_, State.commit_of_fits p n (decide_eq_true hfit), State.remember_commits p n hwf⟩

/-- An opcode of `n` bytes that commits `p` after its truncation check completes where its bytes are left. -/
theorem State.exists_commits_of_le_avail (p : Pixel) {n : Nat} (ha : n ≤ s.avail)
    (hfit : 4 * s.pixCount.toNat + 4 ≤ s.cfg.outCap) (hwf : Memory.wf s.output = true) :
    ∃ t, s.needBytes n (s.commit p n) = .next t ∧ Commits s t p n := by
  rw [State.needBytes_of_le _ ha]
  exact State.exists_commits p n hfit hwf

end

/-! ## RGB and RGBA (spec/42_literal_ops.md R170, R171) -/

theorem exec_rgb (r g b : Byte) (s : State) :
    exec (.rgb r g b) s = s.needBytes 4 (s.commit (rgbPixel s.prev r g b) 4) := rfl

theorem exec_rgba (r g b a : Byte) (s : State) :
    exec (.rgba r g b a) s = s.needBytes 5 (s.commit (rgbaPixel r g b a) 5) := rfl

/-- Settles O14: short of 4 bytes the truncation check raises, else the commit completes with the alpha of `PREV`. -/
theorem rgbKeepsPreviousAlpha : Obligations.RgbKeepsPreviousAlpha := by
  intro s r g b rest
  rw [exec_rgb]
  exact ⟨decode_rgb r g b rest, State.needBytes_of_lt _, State.exists_commits_of_le_avail (rgbPixel s.prev r g b)⟩

/-- Settles O15: short of 5 bytes the truncation check raises, else the commit completes with the four operands. -/
theorem rgbaIsFullyLiteral : Obligations.RgbaIsFullyLiteral := by
  intro s r g b a rest
  rw [exec_rgba]
  exact ⟨decode_rgba r g b a rest, State.needBytes_of_lt _, State.exists_commits_of_le_avail (rgbaPixel r g b a)⟩

end Sys2Proof.Machine
end

section
/-! PROOFS. The cache-index opcode INDEX (spec/43_index_op.md): a commit of what its slot holds, with no truncation check
beyond the control byte's own. -/

namespace Sys2Proof

/-- The control byte of INDEX is the number of its slot (spec/43_index_op.md R180). -/
theorem encode_index (k : Fin 64) : encode (.index k) = [BitVec.ofNat 8 k.val] :=
  congrArg (fun c => [c]) (BitVec.ofInt_natCast 8 k.val)

theorem decode_index (k : Fin 64) (rest : List Byte) :
    decode (BitVec.ofNat 8 k.val :: rest) = .instr (.index k) rest := by
  have h := decodeOfEncodeGivesInstruction (.index k) rest rfl
  rwa [encode_index] at h

end Sys2Proof

namespace Sys2Proof.Machine

theorem exec_index (k : Fin 64) (s : State) : exec (.index k) s = s.commit (s.slot k) 1 := rfl

/-- Settles O16: the control byte is the encoding, and the commit of the slot's pixel, its put included, completes. -/
theorem indexCommitsTheCachedPixel : Obligations.IndexCommitsTheCachedPixel := by
  intro s k rest
  rw [exec_index]
  exact ⟨decode_index k rest, State.exists_commits (s.slot k) 1⟩

end Sys2Proof.Machine
end

section
/-! PROOFS. The delta opcodes DIFF and LUMA (spec/44_delta_ops.md): the component arithmetic, then each opcode as the
control byte's fields and the commit of `PREV` plus the deltas; LUMA checks for its second byte first. -/

namespace Sys2Proof.Machine

/-! ## Component arithmetic (spec/44_delta_ops.md R192) -/

theorem add8_toNat (a : Byte) (x : Int) : ((add8 a x).toNat : Int) = (a.toNat + x) % 256 := by
  rw [add8, BitVec.toNat_ofInt]
  exact Int.toNat_of_nonneg (Int.emod_nonneg _ (by decide))

theorem add8_add_toNat (a : Byte) (x y : Int) : ((add8 a (x + y)).toNat : Int) = (a.toNat + x + y) % 256 := by
  rw [add8_toNat, Int.add_assoc]

/-- Reducing after each of two additions gives the same byte as reducing once (spec/44_delta_ops.md R192). -/
theorem add8_add8 (a : Byte) (x y : Int) : add8 (add8 a x) y = add8 a (x + y) := by
  apply BitVec.eq_of_toNat_eq
  apply Int.ofNat.inj
  calc ((add8 (add8 a x) y).toNat : Int)
      = ((a.toNat + x) % 256 + y) % 256 := by rw [add8_toNat, add8_toNat]
    _ = (a.toNat + x + y) % 256 := Int.emod_add_emod ..
    _ = (add8 a (x + y)).toNat := (add8_add_toNat a x y).symm

/-- Settles O30: the value of one addition, then two additions as one, then the wraps at 0 and at 255. -/
theorem deltaArithmeticWraps : Obligations.DeltaArithmeticWraps :=
  ⟨fun a x y => ⟨add8_toNat a x, add8_add8 a x y⟩, by decide, by decide, by decide⟩

/-! ## DIFF (spec/44_delta_ops.md R190) -/

theorem exec_diff (dr dg db : Int) (s : State) :
    exec (.diff dr dg db) s = s.commit (diffPixel s.prev dr dg db) 1 := rfl

/-- Settles O17: the fields are those of the control byte map, and the commit of `PREV` plus the deltas completes. -/
theorem diffAddsSmallDeltas : Obligations.DiffAddsSmallDeltas := by
  obtain ⟨-, hdecode, -⟩ := controlByteMapGivesOperands
  refine ⟨hdecode, fun s dr dg db hfit hwf => ?_⟩
  obtain ⟨t, ht, hcommits⟩ := State.exists_commits (diffPixel s.prev dr dg db) 1 hfit hwf
  rw [← exec_diff] at ht
  exact ⟨t, _, ht, hcommits, add8_toNat .., add8_toNat .., add8_toNat .., rfl⟩

/-! ## LUMA (spec/44_delta_ops.md R191) -/

theorem exec_luma (dg drdg dbdg : Int) (s : State) :
    exec (.luma dg drdg dbdg) s = s.needBytes 2 (s.commit (lumaPixel s.prev dg drdg dbdg) 2) := rfl

/-- Settles O18: the control byte's low six bits are its offset from 0x80; short of 2 bytes the truncation check raises,
else the commit completes, and adding the green delta and a colour's own in one sum is R191's two additions. -/
theorem lumaAddsRelativeDeltas : Obligations.LumaAddsRelativeDeltas := by
  obtain ⟨-, -, hdecode, -⟩ := controlByteMapGivesOperands
  constructor
  · intro c d rest hlo hhi
    have hfield : ((c.toNat % 64 : Nat) : Int) = c.toNat - 0x80 := by omega
    rw [hfield]
    exact hdecode c d rest hlo hhi
  · intro s dg drdg dbdg
    rw [exec_luma]
    refine ⟨State.needBytes_of_lt _, fun ha hfit hwf => ?_⟩
    obtain ⟨t, ht, hcommits⟩ := State.exists_commits_of_le_avail (lumaPixel s.prev dg drdg dbdg) ha hfit hwf
    exact ⟨t, _, ht, hcommits, add8_add_toNat .., add8_toNat .., add8_add_toNat .., rfl⟩

end Sys2Proof.Machine
end

section
/-! PROOFS. The run-length opcode RUN (spec/45_run_op.md): its dispatch step, one emission step, and by induction on the
pixels left the whole run, which repeats `PREV` and leaves `PREV` and `CACHE` alone. -/

namespace Sys2Proof.Machine

variable {s t u : State}

/-! ## The dispatch step (spec/45_run_op.md R200) -/

/-- The state after the dispatch step of a RUN. -/
def State.runLoaded (s : State) (n : Nat) : State :=
  State.advance { s with runRemain := BitVec.ofNat 6 n, phase := .runEmit } 1

theorem exec_run (n : Nat) (s : State) : exec (.run n) s = .next (s.runLoaded n) := rfl

/-- `RUN_REMAIN` holds every run length (spec/10_state.md R28). -/
theorem State.runLoaded_runRemain_toNat {n : Nat} (s : State) (h : n ≤ 62) : (s.runLoaded n).runRemain.toNat = n :=
  Nat.mod_eq_of_lt (by omega)

/-- Settles O19: from 0xC0 on the low six bits are the offset from 0xC0, and `RUN_REMAIN` holds every run length. -/
theorem runLoadsItsLength : Obligations.RunLoadsItsLength := by
  obtain ⟨-, -, -, hdecode, -⟩ := controlByteMapGivesOperands
  constructor
  · intro c rest hlo hhi
    have hfield : c.toNat % 64 = c.toNat - 0xC0 := by omega
    rw [hfield]
    exact (hdecode c rest hlo hhi).1
  · intro s n _ hn
    exact ⟨_, exec_run n s, s.runLoaded_runRemain_toNat hn, rfl⟩

/-! ## One emission step (spec/45_run_op.md R201) -/

theorem step_of_runEmit (hq : s.quiet) (hb : s.status = .busy) (hp : s.phase = .runEmit) : step s = runEmitStep s := by
  rw [step_quiet hq, blockStep_of_runEmit hb hp]

theorem step_runEmit_of_fits (hq : s.quiet) (hb : s.status = .busy) (hp : s.phase = .runEmit)
    (hfit : 4 * s.pixCount.toNat + 4 ≤ s.cfg.outCap) : step s = .next (s.appended s.prev).countRun :=
  (step_of_runEmit hq hb hp).trans (State.append_of_fits _ _ (s.outFits_iff.mpr hfit))

/-- Settles O23: the dispatch step loads the run, and an emission appends and counts the run down. -/
theorem runNeverWritesPrevOrCache : Obligations.RunNeverWritesPrevOrCache := by
  constructor
  · intro s t n he
    rw [exec_run] at he
    injection he with ht
    subst ht
    exact ⟨rfl, rfl, rfl, rfl⟩
  · intro s t hq hb hp hs
    rw [step_of_runEmit hq hb hp] at hs
    rw [runEmitStep_next hs, State.countRun_eq]
    exact ⟨rfl, rfl⟩

/-- The run ends with its last pixel and with the image's. -/
theorem State.countRun_of_last (h : s.runRemain.toNat = 1 ∨ s.pixCount = s.pixTotal) :
    s.countRun.runRemain = 0 ∧ s.countRun.phase = .ops := by
  rw [State.countRun_ends (h.imp_left fun hlast => by bv_omega)]
  exact ⟨rfl, rfl⟩

/-- Before that, a pixel less is left of it. -/
theorem State.countRun_of_not_last (hrun : s.runRemain ≠ 0) (hlast : s.runRemain.toNat ≠ 1)
    (hdue : s.pixCount ≠ s.pixTotal) :
    s.countRun.runRemain.toNat = s.runRemain.toNat - 1 ∧ s.countRun.phase = s.phase := by
  have hrest : (s.runRemain - 1).toNat = s.runRemain.toNat - 1 := by bv_omega
  have hmore : s.runRemain - 1 ≠ 0 := by bv_omega
  rw [State.countRun_goes_on (not_or.mpr ⟨hmore, hdue⟩)]
  exact ⟨hrest, rfl⟩

/-- `t` is `s` after `n` copies of `PREV` were appended (spec/45_run_op.md R203): what of `OUT` changed, and that besides
only `PIX_COUNT`, `RUN_REMAIN` and `PHASE` did. -/
structure RepeatsPrev (s t : State) (n : Nat) : Prop where
  pixCount : t.pixCount.toNat = s.pixCount.toNat + n
  copies : ∀ k, s.pixCount.toNat ≤ k → k < t.pixCount.toNat → Memory.readBytes t.output (4 * k) 4 = s.prev.bytes
  otherBytes : ∀ a, a < 4 * s.pixCount.toNat ∨ 4 * t.pixCount.toNat ≤ a →
    Memory.read t.output a = Memory.read s.output a
  outputWf : Memory.wf t.output = true
  rest : t = { s with
    output := t.output, pixCount := t.pixCount, runRemain := t.runRemain, phase := t.phase }

namespace RepeatsPrev

section

variable {n : Nat}

theorem prev_eq (h : RepeatsPrev s t n) : t.prev = s.prev := by rw [h.rest]

theorem cache_eq (h : RepeatsPrev s t n) : t.cache = s.cache := by rw [h.rest]

theorem slot_eq (h : RepeatsPrev s t n) (k : Fin 64) : t.slot k = s.slot k := by
  simp only [State.slot, h.cache_eq]

theorem pixTotal_eq (h : RepeatsPrev s t n) : t.pixTotal = s.pixTotal := by rw [h.rest]

theorem cfg_eq (h : RepeatsPrev s t n) : t.cfg = s.cfg := by rw [h.rest]

theorem status_eq (h : RepeatsPrev s t n) : t.status = s.status := by rw [h.rest]

theorem hostMoves_eq (h : RepeatsPrev s t n) : t.hostMoves = s.hostMoves := by rw [h.rest]

end

/-- Copies after copies: those of `s` to `u` are bytes that the ones after them leave alone. -/
theorem trans {m n : Nat} (h : RepeatsPrev s u m) (k : RepeatsPrev u t n) : RepeatsPrev s t (m + n) where
  pixCount := by rw [k.pixCount, h.pixCount, Nat.add_assoc]
  copies j hlo hhi := by
    obtain hold | hnew := Nat.lt_or_ge j u.pixCount.toNat
    · rw [← h.copies j hlo hold]
      exact Memory.readBytes_congr fun a _ ha => k.otherBytes a (.inl (by omega))
    · rw [k.copies j hnew hhi, h.prev_eq]
  otherBytes a ha := by
    have hsu := h.pixCount
    have hut := k.pixCount
    rw [k.otherBytes a (by omega), h.otherBytes a (by omega)]
  outputWf := k.outputWf
  rest := by
    have hrest := k.rest
    rw [h.rest] at hrest
    exact hrest

/-- An emission appends one copy. -/
theorem emit (hlt : s.pixCount.toNat < s.pixTotal.toNat) (hwf : Memory.wf s.output = true) :
    RepeatsPrev s (s.appended s.prev).countRun 1 := by
  have hcount := succ_toNat_of_lt hlt
  rw [State.countRun_eq]
  exact {
    pixCount := hcount
    copies := fun k hlo hhi => by
      obtain rfl : k = s.pixCount.toNat := by
        simp only [State.appended_pixCount, hcount] at hhi
        omega
      exact State.read_appended_pixel s.prev hwf
    otherBytes := fun a ha => State.read_appended_other s s.prev (by
      simp only [State.appended_pixCount, hcount] at ha
      simp only [State.outAddr]
      omega)
    outputWf := Memory.writeBytes_wf hwf _ _
    rest := rfl }

end RepeatsPrev

/-- Settles O22: a pixel that fits is appended, and the count-down decides whether the run goes on. -/
theorem runEmissionAppendsOnePixel : Obligations.RunEmissionAppendsOnePixel := by
  intro s hq hb hp hrun hlt hfit hwf
  have hrep := RepeatsPrev.emit hlt hwf
  have hcount : (s.appended s.prev).countRun.pixCount = s.pixCount + 1 := by rw [State.countRun_eq]; rfl
  refine ⟨_, step_runEmit_of_fits hq hb hp hfit, hrep.copies _ le_rfl (by rw [hrep.pixCount]; omega),
    fun a ha => hrep.otherBytes a (by rw [hrep.pixCount]; omega), hrep.pixCount, fun hend => ?_, fun hmore => ?_,
    hrep.rest⟩
  · rw [hcount] at hend
    exact State.countRun_of_last (s := s.appended s.prev) hend
  · rw [hcount] at hmore
    rw [← hp]
    exact State.countRun_of_not_last (s := s.appended s.prev) hrun hmore.1 hmore.2

/-! ## A whole run (spec/45_run_op.md R202, R203) -/

/-- The block is in a run emission with `n` pixels left to append, of the run and of the image, and they fit `OUT`. -/
structure State.Emitting (s : State) (n : Nat) : Prop where
  quiet : s.quiet
  busy : s.status = .busy
  phase : s.phase = .runEmit
  left : n = min s.runRemain.toNat (s.pixTotal.toNat - s.pixCount.toNat)
  fits : 4 * (s.pixCount.toNat + n) ≤ s.cfg.outCap
  outputWf : Memory.wf s.output = true

namespace State.Emitting

theorem step_eq {n : Nat} (h : s.Emitting (n + 1)) : step s = .next (s.appended s.prev).countRun := by
  have hfit := h.fits
  exact step_runEmit_of_fits h.quiet h.busy h.phase (by omega)

theorem repeatsPrev {n : Nat} (h : s.Emitting (n + 1)) : RepeatsPrev s (s.appended s.prev).countRun 1 := by
  have hleft := h.left
  exact RepeatsPrev.emit (by omega) h.outputWf

/-- The last pixel left is the last of the run or of the image. -/
theorem ends (h : s.Emitting 1) :
    (s.appended s.prev).countRun.runRemain = 0 ∧ (s.appended s.prev).countRun.phase = .ops := by
  have hleft := h.left
  refine countRun_of_last (s := s.appended s.prev) ?_
  obtain hrun | hdue : s.runRemain.toNat = 1 ∨ s.pixTotal.toNat - s.pixCount.toNat = 1 := by omega
  · exact .inl hrun
  · have hcount := succ_toNat_of_lt (a := s.pixCount) (b := s.pixTotal) (by omega)
    exact .inr (BitVec.eq_of_toNat_eq (hcount.trans (show _ = s.pixTotal.toNat by omega)))

/-- With more than one pixel left, an emission leaves one fewer. -/
theorem goes_on {n : Nat} (h : s.Emitting (n + 2)) : (s.appended s.prev).countRun.Emitting (n + 1) := by
  have hleft := h.left
  have hfit := h.fits
  have hrep := h.repeatsPrev
  have hcount := succ_toNat_of_lt (a := s.pixCount) (b := s.pixTotal) (by omega)
  have hdue : s.pixCount + 1 ≠ s.pixTotal := fun he => by rw [he] at hcount; omega
  have hrun : s.runRemain ≠ 0 := fun he => by simp [he] at hleft
  obtain ⟨hrest, hphase⟩ := countRun_of_not_last (s := s.appended s.prev) hrun
    (show s.runRemain.toNat ≠ 1 by omega) hdue
  rw [appended_runRemain] at hrest
  exact {
    quiet := hrep.hostMoves_eq.trans h.quiet
    busy := hrep.status_eq.trans h.busy
    phase := hphase.trans h.phase
    left := by rw [hrest, hrep.pixTotal_eq, hrep.pixCount]; omega
    fits := by rw [hrep.cfg_eq, hrep.pixCount]; omega
    outputWf := hrep.outputWf }

/-- The emissions together, by induction on the pixels left. -/
theorem expands {n : Nat} (h : s.Emitting (n + 1)) :
    ∃ t, steps (n + 1) s = .next t ∧ RepeatsPrev s t (n + 1) ∧ t.runRemain = 0 ∧ t.phase = .ops := by
  induction n generalizing s with
  | zero => exact ⟨_, steps_succ_of_next h.step_eq, h.repeatsPrev, h.ends⟩
  | succ n ih =>
    obtain ⟨t, hsteps, hrep, hend⟩ := ih h.goes_on
    rw [steps_succ_of_next h.step_eq]
    refine ⟨t, hsteps, ?_, hend⟩
    rw [Nat.add_comm]
    exact h.repeatsPrev.trans hrep

end State.Emitting

/-- A run from its dispatch on, with a pixel due and room for all of its pixels that are: they are appended, and the
block is back in the opcode loop behind the control byte. -/
theorem State.inLoop.run_expands {l n : Nat} {rest : List Byte} (h : s.inLoop)
    (hlt : s.pixCount.toNat < s.pixTotal.toNat) (hd : decode s.window = .instr (.run l) rest)
    (hn : n = min l (s.pixTotal.toNat - s.pixCount.toNat)) (hfit : 4 * (s.pixCount.toNat + n) ≤ s.cfg.outCap)
    (hwf : Memory.wf s.output = true) :
    ∃ t, steps (n + 1) s = .next t ∧ RepeatsPrev (s.advance 1) t n ∧ t.runRemain = 0 ∧ t.phase = .ops := by
  obtain ⟨hpos, hle⟩ := decode_run_bounds hd
  have hne : s.pixCount ≠ s.pixTotal := fun he => hlt.ne (congrArg BitVec.toNat he)
  have hstep : step s = .next (s.runLoaded l) := stepRunsDecodedInstruction s _ rest h hne hd
  obtain ⟨hq, hb, -⟩ := h
  obtain ⟨m, rfl⟩ : ∃ m, n = m + 1 := Nat.exists_eq_add_one.mpr (by omega)
  have hload : (s.runLoaded l).Emitting (m + 1) :=
    { quiet := hq
      busy := hb
      phase := rfl
      left := by rw [s.runLoaded_runRemain_toNat hle]; exact hn
      fits := hfit
      outputWf := hwf }
  obtain ⟨t, hsteps, hrep, hend⟩ := hload.expands
  exact ⟨t, (steps_succ_of_next hstep).trans hsteps,
    ⟨hrep.pixCount, hrep.copies, hrep.otherBytes, hrep.outputWf, hrep.rest⟩, hend⟩

/-- Settles O24: the whole run, where the number of its pixels is cut to what is left of the image. -/
theorem runExpandsToCopiesOfPrev : Obligations.RunExpandsToCopiesOfPrev := by
  intro s l rest h hlt hd hfit hwf
  obtain ⟨t, hsteps, hrep, hrun, hphase⟩ := h.run_expands hlt hd rfl hfit hwf
  refine ⟨t, hsteps, hrep.pixCount, hrep.copies, hrep.otherBytes, ?_⟩
  have hrest := hrep.rest
  rw [hrun, hphase] at hrest
  exact hrest

/-- Settles O25: the whole run leaves `PREV` and the cache alone, so the slot that an INDEX reads after it is still
empty. -/
theorem runOfDefaultPixelIsNotCached : Obligations.RunOfDefaultPixelIsNotCached := by
  refine ⟨by decide, fun s l rest h hlt hd hfit hwf hprev hslots => ?_⟩
  obtain ⟨t, hsteps, hrep, -, hphase⟩ := h.run_expands hlt hd rfl hfit hwf
  obtain ⟨hq, hb, -⟩ := h
  have hcopy : (s.advance 1).prev.bytes = [0, 0, 0, 255] := congrArg Pixel.bytes hprev
  have hempty : ∀ k, t.slot k = ⟨0, 0, 0, 0⟩ := fun k => (hrep.slot_eq k).trans (hslots k)
  refine ⟨t, hsteps, ⟨hrep.hostMoves_eq.trans hq, hrep.status_eq.trans hb, hphase⟩,
    hrep.pixCount, hcopy ▸ hrep.copies, hrep.prev_eq.trans hprev, hempty, fun hroom => ?_⟩
  rw [exec_index, hempty 53]
  exact State.exists_commits _ 1 hroom hrep.outputWf

end Sys2Proof.Machine
end

section
/-! PROOFS. The color cache (spec/46_color_cache.md): the hash, what a put writes, and that from START on every slot holds
`(0,0,0,0)` or a pixel of its own hash. -/

namespace Sys2Proof.Machine

variable {s t : State}

/-! ## The hash (spec/46_color_cache.md R220) -/

theorem hashSlot_val (p : Pixel) : (hashSlot p).val = hashSum p % 64 := rfl

theorem hashSum_le (p : Pixel) : hashSum p ≤ 6630 := by
  have hr := p.r.isLt
  have hg := p.g.isLt
  have hb := p.b.isLt
  have ha := p.a.isLt
  unfold hashSum
  omega

/-- A wrap at six bits or more keeps the low six bits, because 64 divides it. -/
theorem hashSlot_val_of_wrap (p : Pixel) {w : Nat} (h : 6 ≤ w) : (hashSlot p).val = hashSum p % 2 ^ w % 64 :=
  (Nat.mod_mod_of_dvd (hashSum p) (pow_dvd_pow 2 h)).symm

/-- Arithmetic on bytes computes the sum with a wrap at eight bits. -/
theorem hashSum_byte_arithmetic (p : Pixel) :
    (3 * p.r + 5 * p.g + 7 * p.b + 11 * p.a).toNat = hashSum p % 2 ^ 8 := by
  simp only [hashSum, BitVec.toNat_add, BitVec.toNat_mul, BitVec.reduceToNat]
  omega

/-- Settles O27: arithmetic on bytes is the wrap at eight bits, and every wrap at six bits or more keeps the slot. -/
theorem hashIsTheSumModSixtyFour : Obligations.HashIsTheSumModSixtyFour := by
  refine ⟨fun p => ⟨hashSlot_val p, hashSum_le p, fun w => hashSlot_val_of_wrap p, ?_⟩,
    by decide, by decide, by decide, by decide⟩
  rw [hashSum_byte_arithmetic]
  exact hashSlot_val_of_wrap p (by decide)

/-! ## A put, and the pixel just committed (spec/46_color_cache.md R222, R223) -/

theorem State.slot_put_same (s : State) (p : Pixel) : (s.put p).slot (hashSlot p) = p :=
  (s.slot_put p _).trans (if_pos rfl)

theorem State.slot_put_other (s : State) {p : Pixel} {k : Fin 64} (h : k ≠ hashSlot p) :
    (s.put p).slot k = s.slot k :=
  (s.slot_put p k).trans (if_neg h)

/-- Settles O28: the slot of the hash, every other slot, and the frame. -/
theorem putWritesOnlyTheHashSlot : Obligations.PutWritesOnlyTheHashSlot := fun s p =>
  ⟨s.slot_put_same p, fun _ => s.slot_put_other, rfl⟩

/-- Settles O29: an opcode that raises appends nothing, and one that appends ends with the put of its pixel. -/
theorem committedPixelIsInItsSlot : Obligations.CommittedPixelIsInItsSlot := by
  intro i s t hrun he hcount
  obtain ⟨-, rfl⟩ | ⟨n, rfl, -⟩ | ⟨p, -, rfl, -⟩ := exec_next he
  · exact absurd rfl hcount
  · exact absurd rfl (hrun n)
  · exact (s.appended p).slot_put_same p

/-! ## What a step does to the cache -/

theorem exec_cache {i : Instr} (h : exec i s = .next t) : t.cache = s.cache ∨ ∃ p, t.cache = (s.put p).cache := by
  obtain ⟨-, rfl⟩ | ⟨n, -, rfl⟩ | ⟨p, -, rfl, -⟩ := exec_next h
  · exact .inl rfl
  · exact .inl rfl
  · exact .inr ⟨p, rfl⟩

/-- The block's own step leaves the cache alone or puts one pixel into it. -/
theorem blockStep_cache (h : blockStep s = .next t) : t.cache = s.cache ∨ ∃ p, t.cache = (s.put p).cache := by
  obtain ⟨-, rfl⟩ | ⟨-, -, rfl⟩ | ⟨-, -, -, rfl⟩ | ⟨-, -, -, hd⟩ | ⟨-, -, -, rfl⟩ | ⟨-, -, rfl⟩ := blockStep_next h
  · exact .inl rfl
  · obtain ⟨e, pos, heq, -⟩ | ⟨-, -, heq⟩ := headerStep_cases s <;> rw [heq] <;> exact .inl rfl
  · exact .inl rfl
  · obtain rfl | ⟨i, rest, -, he⟩ := dispatch_next hd
    · exact .inl rfl
    · exact exec_cache he
  · rw [State.countRun_eq]
    exact .inl rfl
  · obtain heq | ⟨-, -, heq⟩ := endStep_cases s <;> rw [heq] <;> exact .inl rfl

/-- A move of the host leaves the cache and `STATE` alone, empties the cache with START, or is a reset, which leaves the
block in IDLE. -/
theorem hostMove_cache {m : HostMove} {block : State → Outcome} (hm : m ≠ .noMove) (h : hostMove m block s = .next t) :
    (t.cache = s.cache ∧ t.status = s.status) ∨ t.cache = emptyCache ∨ t.status = .idle := by
  obtain ⟨rfl, -⟩ | ⟨n, -, rfl⟩ | ⟨n, v, -, rfl⟩ | ⟨a, b, -, -, rfl⟩ | ⟨a, -, rfl⟩ | ⟨a, b, -, -, -, rfl⟩ |
    ⟨a, -, -, x, d, rfl⟩ | ⟨-, rfl⟩ := hostMove_next h
  · exact absurd rfl hm
  · exact .inl ⟨rfl, rfl⟩
  · obtain heq | ⟨-, -, heq⟩ | ⟨-, -, -, heq⟩ := s.regWrite_cases n v <;> rw [heq]
    · exact .inl ⟨rfl, rfl⟩
    · exact .inl ⟨rfl, rfl⟩
    · exact .inr (.inl rfl)
  · exact .inl ⟨rfl, rfl⟩
  · exact .inl ⟨rfl, rfl⟩
  · exact .inl ⟨rfl, rfl⟩
  · exact .inl ⟨rfl, rfl⟩
  · exact .inr (.inr rfl)

/-- The block's own step does not leave IDLE. -/
theorem not_idle_of_blockStep (h : blockStep s = .next t) (ht : t.status ≠ .idle) : s.status ≠ .idle := fun hidle =>
  ht (by
    rw [blockStep_of_not_busy (by simp [hidle])] at h
    injection h with h
    exact h ▸ hidle)

/-! ## Every slot holds `(0,0,0,0)` or a pixel of its own hash (spec/46_color_cache.md R224) -/

/-- What `State.CacheHashed` says outside IDLE; it depends on the cache alone. -/
def State.SlotsHashed (s : State) : Prop := ∀ i : Fin 64, s.slot i = Pixel.zero ∨ hashSlot (s.slot i) = i

theorem State.cacheHashed_iff : s.CacheHashed ↔ (s.status ≠ .idle → s.SlotsHashed) := Iff.rfl

namespace State.SlotsHashed

theorem of_cache_eq (h : s.SlotsHashed) (hc : t.cache = s.cache) : t.SlotsHashed := by
  simpa only [SlotsHashed, slot, hc] using h

theorem of_emptyCache (hc : t.cache = emptyCache) : t.SlotsHashed := fun i => .inl (by
  rw [slot, hc]
  exact emptyCache_get i)

/-- A put fills the slot of the pixel's own hash and leaves the others. -/
theorem put (h : s.SlotsHashed) (p : Pixel) : (s.put p).SlotsHashed := by
  intro i
  by_cases hi : i = hashSlot p
  · subst hi
    exact .inr (congrArg hashSlot (s.slot_put_same p))
  · rw [s.slot_put_other hi]
    exact h i

theorem of_blockStep (h : s.SlotsHashed) (hs : blockStep s = .next t) : t.SlotsHashed := by
  obtain hc | ⟨p, hc⟩ := blockStep_cache hs
  · exact h.of_cache_eq hc
  · exact (h.put p).of_cache_eq hc

end State.SlotsHashed

theorem State.CacheHashed.of_blockStep (h : s.CacheHashed) (hs : blockStep s = .next t) : t.CacheHashed :=
  cacheHashed_iff.mpr fun ht => (cacheHashed_iff.mp h (not_idle_of_blockStep hs ht)).of_blockStep hs

theorem State.CacheHashed.of_hostMove {m : HostMove} {block : State → Outcome} (h : s.CacheHashed) (hm : m ≠ .noMove)
    (hs : hostMove m block s = .next t) : t.CacheHashed := by
  refine cacheHashed_iff.mpr fun ht => ?_
  obtain ⟨hc, hstatus⟩ | hc | hidle := hostMove_cache hm hs
  · exact (cacheHashed_iff.mp h (hstatus ▸ ht)).of_cache_eq hc
  · exact SlotsHashed.of_emptyCache hc
  · exact absurd hidle ht

/-- Settles O52: the block's own step at most puts a pixel into its slot, START empties the cache, and a reset, which draws
it freely, leaves the block in IDLE. -/
theorem stepKeepsSlotsHashed : Obligations.StepKeepsSlotsHashed := by
  intro s t h hs
  obtain ⟨u, rfl | ⟨ms, -, rfl⟩, hb⟩ | ⟨m, ms, -, hm, hh⟩ := step_next hs
  · exact h.of_blockStep hb
  · exact State.CacheHashed.of_blockStep (s := { s with hostMoves := ms }) h hb
  · exact State.CacheHashed.of_hostMove (s := { s with hostMoves := ms }) h hm hh

end Sys2Proof.Machine
end

section
/-! PROOFS. The end-marker step (spec/47_end_marker.md): which rest of the input it accepts, and that DONE is reached no
other way. -/

namespace Sys2Proof.Machine

variable {s t : State}

/-! ## The END step (spec/47_end_marker.md R240, R241) -/

/-- In END with no host move pending the machine's step is the END step. -/
theorem step_of_endMarker (hq : s.quiet) (hb : s.status = .busy) (hp : s.phase = .endMarker) :
    step s = .next (endStep s) :=
  (step_quiet hq).trans (blockStep_of_endMarker hb hp)

theorem endStep_of_marker (ha : s.avail = 8) (hm : s.inBytes s.inPos.toNat 8 = endMarker) :
    endStep s = { s with inPos := s.inLen, status := .done } := by
  rw [endStep, if_neg (not_not.mpr ha), if_neg (not_not.mpr hm)]

theorem endStep_of_not_marker (h : ¬(s.avail = 8 ∧ s.inBytes s.inPos.toNat 8 = endMarker)) :
    endStep s = s.raise .invalidEndMarker s.inPos :=
  (endStep_cases s).resolve_right fun ⟨ha, hm, _⟩ => h ⟨ha, hm⟩

/-- Settles O34: the step in END is the END step, which accepts the marker and raises on every other rest. -/
theorem endStepAcceptsExactlyTheMarker : Obligations.EndStepAcceptsExactlyTheMarker := by
  intro s hq hb hp
  rw [step_of_endMarker hq hb hp]
  exact ⟨fun ⟨ha, hm⟩ => congrArg _ (endStep_of_marker ha hm), fun h => congrArg _ (endStep_of_not_marker h)⟩

/-! ## The way to DONE (spec/47_end_marker.md R244) -/

theorem endStep_done (h : (endStep s).status = .done) :
    s.avail = 8 ∧ s.inBytes s.inPos.toNat 8 = endMarker ∧ (endStep s).inPos = (endStep s).inLen := by
  obtain heq | ⟨ha, hm, heq⟩ := endStep_cases s <;> rw [heq] at h ⊢
  · exact absurd h (by simp)
  · exact ⟨ha, hm, rfl⟩

/-- The block's own step reaches DONE only in END, on the marker at the end of the input. -/
theorem blockStep_done (h : blockStep s = .next t) (ht : t.status = .done) (hs : s.status ≠ .done) :
    s.status = .busy ∧ s.phase = .endMarker ∧ s.avail = 8 ∧ s.inBytes s.inPos.toNat 8 = endMarker ∧
      t.inPos = t.inLen := by
  obtain hsame | ⟨hb, hp, -⟩ | ⟨-, herror, -⟩ := blockStep_status h
  · exact absurd (hsame.symm.trans ht) hs
  · rw [blockStep_of_endMarker hb hp] at h
    cases h
    exact ⟨hb, hp, endStep_done ht⟩
  · exact absurd (herror.symm.trans ht) (by decide)

/-- No move of the host makes `STATE` DONE. -/
theorem not_done_of_hostMove {m : HostMove} {block : State → Outcome} (hm : m ≠ .noMove)
    (h : hostMove m block s = .next t) (hs : s.status ≠ .done) : t.status ≠ .done := by
  obtain hsame | ⟨-, hidle⟩ | ⟨-, hbusy, -⟩ := hostMove_status hm h
  · rwa [hsame]
  · simp [hidle]
  · simp [hbusy]

/-- Settles O35: no move of the host leads to DONE, and the block's own step does so only by the END step. -/
theorem doneOnlyThroughTheEndStep : Obligations.DoneOnlyThroughTheEndStep := by
  intro s t h ht hs
  obtain ⟨u, hu, hb⟩ | ⟨m, ms, -, hm, hh⟩ := step_next h
  · have hend : s.status = .busy ∧ s.phase = .endMarker ∧ s.avail = 8 ∧ s.inBytes s.inPos.toNat 8 = endMarker ∧
        t.inPos = t.inLen := by
      obtain rfl | ⟨ms, -, rfl⟩ := hu
      · exact blockStep_done hb ht hs
      · exact blockStep_done (s := { s with hostMoves := ms }) hb ht hs
    obtain ⟨hbusy, hphase, ha, hmarker, hpos⟩ := hend
    have hlen : s.inLen.toNat = s.inPos.toNat + 8 := by
      rw [State.avail] at ha
      omega
    exact ⟨hbusy, hphase, hlen, hmarker, hpos⟩
  · exact absurd ht (not_done_of_hostMove (s := { s with hostMoves := ms }) hm hh hs)

end Sys2Proof.Machine
end

section
/-! PROOFS. The pixel accumulator (spec/48_pixel_accumulator.md): what the block's own step can do, case by case, and
that `PREV` is the last pixel of `OUT`. -/

namespace Sys2Proof.Machine

variable {s t : State}

/-! ## The block's own step, case by case (spec/41_opcode_dispatch.md R140) -/

/-- The errors that the block's own step can raise, each with its cause and its position (spec/60_exceptions.md R261 to
R263). -/
inductive RaisesAt (s : State) : ErrCode → Word64 → Prop
  | wrongMagic (hp : s.phase = .hdr) (hl : 4 ≤ s.inLen.toNat) (hm : s.inBytes 0 4 ≠ s.cfg.magic.toList) :
      RaisesAt s .magicMismatch 0
  | shortHeader {pos : Word64} (hp : s.phase = .hdr) (hl : s.inLen.toNat < headerBytes)
      (hpos : pos.toNat ≤ s.inLen.toNat) : RaisesAt s .truncatedInput pos
  | shortOpcode (hp : s.phase = .ops) (hne : s.pixCount ≠ s.pixTotal) (ha : s.avail < maxLength) :
      RaisesAt s .truncatedInput s.inPos
  | wrongEnd (hp : s.phase = .endMarker) : RaisesAt s .invalidEndMarker s.inPos

/-- The states that the block's own step can answer, each with what it takes to get there. -/
inductive BlockMove (s : State) : State → Prop
  | wait (hb : s.status ≠ .busy) : BlockMove s s
  | raise {e : ErrCode} {pos : Word64} (hb : s.status = .busy) (he : RaisesAt s e pos) : BlockMove s (s.raise e pos)
  | acceptHeader (hb : s.status = .busy) (hp : s.phase = .hdr) : BlockMove s s.acceptHeader
  | enterEndMarker (hb : s.status = .busy) (hp : s.phase = .ops) : BlockMove s { s with phase := .endMarker }
  | loadRun {n : Nat} (hb : s.status = .busy) (hp : s.phase = .ops) (ha : 1 ≤ s.avail) :
      BlockMove s (State.advance { s with runRemain := BitVec.ofNat 6 n, phase := .runEmit } 1)
  | commit {p : Pixel} {n : Nat} (hb : s.status = .busy) (hp : s.phase = .ops) (hne : s.pixCount ≠ s.pixTotal)
      (ha : n ≤ s.avail) : BlockMove s ((s.appended p).remember p n)
  | emit (hb : s.status = .busy) (hp : s.phase = .runEmit) : BlockMove s (s.appended s.prev).countRun
  | finish (hb : s.status = .busy) (hp : s.phase = .endMarker) :
      BlockMove s { s with inPos := s.inLen, status := .done }

theorem headerStep_blockMove (hb : s.status = .busy) (hp : s.phase = .hdr) : BlockMove s (headerStep s) := by
  have hshort : ∀ {pos : Word64}, s.inLen.toNat < 14 → pos.toNat ≤ s.inLen.toNat →
      BlockMove s (s.raise .truncatedInput pos) := fun hl hpos => .raise hb (.shortHeader hp hl hpos)
  unfold headerStep
  split_ifs with h4 hm h8 h12 h13 h14
  · exact hshort (by omega) (Nat.zero_le _)
  · exact .raise hb (.wrongMagic hp (by omega) hm)
  · exact hshort (by omega) (not_lt.mp h4)
  · exact hshort (by omega) (not_lt.mp h8)
  · exact hshort (by omega) (not_lt.mp h12)
  · exact hshort h14 (not_lt.mp h13)
  · exact .acceptHeader hb hp

/-- Where the decoder rejects what it sees, the longest opcode does not fit the rest of the input
(spec/41_opcode_dispatch.md R146). -/
theorem State.avail_lt_of_reject {why : DecodeReject} (h : decode s.window = .reject why) : s.avail < maxLength := by
  by_contra hle
  have hlen : s.window.length = maxLength := by
    simp [window, inBytes, min_eq_right (not_lt.mp hle)]
  obtain ⟨tail, hw⟩ := window_eq_cons ((by decide : 0 < maxLength).trans_le (not_lt.mp hle))
  rw [hw] at h hlen
  exact (length_lt_of_decode_reject h).not_ge ((opcode_length_le _).trans_eq hlen.symm)

theorem dispatch_blockMove (hb : s.status = .busy) (hp : s.phase = .ops) (hne : s.pixCount ≠ s.pixTotal)
    (h : dispatch s = .next t) : BlockMove s t := by
  cases hd : decode s.window with
  | reject why =>
    rw [dispatch_of_reject hd] at h
    cases h
    exact .raise hb (.shortOpcode hp hne (State.avail_lt_of_reject hd))
  | instr i rest =>
    rw [dispatch_of_decode hd] at h
    have ha := State.length_le_avail hd
    obtain ⟨n, rfl, rfl⟩ | ⟨-, -, rfl⟩ := exec_next_of_avail ha h
    · exact .loadRun hb hp ha
    · exact .commit hb hp hne ha

theorem endStep_blockMove (hb : s.status = .busy) (hp : s.phase = .endMarker) : BlockMove s (endStep s) := by
  obtain heq | ⟨-, -, heq⟩ := endStep_cases s <;> rw [heq]
  · exact .raise hb (.wrongEnd hp)
  · exact .finish hb hp

/-- Every next state that the block's own step answers is one of the listed ones. -/
theorem blockStep_blockMove (h : blockStep s = .next t) : BlockMove s t := by
  obtain ⟨hb, rfl⟩ | ⟨hb, hp, rfl⟩ | ⟨hb, hp, -, rfl⟩ | ⟨hb, hp, hne, hd⟩ | ⟨hb, hp, -, rfl⟩ | ⟨hb, hp, rfl⟩ :=
    blockStep_next h
  · exact .wait hb
  · exact headerStep_blockMove hb hp
  · exact .enterEndMarker hb hp
  · exact dispatch_blockMove hb hp hne hd
  · exact .emit hb hp
  · exact endStep_blockMove hb hp

/-- A step is the block's own, with at most an empty move of the host taken off, or a move of the host. -/
theorem step_blockMove_or_hostMove (h : step s = .next t) :
    (∃ ms, BlockMove { s with hostMoves := ms } t) ∨
    ∃ m ms, s.hostMoves = m :: ms ∧ m ≠ .noMove ∧ hostMove m blockStep { s with hostMoves := ms } = .next t := by
  obtain ⟨u, rfl | ⟨ms, -, rfl⟩, hb⟩ | hh := step_next h
  · exact .inl ⟨u.hostMoves, blockStep_blockMove hb⟩
  · exact .inl ⟨ms, blockStep_blockMove hb⟩
  · exact .inr hh

/-- A move of the host after which the block is BUSY changed at most what the host has read, or is an accepted START. -/
theorem hostMove_to_busy {m : HostMove} {block : State → Outcome} (hm : m ≠ .noMove) (h : hostMove m block s = .next t)
    (ht : t.status = .busy) :
    (s.status = .busy ∧ ∃ x d, t = { s with readData := x, draws := d }) ∨ (s.status ≠ .busy ∧ t = s.fresh) := by
  obtain ⟨rfl, -⟩ | ⟨n, -, rfl⟩ | ⟨n, v, -, rfl⟩ | ⟨a, b, -, hb, rfl⟩ | ⟨a, -, rfl⟩ | ⟨a, b, -, hb, -, rfl⟩ |
    ⟨a, -, -, x, d, rfl⟩ | ⟨-, rfl⟩ := hostMove_next h
  · exact absurd rfl hm
  · exact .inl ⟨ht, _, _, rfl⟩
  · obtain heq | ⟨-, hb, heq⟩ | ⟨-, -, hb, heq⟩ := s.regWrite_cases n v <;> rw [heq] at ht ⊢
    · exact .inl ⟨ht, _, _, rfl⟩
    · exact absurd ht hb
    · exact .inr ⟨hb, rfl⟩
  · exact absurd ht hb
  · exact .inl ⟨ht, _, _, rfl⟩
  · exact absurd ht hb
  · exact .inl ⟨ht, x, d, rfl⟩
  · cases ht

/-! ## `PREV` is the last pixel of `OUT` (spec/48_pixel_accumulator.md R254) -/

namespace State.PrevIsLast

/-- A pixel that is appended and kept in `PREV` is the last one of `OUT`. -/
theorem of_appended {p : Pixel} (hwf : Memory.wf s.output = true) (hlt : s.pixCount.toNat < s.pixTotal.toNat)
    (hout : t.output = (s.appended p).output) (hcount : t.pixCount = s.pixCount + 1) (hprev : t.prev = p) :
    t.PrevIsLast := by
  have hsucc : t.pixCount.toNat = s.pixCount.toNat + 1 := hcount ▸ succ_toNat_of_lt hlt
  refine fun _ => ⟨fun hzero => ?_, fun _ => ?_⟩
  · simp [hzero] at hsucc
  · rw [hsucc, hout, hprev]
    exact s.read_appended_pixel p hwf

theorem of_blockMove (hinv : s.Inv) (h : s.PrevIsLast) (hm : BlockMove s t) : t.PrevIsLast := by
  cases hm with
  | wait => exact h
  | raise => exact fun ht => nomatch ht
  | acceptHeader => exact h
  | enterEndMarker => exact h
  | loadRun => exact h
  | commit _ _ hne => exact of_appended hinv.outputWf (hinv.pixCount_lt hne) rfl rfl rfl
  | emit hb hp =>
    rw [countRun_eq]
    exact of_appended hinv.outputWf (hinv.runEmit hb hp).2 rfl rfl rfl
  | finish => exact fun ht => nomatch ht

theorem of_hostMove {m : HostMove} {block : State → Outcome} (h : s.PrevIsLast) (hm : m ≠ .noMove)
    (hs : hostMove m block s = .next t) : t.PrevIsLast := by
  intro ht
  obtain ⟨hb, x, d, rfl⟩ | ⟨-, rfl⟩ := hostMove_to_busy hm hs ht
  · exact h hb
  · exact ⟨fun _ => rfl, fun hne => absurd rfl hne⟩

end State.PrevIsLast

/-- Settles O53: the block's own step keeps `PREV` and `OUT` or appends the pixel that it leaves in `PREV`, and a move
of the host touches neither in a decode. -/
theorem stepKeepsPrevTheLastPixel : Obligations.StepKeepsPrevTheLastPixel := by
  intro s t hinv h hs
  obtain ⟨ms, hmove⟩ | ⟨m, ms, -, hm, hh⟩ := step_blockMove_or_hostMove hs
  · exact .of_blockMove (s := { s with hostMoves := ms }) (hinv.hostFields ms s.readData s.draws) h hmove
  · exact .of_hostMove (s := { s with hostMoves := ms }) h hm hh

end Sys2Proof.Machine
end

section
/-! PROOFS. Exceptions (spec/60_exceptions.md): what an error changes and where it comes from, the waiting block and the
line `done`, and what the instances of a platform do to each other. -/

namespace Sys2Proof.Machine

variable {s t : State}

/-! ## Errors (spec/60_exceptions.md R260 to R265) -/

theorem RaisesAt.ne_noError {e : ErrCode} {pos : Word64} (h : RaisesAt s e pos) : e ≠ .noError := by
  cases h <;> decide

/-- The block's own step goes to ERROR only by a raise. -/
theorem BlockMove.exists_raise (h : BlockMove s t) (hs : s.status ≠ .error) (ht : t.status = .error) :
    s.status = .busy ∧ ∃ e pos, RaisesAt s e pos ∧ t = s.raise e pos := by
  cases h with
  | wait => exact absurd ht hs
  | raise hb he => exact ⟨hb, _, _, he, rfl⟩
  | acceptHeader => exact absurd ht hs
  | enterEndMarker => exact absurd ht hs
  | loadRun => exact absurd ht hs
  | commit => exact absurd ht hs
  | emit =>
    rw [State.countRun_eq] at ht
    exact absurd ht hs
  | finish => cases ht

/-- No move of the host makes `STATE` ERROR. -/
theorem not_error_of_hostMove {m : HostMove} {block : State → Outcome} (hm : m ≠ .noMove)
    (h : hostMove m block s = .next t) (hs : s.status ≠ .error) : t.status ≠ .error := by
  obtain hsame | ⟨-, hidle⟩ | ⟨-, hbusy, -⟩ := hostMove_status hm h
  · rwa [hsame]
  · simp [hidle]
  · simp [hbusy]

/-- Settles O37: only a raise of the block's own step leads to ERROR, and each error that it raises has its cause. -/
theorem errorsArePrecise : Obligations.ErrorsArePrecise := by
  intro s t h hs ht
  obtain ⟨ms, hmove⟩ | ⟨m, ms, -, hm, hh⟩ := step_blockMove_or_hostMove h
  · obtain ⟨hb, e, pos, he, rfl⟩ := hmove.exists_raise hs ht
    refine ⟨hb, he.ne_noError, rfl, ?_⟩
    cases he with
    | wrongMagic hp hl hmagic => exact ⟨fun _ => ⟨hp, rfl, hl, hmagic⟩, nofun, nofun⟩
    | shortHeader hp hl hpos => exact ⟨nofun, fun _ => .inl ⟨hp, hl, hpos⟩, nofun⟩
    | shortOpcode hp hne ha => exact ⟨nofun, fun _ => .inr ⟨hp, hne, ha, rfl⟩, nofun⟩
    | wrongEnd hp => exact ⟨nofun, nofun, fun _ => ⟨hp, rfl⟩⟩
  · exact absurd ht (not_error_of_hostMove (s := { s with hostMoves := ms }) hm hh hs)

/-! ## The waiting block and the line `done` (spec/60_exceptions.md R268, R285) -/

theorem step_of_waiting (hq : s.quiet) (hb : s.status ≠ .busy) : step s = .next s :=
  (step_quiet hq).trans (blockStep_of_not_busy hb)

/-- How a step changes `STATE` (spec/10_state.md R24). -/
theorem step_status (h : step s = .next t) (hne : t.status ≠ s.status) :
    (s.hostMoves.head? = some .reset ∧ t.status = .idle) ∨
    (s.status ≠ .busy ∧ t.status = .busy ∧ ∃ v, s.hostMoves.head? = some (.writeReg 0 v) ∧ v[0] = true) ∨
    (s.status = .busy ∧ s.phase = .endMarker ∧ t.status = .done) ∨
    (s.status = .busy ∧ t.status = .error ∧ t.errCode ≠ .noError) := by
  obtain ⟨-, -, -, hlisted⟩ := statusChangesOnlyAsListed
  exact hlisted s t h hne

/-- Settles O38: of the listed changes of `STATE`, only reset and START are left to a block that waits. -/
theorem waitingBlockKeepsAllState : Obligations.WaitingBlockKeepsAllState := by
  refine ⟨fun s => step_of_waiting, fun s t hs h hne => ?_⟩
  obtain ⟨hreset, -⟩ | ⟨-, -, hstart⟩ | ⟨hb, -⟩ | ⟨hb, -⟩ := step_status h hne
  · exact .inl hreset
  · exact .inr hstart
  · exact absurd hb hs
  · exact absurd hb hs

theorem State.doneLine_iff (s : State) : s.doneLine = true ↔ s.status = .done ∨ s.status = .error := by
  simp [doneLine]

theorem State.doneLine_of_idle (h : s.status = .idle) : s.doneLine = false := by simp [doneLine, h]

theorem State.doneLine_of_busy (h : s.status = .busy) : s.doneLine = false := by simp [doneLine, h]

/-- Settles O39: the line shows `STATE`, so where it changes `STATE` does, in one of the listed ways. -/
theorem doneLineFollowsTheStatus : Obligations.DoneLineFollowsTheStatus := by
  have hchange : ∀ s t : State, s.doneLine ≠ t.doneLine → t.status ≠ s.status := fun s t hline e =>
    hline (by rw [State.doneLine, State.doneLine, e])
  refine ⟨State.doneLine_iff, fun s t h hlow hhigh => ?_, fun s t h hhigh hlow => ?_⟩
  · have hne := hchange s t (by simp [hlow, hhigh])
    obtain ⟨-, hidle⟩ | ⟨-, hbusy, -⟩ | ⟨hb, -⟩ | ⟨hb, -⟩ := step_status h hne
    · exact absurd hhigh (by simp [State.doneLine_of_idle hidle])
    · exact absurd hhigh (by simp [State.doneLine_of_busy hbusy])
    · exact hb
    · exact hb
  · have hne := hchange s t (by simp [hlow, hhigh])
    have hs : s.status ≠ .busy := fun hb => by simp [State.doneLine_of_busy hb] at hhigh
    exact waitingBlockKeepsAllState.2 s t hs h hne

/-! ## Instances (spec/60_exceptions.md R283) -/

namespace Platform

variable {p q : Platform} {k j : Nat} {u : State}

theorem block_of_instances (h : p.instances[k]? = some u) : p.block k = some (p.view u) := by
  rw [block, h, Option.map_some]

/-- What a block of the platform reads at an offset of `IN` stands in the platform's memory. -/
theorem block_inByte (h : p.block k = some s) {a : Nat} (ha : a < inSpan) :
    s.inByte a = Memory.read p.input (s.inAddress a) := by
  obtain ⟨u, -, rfl⟩ := block_eq_some h
  exact (p.view_inByte u a).trans (if_pos ha)

/-- A step of one block changes the platform's input memory only where the host writes through it. -/
theorem read_input_stepped (hs : p.block k = some s) (ht : p.stepOf s = .next t) {a : Nat}
    (ha : ∀ o b ms, s.hostMoves = .writeIn o b :: ms → s.inAddress o.toNat ≠ a) :
    Memory.read (p.store k t).input a = Memory.read p.input a := by
  obtain ⟨hcfg, hin, -⟩ := stepOf_memories ht
  by_cases hreach : s.cfg.inBase ≤ a ∧ a < s.cfg.inBase + inSpan
  · obtain ⟨c, rfl⟩ := Nat.exists_eq_add_of_le hreach.1
    have hc : c < inSpan := by omega
    have hsame : Memory.read t.input c = Memory.read s.input c := by
      obtain e | ⟨o, b, ms, hm, e⟩ := hin <;> rw [e]
      exact Memory.read_write_other _ _ fun hco => ha o b ms hm (hco ▸ rfl)
    rw [store, hcfg, Memory.read_putWindow_inside _ _ _ _ hc, hsame]
    exact block_inByte hs hc
  · have hinside : ∀ c ∈ t.input, c.1 < inSpan := (block_inside (block_stepped hs ht)).1
    rw [store, hcfg]
    exact Memory.read_putWindow_outside _ hinside (by omega)

/-- A step of one block changes the platform's output memory only inside that block's `OUT`. -/
theorem read_output_stepped (hs : p.block k = some s) (ht : p.stepOf s = .next t) {a : Nat}
    (ha : a < s.cfg.outBase ∨ s.cfg.outBase + s.cfg.outCap ≤ a) :
    Memory.read (p.store k t).output a = Memory.read p.output a := by
  have hinside : ∀ c ∈ t.output, c.1 < t.cfg.outCap := (block_inside (block_stepped hs ht)).2
  rw [store]
  exact Memory.read_putWindow_outside _ hinside (by rwa [(stepOf_memories ht).1])

/-- Where two `OUT` regions do not overlap, no byte of the one lies in the other. -/
theorem outside_of_not_outOverlap (h : s.outOverlap u = false) {a : Nat} (ha : a < u.cfg.outCap) :
    u.outAddress a < s.cfg.outBase ∨ s.cfg.outBase + s.cfg.outCap ≤ u.outAddress a := by
  simp only [State.outOverlap, decide_eq_false_iff_not] at h
  simp only [State.outAddress]
  omega

/-- Where a step would leave two BUSY instances with overlapping `OUT` regions, in terms of what the instances reach. -/
theorem overlapsBusy_iff_block :
    p.overlapsBusy k t = true ↔
      t.status = .busy ∧ ∃ j u, j ≠ k ∧ p.block j = some u ∧ u.status = .busy ∧ t.outOverlap u = true := by
  rw [overlapsBusy_iff]
  refine and_congr_right fun _ => ⟨?_, ?_⟩
  · rintro ⟨j, u, hj, hu, hb, ho⟩
    exact ⟨j, p.view u, hj, block_of_instances hu, hb, ho⟩
  · rintro ⟨j, v, hj, hv, hb, ho⟩
    obtain ⟨u, hu, rfl⟩ := block_eq_some hv
    exact ⟨j, u, hj, hu, hb, ho⟩

theorem OutsApart.block (h : p.OutsApart) (hj : j ≠ k) (hs : p.block k = some s) (hu : p.block j = some u)
    (hsb : s.status = .busy) (hub : u.status = .busy) : s.outOverlap u = false := by
  obtain ⟨x, hx, rfl⟩ := block_eq_some hs
  obtain ⟨y, hy, rfl⟩ := block_eq_some hu
  exact h k j x y hj.symm hx hy hsb hub

/-- Where no decodes overlap, a step that does not begin one leaves none that do. -/
theorem OutsApart.not_overlapsBusy (h : p.OutsApart) (hs : p.block k = some s) (hcfg : t.cfg = s.cfg)
    (hbusy : t.status = .busy → s.status = .busy) : p.overlapsBusy k t = false := by
  rw [← Bool.not_eq_true, overlapsBusy_iff_block]
  rintro ⟨htb, j, u, hj, hu, hub, ho⟩
  have hfalse := h.block hj hs hu (hbusy htb) hub
  rw [State.outOverlap, ← hcfg] at hfalse
  exact absurd (ho.symm.trans hfalse) (by decide)

/-- A host that makes no move neither writes nor reads beside a decode. -/
theorem no_access_of_quiet (h : s.quiet) : p.writesUnderBusy s = false ∧ p.readsUnderBusy s = false := by
  rw [State.quiet] at h
  simp [writesUnderBusy, readsUnderBusy, h]

/-- A host write that is not refused is to no byte of the input of a BUSY block (spec/20_memory.md R74). -/
theorem inAddress_ne_of_not_writesUnderBusy (h : p.writesUnderBusy s = false) {o : Word64} {b : Byte}
    {ms : List HostMove} (hm : s.hostMoves = .writeIn o b :: ms) (hu : p.instances[j]? = some u)
    (hb : u.status = .busy) {a : Nat} (ha : a < u.inLen.toNat) : s.inAddress o.toNat ≠ u.inAddress a := by
  intro haddr
  simp only [writesUnderBusy, hm, List.any_eq_false, haddr] at h
  refine h u (List.mem_of_getElem? hu) ?_
  simp [State.isBusy, hb, State.inputHolds, State.inAddress, ha]

end Platform

/-- The block's own step begins no decode. -/
theorem busy_of_blockStep (h : blockStep s = .next t) (ht : t.status = .busy) : s.status = .busy := by
  obtain hsame | ⟨hb, -⟩ | ⟨hb, -⟩ := blockStep_status h
  · exact hsame ▸ ht
  · exact hb
  · exact hb

/-- Settles O49: a block steps in its own state, and of the memories that the platform holds it changes only bytes of
its own regions. -/
theorem instancesShareNothing : Obligations.InstancesShareNothing := by
  refine ⟨fun p k s t hapart hs hq hstep => ?_, fun p q k s hs hq => ?_⟩
  · obtain ⟨hw, hr⟩ := Platform.no_access_of_quiet (p := p) hq
    have ht := (Platform.stepOf_of_quiet hr).trans hstep
    have ho := hapart.not_overlapsBusy hs (step_memories hstep).1 (busy_of_blockStep (step_quiet hq ▸ hstep))
    exact ⟨_, Platform.stepAt_of_next hs hw ht ho⟩
  · obtain ⟨-, t, ht, -, rfl⟩ := Platform.stepAt_next hs hq
    refine ⟨List.length_set, ⟨t, Platform.block_stepped hs ht, fun hr => ?own, fun hr => ?race⟩, fun j u hj hu => ?_⟩
    case own => rwa [Platform.stepOf_of_quiet hr] at ht
    case race =>
      rw [Platform.stepOf_of_race hr] at ht
      cases ht
      exact ⟨_, rfl⟩
    obtain ⟨w, hw, rfl⟩ := Platform.block_eq_some hu
    refine ⟨_, Platform.block_store_other hj hw, rfl, fun hno a => ?input, fun ho a => ?output⟩
    case input =>
      have hnone : ∀ o b ms, s.hostMoves = .writeIn o b :: ms → s.inAddress o.toNat ≠ w.inAddress a :=
        fun o b ms hm => absurd (by rw [hm]; rfl) (hno o b)
      rw [Platform.view_inByte, Platform.view_inByte, Platform.read_input_stepped hs ht hnone]
    case output =>
      rw [Platform.view_outByte, Platform.view_outByte]
      split_ifs with ha
      · exact Platform.read_output_stepped hs ht (Platform.outside_of_not_outOverlap ho ha)
      · rfl

/-- Settles O59: both read the platform's one memory, and a host write to a byte of a BUSY block's input is refused. -/
theorem instancesMayShareInput : Obligations.InstancesMayShareInput := by
  intro p q k j s t u v hj hs hu hq ht hv
  obtain ⟨hw, x, hx, -, rfl⟩ := Platform.stepAt_next hs hq
  obtain rfl : x = t := Option.some.inj ((Platform.block_stepped hs hx).symm.trans ht)
  obtain ⟨y, hy, rfl⟩ := Platform.block_eq_some hu
  obtain rfl : (p.store k x).view y = v := Option.some.inj ((Platform.block_store_other hj hy).symm.trans hv)
  refine ⟨fun a b ha hb hab => ⟨?before, ?after⟩, fun hbusy a ha => ?busy⟩
  case before => rw [Platform.block_inByte hu hb, Platform.block_inByte hs ha, hab]
  case after =>
    have haddr : x.inAddress a = s.inAddress a := by
      rw [State.inAddress, (Platform.stepOf_memories hx).1, State.inAddress]
    rw [Platform.block_inByte hv hb, Platform.block_inByte ht ha, haddr, hab]
    rfl
  case busy =>
    have hspan : a < inSpan := ha.trans y.inLen.isLt
    have hnone : ∀ o b ms, s.hostMoves = .writeIn o b :: ms → s.inAddress o.toNat ≠ y.inAddress a :=
      fun o b ms hm => Platform.inAddress_ne_of_not_writesUnderBusy hw hm hy hbusy ha
    rw [Platform.block_inByte hv hspan, Platform.block_inByte hu hspan]
    exact Platform.read_input_stepped hs hx hnone

end Sys2Proof.Machine
end

section
/-! PROOFS. Reset and hazards (spec/70_reset_and_hazards.md): what a reset leaves, that a decode only goes forward and
depends on nothing but its input, and that decodes at the same time have `OUT` regions apart. -/

namespace Sys2Proof.Machine

variable {s t : State}

/-! ## Reset (spec/70_reset_and_hazards.md R290) -/

theorem step_reset {ms : List HostMove} (h : s.hostMoves = .reset :: ms) :
    step s = .next (State.assertReset { s with hostMoves := ms }) := step_move h

/-- A reset leaves in every register what the reset state has there. -/
theorem State.regRead_assertReset (s : State) (n : Nat) : s.assertReset.regRead n = State.reset.regRead n := by
  unfold regRead
  split <;> rfl

/-- Settles O41: a reset is one named update, which leaves the block in IDLE, where it waits. -/
theorem resetClearsEveryRegister : Obligations.ResetClearsEveryRegister := by
  intro s ms h
  have hregs : ∀ n, (State.assertReset { s with hostMoves := ms }).regRead n = 0 := fun n =>
    (State.regRead_assertReset _ n).trans (State.regRead_reset n)
  refine ⟨_, step_reset h, rfl, rfl, hregs, rfl, rfl, rfl, rfl, rfl, fun hms => ?_⟩
  exact step_of_waiting (s := State.assertReset { s with hostMoves := ms }) hms (by simp)

/-! ## A decode only goes forward (spec/70_reset_and_hazards.md R297) -/

/-- What goes forward or stays in a decode: the two positions, and the header's registers once they are read. -/
structure Forward (s t : State) : Prop where
  inPos : s.inPos.toNat ≤ t.inPos.toNat
  pixCount : s.pixCount.toNat ≤ t.pixCount.toNat
  header : s.phase ≠ .hdr →
    t.width = s.width ∧ t.height = s.height ∧ t.channels = s.channels ∧ t.colorspace = s.colorspace ∧
      t.pixTotal = s.pixTotal

/-- A step that leaves the header's registers goes forward where the positions do. -/
theorem Forward.of_positions (hpos : s.inPos.toNat ≤ t.inPos.toNat) (hcount : s.pixCount.toNat ≤ t.pixCount.toNat)
    (hheader : t.width = s.width ∧ t.height = s.height ∧ t.channels = s.channels ∧ t.colorspace = s.colorspace ∧
      t.pixTotal = s.pixTotal) : Forward s t := ⟨hpos, hcount, fun _ => hheader⟩

theorem BlockMove.forward (hinv : s.Inv) (h : BlockMove s t) (hs : s.status = .busy) (ht : t.status = .busy) :
    Forward s t := by
  have hadvance : ∀ {n : Nat}, n ≤ s.avail → s.inPos.toNat ≤ (s.inPos + BitVec.ofNat 64 n).toNat := fun ha =>
    (Nat.le_add_right _ _).trans_eq (State.inPos_add_toNat ha (hinv.inPos hs)).1.symm
  have hcount : s.pixCount.toNat < s.pixTotal.toNat → s.pixCount.toNat ≤ (s.pixCount + 1).toNat := fun hlt =>
    (Nat.le_succ _).trans_eq (succ_toNat_of_lt hlt).symm
  cases h with
  | wait hb => exact absurd hs hb
  | raise => cases ht
  | acceptHeader _ hp =>
    have hzero : s.inPos = 0 := (hinv.fresh hs hp).1
    exact ⟨by simp [hzero], le_refl _, fun hne => absurd hp hne⟩
  | enterEndMarker => exact .of_positions (le_refl _) (le_refl _) ⟨rfl, rfl, rfl, rfl, rfl⟩
  | loadRun _ _ ha => exact .of_positions (hadvance (n := 1) ha) (le_refl _) ⟨rfl, rfl, rfl, rfl, rfl⟩
  | commit _ _ hne ha =>
    exact .of_positions (hadvance ha) (hcount (hinv.pixCount_lt hne)) ⟨rfl, rfl, rfl, rfl, rfl⟩
  | emit _ hp =>
    rw [State.countRun_eq]
    exact .of_positions (le_refl _) (hcount (hinv.runEmit hs hp).2) ⟨rfl, rfl, rfl, rfl, rfl⟩
  | finish => cases ht

/-- Settles O46: the block's own step goes forward, and in a decode no move of the host touches what it compares. -/
theorem progressIsMonotone : Obligations.ProgressIsMonotone := by
  intro s t hinv hs ht h
  have herr : t.errPos = 0 := (hinv.of_step h).errPos (by simp [ht])
  obtain ⟨ms, hmove⟩ | ⟨m, ms, -, hm, hh⟩ := step_blockMove_or_hostMove h
  · obtain ⟨hpos, hcount, hheader⟩ :=
      hmove.forward (s := { s with hostMoves := ms }) (hinv.hostFields ms s.readData s.draws) hs ht
    exact ⟨hpos, hcount, herr, hheader⟩
  · obtain ⟨-, x, d, rfl⟩ | ⟨hn, -⟩ := hostMove_to_busy hm hh ht
    · exact ⟨le_refl _, le_refl _, herr, fun _ => ⟨rfl, rfl, rfl, rfl, rfl⟩⟩
    · exact absurd hs hn

/-! ## Two decodes of the same input (spec/70_reset_and_hazards.md R295) -/

/-- Two writes of the same bytes read alike where they write, and where the memories read alike before. -/
theorem Memory.read_writeBytes_congr {m m' : Memory} {o a : Nat} {bs : List Byte} (hm : Memory.wf m = true)
    (hm' : Memory.wf m' = true) (h : Memory.read m' a = Memory.read m a ∨ (o ≤ a ∧ a < o + bs.length)) :
    Memory.read (Memory.writeBytes m' o bs) a = Memory.read (Memory.writeBytes m o bs) a := by
  induction bs generalizing m m' o with
  | nil => exact h.resolve_right fun ⟨hlo, hhi⟩ => Nat.not_lt.mpr hlo hhi
  | cons b bs ih =>
    refine ih (Memory.write_wf hm o b) (Memory.write_wf hm' o b) ?_
    by_cases ho : a = o
    · subst ho
      exact .inl ((Memory.read_write_same hm' a b).trans (Memory.read_write_same hm a b).symm)
    · rw [Memory.read_write_other _ _ ho, Memory.read_write_other _ _ ho]
      exact h.imp_right fun ⟨hlo, hhi⟩ => ⟨by omega, by simp only [List.length_cons] at hhi; omega⟩

namespace SameDecode

/-! ### What the two blocks have in common -/

theorem status (h : SameDecode s t) : t.status = s.status := by rw [h.block]

theorem phase (h : SameDecode s t) : t.phase = s.phase := by rw [h.block]

theorem inLen (h : SameDecode s t) : t.inLen = s.inLen := by rw [h.block]

theorem inPos (h : SameDecode s t) : t.inPos = s.inPos := by rw [h.block]

theorem pixTotal (h : SameDecode s t) : t.pixTotal = s.pixTotal := by rw [h.block]

theorem pixCount (h : SameDecode s t) : t.pixCount = s.pixCount := by rw [h.block]

theorem runRemain (h : SameDecode s t) : t.runRemain = s.runRemain := by rw [h.block]

theorem prev (h : SameDecode s t) : t.prev = s.prev := by rw [h.block]

theorem running (h : SameDecode s t) : t.running = s.running := by rw [h.block]; rfl

theorem hostMoves (h : SameDecode s t) : t.hostMoves = s.hostMoves := by rw [h.block]

theorem avail (h : SameDecode s t) : t.avail = s.avail := by rw [State.avail, h.inLen, h.inPos, State.avail]

theorem outFits (h : SameDecode s t) : t.outFits = s.outFits := by
  rw [State.outFits, State.outAddr, h.pixCount, h.outCap, State.outFits, State.outAddr]

/-- Bytes below `IN_LEN` read alike. -/
theorem inBytes_eq (h : SameDecode s t) {a n : Nat} (hn : a + n ≤ max a s.inLen.toNat) :
    t.inBytes a n = s.inBytes a n :=
  Memory.readBytes_congr fun k _ _ => h.inBytes k (by omega)

/-- The decoder sees the same bytes, because it sees none at `IN_LEN` or above (spec/20_memory.md R61). -/
theorem window (h : SameDecode s t) : t.window = s.window := by
  rw [State.window, h.inPos, h.avail]
  exact h.inBytes_eq (by simp only [State.avail]; omega)

/-! ### The named updates keep it -/

theorem raise (h : SameDecode s t) (e : ErrCode) (pos : Word64) : SameDecode (s.raise e pos) (t.raise e pos) :=
  { h with block := congrArg (State.raise · e pos) h.block }

theorem acceptHeader (h : SameDecode s t) (hl : headerBytes ≤ s.inLen.toNat) :
    SameDecode s.acceptHeader t.acceptHeader := by
  simp only [headerBytes] at hl
  have hbyte : ∀ a, a < 14 → t.inByte a = s.inByte a := fun a ha => h.inBytes a (by omega)
  have haccept : t.acceptHeader = { s.acceptHeader with
      cfg := t.cfg, input := t.input, output := t.output, readData := t.readData, draws := t.draws } := by
    rw [State.acceptHeader, hbyte 4 (by omega), hbyte 5 (by omega), hbyte 6 (by omega), hbyte 7 (by omega),
      hbyte 8 (by omega), hbyte 9 (by omega), hbyte 10 (by omega), hbyte 11 (by omega), hbyte 12 (by omega),
      hbyte 13 (by omega), h.block]
    rfl
  exact { h with block := haccept }

theorem withPhase (h : SameDecode s t) (ph : Phase) : SameDecode { s with phase := ph } { t with phase := ph } :=
  { h with block := congrArg (fun x : State => { x with phase := ph }) h.block }

theorem withRunRemain (h : SameDecode s t) (r : BitVec 6) :
    SameDecode { s with runRemain := r } { t with runRemain := r } :=
  { h with block := congrArg (fun x : State => { x with runRemain := r }) h.block }

theorem advance (h : SameDecode s t) (n : Nat) : SameDecode (s.advance n) (t.advance n) :=
  { h with block := congrArg (State.advance · n) h.block }

theorem remember (h : SameDecode s t) (p : Pixel) (n : Nat) : SameDecode (s.remember p n) (t.remember p n) :=
  { h with block := congrArg (State.remember · p n) h.block }

theorem finish (h : SameDecode s t) :
    SameDecode { s with inPos := s.inLen, status := .done } { t with inPos := t.inLen, status := .done } :=
  { h with block := congrArg (fun x : State => { x with inPos := x.inLen, status := .done }) h.block }

theorem countRun (h : SameDecode s t) : SameDecode s.countRun t.countRun := by
  by_cases hend : s.runRemain - 1 = 0 ∨ s.pixCount = s.pixTotal
  · rw [State.countRun_ends hend, State.countRun_ends (by rwa [h.runRemain, h.pixCount, h.pixTotal])]
    exact (h.withRunRemain 0).withPhase .ops
  · rw [State.countRun_goes_on hend, State.countRun_goes_on (by rwa [h.runRemain, h.pixCount, h.pixTotal]), h.runRemain]
    exact h.withRunRemain _

section

variable (hs : Memory.wf s.output = true) (ht : Memory.wf t.output = true)

include hs ht

theorem appended (h : SameDecode s t) (p : Pixel) : SameDecode (s.appended p) (t.appended p) where
  magic := h.magic
  outCap := h.outCap
  inBytes := h.inBytes
  block := by
    rw [State.appended, h.pixCount, h.block]
    rfl
  pixels a ha := by
    have hcount : (s.pixCount + 1).toNat ≤ s.pixCount.toNat + 1 := by bv_omega
    have haddr : t.outAddr = s.outAddr := by rw [State.outAddr, h.pixCount, State.outAddr]
    rw [State.appended_pixCount] at ha
    rw [State.appended_output, State.appended_output, haddr]
    refine Memory.read_writeBytes_congr hs ht ?_
    by_cases hold : a < 4 * s.pixCount.toNat
    · exact .inl (h.pixels a hold)
    · exact .inr ⟨not_lt.mp hold, by simp only [Pixel.bytes_length, State.outAddr]; omega⟩

/-! ### The block's own step keeps it -/

/-- An opcode works on what the two blocks have in common. -/
theorem of_exec (h : SameDecode s t) {i : Instr} {u : State} (ha : i.opcode.length ≤ s.avail)
    (he : exec i s = .next u) : ∃ v, exec i t = .next v ∧ SameDecode u v := by
  obtain ⟨n, rfl, rfl⟩ | ⟨hrun, hf, rfl⟩ := exec_next_of_avail ha he
  · exact ⟨_, rfl, ((h.withRunRemain (BitVec.ofNat 6 n)).withPhase .runEmit).advance 1⟩
  · obtain ⟨v, hv⟩ := exec_of_fits (h.avail.symm ▸ ha) (h.outFits.trans hf)
    obtain ⟨n, rfl, -⟩ | ⟨-, -, rfl⟩ := exec_next_of_avail (h.avail.symm ▸ ha) hv
    · exact absurd rfl (hrun n)
    · refine ⟨_, hv, ?_⟩
      rw [h.running]
      exact (h.appended hs ht _).remember _ _

theorem of_dispatch (h : SameDecode s t) {u : State} (hd : dispatch s = .next u) :
    ∃ v, dispatch t = .next v ∧ SameDecode u v := by
  cases hw : decode s.window with
  | instr i rest =>
    rw [dispatch_of_decode hw] at hd
    rw [dispatch_of_decode (h.window.symm ▸ hw)]
    exact h.of_exec hs ht (State.length_le_avail hw) hd
  | reject why =>
    rw [dispatch_of_reject hw] at hd
    cases hd
    rw [dispatch_of_reject (h.window.symm ▸ hw), h.inPos]
    exact ⟨_, rfl, h.raise _ _⟩

end

/-- The header step compares and reads bytes below `IN_LEN` only. -/
theorem of_headerStep (h : SameDecode s t) : SameDecode (headerStep s) (headerStep t) := by
  by_cases hl : s.inLen.toNat < 4
  · rw [headerStep_of_missing_magic hl, headerStep_of_missing_magic (h.inLen.symm ▸ hl)]
    exact h.raise _ _
  have h4 : 4 ≤ s.inLen.toNat := not_lt.mp hl
  have h4t : 4 ≤ t.inLen.toNat := h.inLen.symm ▸ h4
  have htag : t.inBytes 0 4 = s.inBytes 0 4 := h.inBytes_eq (by omega)
  by_cases hm : s.inBytes 0 4 = s.cfg.magic.toList
  · rw [headerStep_past_magic h4 hm, headerStep_past_magic h4t (by rw [htag, h.magic, hm]), h.inLen]
    split_ifs with h8 h12 h13 h14
    · exact h.raise _ _
    · exact h.raise _ _
    · exact h.raise _ _
    · exact h.raise _ _
    · exact h.acceptHeader (not_lt.mp h14)
  · rw [headerStep_of_wrong_magic h4 hm, headerStep_of_wrong_magic h4t (by rwa [htag, h.magic])]
    exact h.raise _ _

/-- The END step compares bytes below `IN_LEN` only. -/
theorem of_endStep (h : SameDecode s t) : SameDecode (endStep s) (endStep t) := by
  have hbytes : s.avail = 8 → t.inBytes t.inPos.toNat 8 = s.inBytes s.inPos.toNat 8 := fun ha => by
    rw [h.inPos]
    exact h.inBytes_eq (by simp only [State.avail] at ha; omega)
  by_cases hm : s.avail = 8 ∧ s.inBytes s.inPos.toNat 8 = endMarker
  · rw [endStep_of_marker hm.1 hm.2, endStep_of_marker (h.avail.trans hm.1) ((hbytes hm.1).trans hm.2)]
    exact h.finish
  · have hmt : ¬(t.avail = 8 ∧ t.inBytes t.inPos.toNat 8 = endMarker) := fun ⟨ha, hb⟩ =>
      hm ⟨h.avail.symm.trans ha, (hbytes (h.avail.symm.trans ha)).symm.trans hb⟩
    rw [endStep_of_not_marker hm, endStep_of_not_marker hmt, h.inPos]
    exact h.raise _ _

theorem of_blockStep (h : SameDecode s t) (hs : Memory.wf s.output = true) (ht : Memory.wf t.output = true)
    {u : State} (hu : blockStep s = .next u) : ∃ v, blockStep t = .next v ∧ SameDecode u v := by
  obtain ⟨hb, rfl⟩ | ⟨hb, hp, rfl⟩ | ⟨hb, hp, he, rfl⟩ | ⟨hb, hp, hne, hd⟩ | ⟨hb, hp, hf, rfl⟩ | ⟨hb, hp, rfl⟩ :=
    blockStep_next hu
  · exact ⟨t, blockStep_of_not_busy (h.status ▸ hb), h⟩
  · exact ⟨_, blockStep_of_hdr (h.status.trans hb) (h.phase.trans hp), h.of_headerStep⟩
  · rw [blockStep_of_ops (h.status.trans hb) (h.phase.trans hp),
      opsStep_of_complete (by rw [h.pixCount, h.pixTotal, he])]
    exact ⟨_, rfl, h.withPhase _⟩
  · rw [blockStep_of_ops (h.status.trans hb) (h.phase.trans hp), opsStep_of_due (by rwa [h.pixCount, h.pixTotal])]
    exact h.of_dispatch hs ht hd
  · rw [blockStep_of_runEmit (h.status.trans hb) (h.phase.trans hp), runEmitStep,
      State.append_of_fits _ _ (h.outFits.trans hf), h.prev]
    exact ⟨_, rfl, (h.appended hs ht _).countRun⟩
  · exact ⟨_, blockStep_of_endMarker (h.status.trans hb) (h.phase.trans hp), h.of_endStep⟩

/-- Whether the block's own step faults depends on what the two blocks have in common. -/
theorem blockStep_fault_iff (h : SameDecode s t) {f : Fault} : blockStep t = .fault f ↔ blockStep s = .fault f := by
  rw [Machine.blockStep_fault_iff, Machine.blockStep_fault_iff, h.outFits, h.status, h.phase, h.pixCount, h.pixTotal,
    h.window]

end SameDecode

/-- The block's own step keeps the host's pending moves. -/
theorem BlockMove.hostMoves_eq (h : BlockMove s t) : t.hostMoves = s.hostMoves := by
  cases h with
  | emit => rw [State.countRun_eq]; rfl
  | _ => rfl

/-- The block's own step keeps the canonical form of `OUT`. -/
theorem blockStep_outputWf (h : blockStep s = .next t) (hs : Memory.wf s.output = true) :
    Memory.wf t.output = true := by
  obtain ⟨-, -, e | ⟨-, p, e⟩⟩ := blockStep_memories h <;> rw [e]
  · exact hs
  · exact Memory.writeBytes_wf hs _ _

/-- Settles O58: with no host move pending both steps are the block's own. -/
theorem stepKeepsSameDecode : Obligations.StepKeepsSameDecode := by
  intro s t h hq hs ht
  rw [step_quiet hq, step_quiet (h.hostMoves.trans hq)]
  refine ⟨fun u hu => ?_, fun f => h.blockStep_fault_iff.mpr⟩
  obtain ⟨v, hv, huv⟩ := h.of_blockStep hs ht hu
  exact ⟨v, hv, huv, (blockStep_blockMove hu).hostMoves_eq.trans hq, blockStep_outputWf hu hs, blockStep_outputWf hv ht⟩

/-- Two decodes of the same input run alike, by induction on the steps. -/
theorem SameDecode.of_steps (h : SameDecode s t) (hq : s.quiet) (hs : Memory.wf s.output = true)
    (ht : Memory.wf t.output = true) (n : Nat) :
    (∀ u, steps n s = .next u → ∃ v, steps n t = .next v ∧ SameDecode u v) ∧
      (∀ f, steps n s = .fault f → steps n t = .fault f) := by
  induction n generalizing s t with
  | zero =>
    refine ⟨fun u hu => ?_, nofun⟩
    cases hu
    exact ⟨t, rfl, h⟩
  | succ n ih =>
    obtain ⟨hnext, hfault⟩ := stepKeepsSameDecode s t h hq hs ht
    cases hstep : step s with
    | next u =>
      obtain ⟨v, hv, huv, huq, hu, hvw⟩ := hnext u hstep
      rw [steps_succ_of_next hstep, steps_succ_of_next hv]
      exact ih huv huq hu hvw
    | fault f => simp [steps_succ, hstep, hfault f hstep]
    | refused r => simp [steps_succ, hstep]

/-- START sets all that a decode holds, and before its first pixel no byte of `OUT` is compared. -/
theorem SameDecode.fresh (hq : s.quiet) (hqt : t.quiet) (hmagic : t.cfg.magic = s.cfg.magic)
    (hcap : t.cfg.outCap = s.cfg.outCap) (hlen : t.inLen = s.inLen)
    (hin : ∀ a, a < s.inLen.toNat → t.inByte a = s.inByte a) : SameDecode s.fresh t.fresh where
  magic := hmagic
  outCap := hcap
  inBytes := hin
  block := by
    rw [State.fresh, State.fresh, hlen, hq, hqt]
  pixels a ha := absurd ha (by simp)

/-- Settles O55: START makes the two blocks decodes of the same input, which they stay. -/
theorem decodeDependsOnlyOnTheInput : Obligations.DecodeDependsOnlyOnTheInput := by
  intro s t n hq hqt hs ht hsw htw hmagic hcap hlen hin
  rw [State.start_of_not_busy hs, State.start_of_not_busy ht]
  exact (SameDecode.fresh hq hqt hmagic hcap hlen hin).of_steps hq hsw htw n

/-! ## `OUT` regions of decodes at the same time (spec/70_reset_and_hazards.md R293) -/

namespace Platform

variable {p q : Platform} {k j : Nat}

theorem outsApart_reset (cfgs : List Config) : (Platform.reset cfgs).OutsApart := by
  intro j k u v _ hu _ hub
  obtain ⟨cfg, -, rfl⟩ := List.mem_map.mp (List.mem_of_getElem? hu)
  cases hub

/-- The instances after a step: the one that was stored, and the others as they were. -/
theorem instances_store {u : State} (h : (p.store k t).instances[j]? = some u) :
    (j = k ∧ u = t.bare) ∨ (j ≠ k ∧ p.instances[j]? = some u) := by
  change (p.instances.set k t.bare)[j]? = some u at h
  by_cases hj : j = k
  · subst hj
    obtain ⟨hlen, -⟩ := List.getElem?_eq_some_iff.mp h
    rw [List.getElem?_set_self (by simpa using hlen)] at h
    exact .inl ⟨rfl, (Option.some.inj h).symm⟩
  · rw [List.getElem?_set_ne (Ne.symm hj)] at h
    exact .inr ⟨hj, h⟩

/-- A platform stays apart where the block that is stored overlaps no decode of another. -/
theorem OutsApart.store (h : p.OutsApart) (ht : p.overlapsBusy k t = false) : (p.store k t).OutsApart := by
  have hnone : ∀ {j : Nat} {u : State}, j ≠ k → p.instances[j]? = some u → t.status = .busy → u.status = .busy →
      t.outOverlap u = false := fun hj hu htb hub => by
    rw [← Bool.not_eq_true] at ht ⊢
    exact fun ho => ht (overlapsBusy_iff.mpr ⟨htb, _, _, hj, hu, hub, ho⟩)
  intro i j u v hij hu hv hub hvb
  obtain ⟨rfl, rfl⟩ | ⟨hik, hu'⟩ := instances_store hu
  · obtain ⟨rfl, -⟩ | ⟨hjk, hv'⟩ := instances_store hv
    · exact absurd rfl hij
    · exact hnone hjk hv' hub hvb
  · obtain ⟨rfl, rfl⟩ | ⟨-, hv'⟩ := instances_store hv
    · rw [State.outOverlap_comm]
      exact hnone hik hu' hvb hub
    · exact h i j u v hij hu' hv' hub hvb

/-- A step that would leave two BUSY instances with overlapping `OUT` regions is refused. -/
theorem stepAt_of_overlap (hs : p.block k = some s) (hw : p.writesUnderBusy s = false) (ht : p.stepOf s = .next t)
    (ho : p.overlapsBusy k t = true) : p.stepAt k = .refused .overlappingOut := by
  simp [stepAt, hs, hw, ht, ho]

theorem OutsApart.of_stepAt (h : p.OutsApart) (hq : p.stepAt k = .next q) : q.OutsApart := by
  cases hs : p.block k with
  | none =>
    simp only [stepAt, hs] at hq
    cases hq
    exact h
  | some s =>
    obtain ⟨-, t, -, ho, rfl⟩ := stepAt_next hs hq
    exact h.store ho

/-- START at a block that is not BUSY writes and reads no memory, and is that block's own step. -/
theorem start_of_not_busy {v : Word64} {ms : List HostMove} (hm : s.hostMoves = .writeReg 0 v :: ms) (hv : v[0] = true)
    (hb : s.status ≠ .busy) :
    p.writesUnderBusy s = false ∧ p.stepOf s = .next (State.fresh { s with hostMoves := ms }) := by
  have hr : p.readsUnderBusy s = false := by simp [readsUnderBusy, hm]
  refine ⟨by simp [writesUnderBusy, hm], ?_⟩
  rw [stepOf_of_quiet hr, step_start hm hv, State.start_of_not_busy (s := { s with hostMoves := ms }) hb]

end Platform

/-- Settles O60: a step of the platform is refused exactly where it would leave two decodes that overlap. -/
theorem decodingOutRegionsStayApart : Obligations.DecodingOutRegionsStayApart := by
  refine ⟨Platform.outsApart_reset, fun p q k => .of_stepAt, fun p k s v ms hs hm hv hb => ?_⟩
  obtain ⟨hw, ht⟩ := Platform.start_of_not_busy (p := p) hm hv hb
  refine ⟨fun hfree => ?_, fun ⟨j, u, hj, hu, hub, ho⟩ => ?_⟩
  · have hapart : p.overlapsBusy k (State.fresh { s with hostMoves := ms }) = false := by
      rw [← Bool.not_eq_true, Platform.overlapsBusy_iff_block]
      rintro ⟨-, j, u, hj, hu, hub, ho⟩
      exact Bool.false_ne_true ((hfree j u hj hu hub).symm.trans ho)
    exact ⟨_, _, Platform.stepAt_of_next hs hw ht hapart, Platform.block_stepped hs ht, rfl, rfl⟩
  · exact Platform.stepAt_of_overlap hs hw ht (Platform.overlapsBusy_iff_block.mpr ⟨rfl, j, u, hj, hu, hub, ho⟩)

end Sys2Proof.Machine
end
